-- ==== Sys2Proof/Word.lean ====
section
/-!
DEFINITION. The value types of the codec core: bytes, 32-bit register words, and byte ranges of data memory.
-/

namespace Sys2Proof

/-- The source's unit of all input and output, "8-bit values" (20_memory.md R50). -/
abbrev Byte := BitVec 8

/-- The contents of a 32-bit MMIO register, an address or a length (00_scope.md R7). -/
abbrev Word := BitVec 32

namespace Machine

/-- A byte range `[base, base + len)` of data memory, a *region* (00_scope.md R18). The sum is exact (R8). -/
structure Span where
  base : Nat
  len  : Nat
  deriving DecidableEq, Repr, Inhabited

end Machine

end Sys2Proof
end

