-- ==== Sys2Proof/Machine/Internal.lean ====
section
/-!
DEFINITION. The engine's internal tables and cursors (10_state.md R39): data no host access reaches, which a command
builds afresh and which hold any value between commands (R40, 70_reset_and_hazards.md R233).
-/

namespace Sys2Proof.Machine

/-- A node of the prefix-tree arena (10_state.md R39): a leaf with its byte value, or an internal node with the
indices of its children; both carry an exact weight (00_scope.md R7, WEIGHT_W). -/
inductive Node where
  | leaf (sym : Byte) (weight : Nat)
  | node (left right : Nat) (weight : Nat)
  deriving DecidableEq, Repr, Inhabited

/-- What `build_tree` returns (40_huffman.md R112): the arena in creation order, the root's index where there is
one, and `k`, the number of leaves. -/
structure Tree where
  nodes : List Node
  root  : Option Nat
  k     : Nat
  deriving DecidableEq, Repr, Inhabited

/-- The LZ77 search state (10_state.md R39). -/
structure Search where
  pos      : Word
  cand     : BitVec 16
  bestLen  : Byte
  bestDist : BitVec 16
  deriving DecidableEq, Repr, Inhabited

/-- The internal tables and cursors of 10_state.md R39. -/
structure Tables where
  /-- Frequency table F: 256 counts of 32 bits. -/
  freq   : Vector Word 256
  /-- Node arena, of up to 511 nodes. -/
  tree   : Tree
  /-- Code table: 256 entries, up to 255 code bits for each byte value, none for one that has no code. -/
  codes  : Vector (List Bool) 256
  search : Search
  /-- Output cursor: the number of bytes emitted so far. -/
  cursor : Word
  /-- RLE run counter. -/
  run    : Byte
  deriving DecidableEq, Repr, Inhabited

/-- The sizes of R39 that the types do not give: 511 nodes, 255 code bits. -/
def Tables.fit (t : Tables) : Tables :=
  { t with
    tree := { t.tree with nodes := t.tree.nodes.take 511 }
    codes := t.codes.map fun code => code.take 255 }

/-- The frequency table as numbers. -/
def Tables.counts (t : Tables) : List Nat := t.freq.toList.map BitVec.toNat

/-- The code table's entry of a byte value. -/
def Tables.codeAt (t : Tables) (b : Byte) : List Bool := t.codes.toList.getD b.toNat []

/-- The output cursor once `n` bytes have been emitted. -/
def Tables.emitted (n : Nat) (t : Tables) : Tables := { t with cursor := BitVec.ofNat 32 n }

/-- The part of a payload that a running decompress has not executed yet, in the unit its elements are made of
(30_encoding.md R80): bits for Huffman codes, bytes for LZ77 tokens and RLE elements. -/
inductive Feed where
  | huf (bits : List Bool)
  | lz  (bytes : List Byte)
  | rle (bytes : List Byte)
  deriving DecidableEq, Repr, Inhabited

end Sys2Proof.Machine
end

