-- ==== Sys2Proof/Config.lean ====
section
/-!
DEFINITION. The parameters of 00_scope.md R7: the fixed ones with their values, the OPEN ones as constants without a
body; and the free values of the model (00_scope.md R14), also without a body, so that no proof can rest on one.
-/

namespace Sys2Proof.Config

open Sys2Proof.Machine

/-- The size of data memory, 2^32 bytes (10_state.md R41, ADDR_W of 00_scope.md R7). -/
def memorySize : Nat := 4294967296

/-- The size in bytes of the MMIO window (10_state.md R41). -/
def windowSize : Nat := 256

/-- CAPS, hardwired: the three algorithms are present (10_state.md R24). -/
def caps : Word := 0x00000007#32

/-- LZ_MATCH_THRESHOLD: a match is emitted only if its length exceeds it (00_scope.md R7, 90_conflicts.md C2). -/
def lzMatchThreshold : Nat := 3

/-- LZ_MAX_LEN (00_scope.md R7). -/
def lzMaxLen : Nat := 255

/-- RLE_MAX_RUN (00_scope.md R7). -/
def rleMaxRun : Nat := 255

/-- RLE_MIN_RUN (00_scope.md R7). -/
def rleMinRun : Nat := 4

/-- RLE_MARKER (00_scope.md R7). -/
def rleMarker : Byte := 0xFF#8

/-- The largest PADDING value, HUF_PAD range 0..7 (00_scope.md R7). -/
def hufMaxPad : Nat := 7

/-- HUF_MAX_CODE_LEN (00_scope.md R7). -/
def hufMaxCodeLen : Nat := 255

/-- HUF_META_SIZE (00_scope.md R7, 30_encoding.md R85). -/
def hufMetaSize : Nat := 1032

/-- LZ_META_SIZE (00_scope.md R7, 30_encoding.md R86). -/
def lzMetaSize : Nat := 4

/-- RLE_META_SIZE (00_scope.md R7, 30_encoding.md R86). -/
def rleMetaSize : Nat := 4

/-- CDC_BASE, OPEN: where the MMIO window lies in the host's address space (00_scope.md R7, U13; log 6). -/
opaque cdcBase : Nat

/-- mem_ok, OPEN (00_scope.md R7, U14): the addresses the engine may access, as a list of ranges (log 5). -/
opaque memOk : List Span

/-- LZ_WINDOW_RESET, OPEN, in 0..65535 (00_scope.md R7, 10_state.md R34, U12; log 6). -/
opaque lzWindowReset : BitVec 16

/-- The free bytes of the model (00_scope.md R14, U1 to U3), one for each count (log 3). -/
opaque freeByte : Nat → Byte

/-- The internal tables at a moment when they hold any value (70_reset_and_hazards.md R233, U11; log 4). -/
opaque freeTables : Nat → Tables

end Sys2Proof.Config
end

