-- ==== Sys2Proof/Machine/State.lean ====
section
/-!
DEFINITION. The state of the codec core (10_state.md), the host events its step reads, the reasons a step can stop,
and the state after reset (70_reset_and_hazards.md R230).
-/

namespace Sys2Proof.Machine

/-- The engine's phase (10_state.md R37). -/
inductive Phase where
  | idle
  | busy
  deriving DecidableEq, Repr, Inhabited

/-- The fields of STATUS (10_state.md R26); its other bits read 0 and hold nothing. -/
structure Status where
  busy    : Bool
  doneBit : Bool
  err     : Bool
  ovr     : Bool
  errCode : BitVec 4
  deriving DecidableEq, Repr, Inhabited

/-- The parameter registers SRC_ADDR to LZ_WINDOW (10_state.md R28 to R34). A command's snapshot is a copy of them
(43_dispatch.md R183). `window` is LZ_WINDOW.WINDOW, bits 15:0; bits 31:16 read 0 and hold nothing (R34). -/
structure Params where
  srcAddr  : Word
  srcLen   : Word
  dstAddr  : Word
  dstCap   : Word
  metaAddr : Word
  metaCap  : Word
  window   : BitVec 16
  deriving DecidableEq, Repr, Inhabited

/-- What the engine latches at accept: the command word and the snapshot (10_state.md R37, 43_dispatch.md R183). -/
structure Latched where
  word : Word
  snap : Params
  deriving DecidableEq, Repr, Inhabited

/-- A decompress between two of its payload elements: what it has not executed, ORIG_LEN, and its output so far,
whose length is the output cursor (10_state.md R39; 30_encoding.md R80; log 1). -/
structure Expansion where
  feed    : Feed
  origLen : Nat
  out     : List Byte
  deriving DecidableEq, Repr, Inhabited

/-- Data memory: (address, byte) pairs at strictly rising addresses, none holding what an unlisted address reads as
(log 2). -/
abbrev Memory := List Host.Cell

/-- The width of an MMIO access; only `word` has a defined effect (43_dispatch.md R182). -/
inductive AccessWidth where
  | byte
  | half
  | word
  | burst
  deriving DecidableEq, Repr, Inhabited

/-- One thing that can happen to the core: a host transaction or poll (30_encoding.md R95), the reset input
(70_reset_and_hazards.md R230), or the engine's turn (43_dispatch.md R189). MMIO offsets count from CDC_BASE. -/
inductive Event where
  | engine
  | mmioWrite (width : AccessWidth) (offset : Nat) (value : Word)
  | mmioRead (width : AccessWidth) (offset : Nat)
  | memWrite (addr : Word) (bytes : List Byte)
  | memRead (addr : Word) (count : Nat)
  | waitIdle
  | reset
  deriving DecidableEq, Repr, Inhabited

/-- What a host read returned: a register's value, or bytes of data memory. -/
inductive Response where
  | mmio (offset : Nat) (value : Word)
  | mem (addr : Word) (bytes : List Byte)
  deriving DecidableEq, Repr, Inhabited

/-- The error kinds of 60_exceptions.md R200, the codes 1 to 5. -/
inductive CodecError where
  | unknownAlgorithm
  | malformedMetadata
  | corruptPayload
  | overflow
  | regionError
  deriving DecidableEq, Repr, Inhabited

/-- Why the machine stops. None is an error of a command: those are completions (43_dispatch.md R188). -/
inductive Fault where
  /-- Raised by a command or element meaning when nothing is latched: an idle engine executes nothing
  (60_exceptions.md R214). Safe. -/
  | engineIdle
  /-- Raised by a payload element's meaning when no decompress is executing its payload (30_encoding.md R80). Safe. -/
  | noExpansion
  /-- Raised by a host memory access past 2^32 − 1: no such byte exists (10_state.md R41). Safe. -/
  | outsideMemory
  deriving DecidableEq, Repr, Inhabited

/-- Moves a model does not give the host. -/
inductive Refusal where
  /-- An instruction without a meaning: raised by no arm of `exec` in this model. Safe. -/
  | notModelled (mnemonic : String)
  /-- Raised by the host port for a byte, halfword, burst or misaligned MMIO access (43_dispatch.md R182). Safe. -/
  | mmioForm
  /-- Raised by the host port for a host write to the regions of a command the host has not seen complete
  (70_reset_and_hazards.md R235). Safe. -/
  | regionQuiescence
  deriving DecidableEq, Repr, Inhabited

/-- The state of the core, its data memory and its host port. -/
structure State where
  /-- CTRL.IE (10_state.md R25). -/
  ctrlIE     : Bool
  status     : Status
  /-- The registers 0x10 to 0x28. -/
  params     : Params
  /-- OUT_LEN (10_state.md R35). -/
  outLen     : Word
  /-- META_LEN (10_state.md R36). -/
  metaLen    : Word
  phase      : Phase
  /-- Present only while BUSY (10_state.md R37). -/
  latched    : Option Latched
  /-- The internal tables and cursors (10_state.md R39). -/
  tables     : Tables
  /-- The decompress in progress, where its payload is executed element by element (log 1). -/
  expansion  : Option Expansion
  /-- Data memory (10_state.md R41). -/
  mem        : Memory
  /-- mem_ok: the ranges of addresses the engine may access (00_scope.md R7; log 5). -/
  memOk      : List Span
  /-- The model's own: what happens next, oldest first (log 7). -/
  pending    : List Event
  /-- The model's own: what the host's reads returned, oldest first (log 7). -/
  responses  : List Response
  /-- The model's own: snapshots of commands the host has not seen complete (log 8). -/
  unobserved : List Params
  /-- The model's own: free bytes supplied as data, used before `Config.freeByte` (log 3). -/
  draws      : List Byte
  /-- The model's own: how many free values have been taken (log 3). -/
  drawCount  : Nat
  deriving DecidableEq, Repr

/-- The state right after reset (70_reset_and_hazards.md R230): every register at its reset value, IDLE, nothing
latched. The internal tables hold any value (R233). Memory lists nothing (log 2). -/
def State.reset : State where
  ctrlIE     := false
  status     := ⟨false, false, false, false, 0#4⟩
  params     := ⟨0#32, 0#32, 0#32, 0#32, 0#32, 0#32, Config.lzWindowReset⟩
  outLen     := 0#32
  metaLen    := 0#32
  phase      := .idle
  latched    := none
  tables     := (Config.freeTables 0).fit
  expansion  := none
  mem        := []
  memOk      := Config.memOk
  pending    := []
  responses  := []
  unobserved := []
  draws      := []
  drawCount  := 1

end Sys2Proof.Machine
end

