-- ==== Sys2Proof/Machine/Flags.lean ====
section
/-!
DEFINITION. The status flags (10_state.md R26, R38): what sets and clears each, STATUS as a word, and the interrupt
output. No other rule changes a flag.
-/

namespace Sys2Proof.Machine

/-- The number of an error kind in STATUS.ERR_CODE (60_exceptions.md R200). -/
def CodecError.code : CodecError → BitVec 4
  | .unknownAlgorithm => 1#4
  | .malformedMetadata => 2#4
  | .corruptPayload => 3#4
  | .overflow => 4#4
  | .regionError => 5#4

/-- STATUS as a word: BUSY bit 0, DONE bit 1, ERR bit 2, OVR bit 3, ERR_CODE bits 11:8, 0 elsewhere (10_state.md
R26). -/
def Status.toWord (st : Status) : Word :=
  BitVec.ofNat 32
    (st.busy.toNat + 2 * st.doneBit.toNat + 4 * st.err.toNat + 8 * st.ovr.toNat + 256 * st.errCode.toNat)

/-- Command accept: BUSY set; DONE, ERR and ERR_CODE cleared; OVR unchanged (43_dispatch.md R183). -/
def Status.accepted (st : Status) : Status :=
  { busy := true, doneBit := false, err := false, ovr := st.ovr, errCode := 0#4 }

/-- Successful completion (43_dispatch.md R187). -/
def Status.completed (st : Status) : Status :=
  { busy := false, doneBit := true, err := false, ovr := st.ovr, errCode := 0#4 }

/-- Error completion (43_dispatch.md R188). -/
def Status.failed (e : CodecError) (st : Status) : Status :=
  { busy := false, doneBit := true, err := true, ovr := st.ovr, errCode := e.code }

/-- A CMD write while BUSY sets OVR (43_dispatch.md R184). -/
def Status.overrun (st : Status) : Status := { st with ovr := true }

/-- A write of `v` to STATUS clears DONE, ERR and OVR where bit 1, 2 or 3 of `v` is 1; BUSY and ERR_CODE are
unchanged (43_dispatch.md R180). -/
def Status.clear (v : Word) (st : Status) : Status :=
  { st with
    doneBit := st.doneBit && !v.getLsbD 1
    err := st.err && !v.getLsbD 2
    ovr := st.ovr && !v.getLsbD 3 }

/-- The interrupt output, `irq = CTRL.IE ∧ STATUS.DONE` (60_exceptions.md R203). -/
def State.irq (s : State) : Bool := s.ctrlIE && s.status.doneBit

end Sys2Proof.Machine
end

