-- ==== Sys2Proof/Machine/Operands.lean ====
section
/-!
DEFINITION. The operands of a command: the three regions of its snapshot and the region check (20_memory.md R54), the
u32 little-endian metadata fields (30_encoding.md R85 to R87), and byte-wise data memory (00_scope.md R12).
-/

namespace Sys2Proof.Machine

/-! ## Data memory -/

/-- What an address that memory does not list reads as: 0 (DESIGN CHOICE, log 2). -/
def Memory.blank (_ : Nat) : Byte := 0#8

/-- The canonical form of memory: addresses strictly rising and below 2^32, no entry equal to what an unlisted
address reads as. -/
abbrev Memory.wf (m : Memory) : Prop :=
  m.Pairwise (fun c d => c.1 < d.1) ∧ ∀ c ∈ m, c.2 ≠ Memory.blank c.1 ∧ c.1 < Config.memorySize

/-- The byte at an address. -/
def Memory.read : Memory → Nat → Byte
  | [], a => Memory.blank a
  | (k, v) :: rest, a => if k = a then v else Memory.read rest a

/-- List a byte at its place in the order of addresses. -/
def Memory.insert (a : Nat) (v : Byte) : Memory → Memory
  | [] => [(a, v)]
  | (k, w) :: rest =>
    if a < k then (a, v) :: (k, w) :: rest
    else if a = k then (a, v) :: rest
    else (k, w) :: Memory.insert a v rest

/-- Write one byte. Addresses past 2^32 − 1 name no byte (10_state.md R41; log 15). -/
def Memory.write (m : Memory) (a : Nat) (v : Byte) : Memory :=
  if Config.memorySize ≤ a then m
  else if v = Memory.blank a then m.filter fun c => decide (c.1 ≠ a)
  else Memory.insert a v m

/-- `MemRead(a, n)`: the bytes at a, a+1, ..., a+n−1 (00_scope.md R12). -/
def memRead (m : Memory) (a n : Nat) : List Byte := (List.range' a n).map (Memory.read m)

/-- `MemWrite(a, n, s)`: byte i of the sequence to a+i (00_scope.md R12). -/
def memWrite (m : Memory) (a : Nat) : List Byte → Memory
  | [] => m
  | b :: bs => memWrite (Memory.write m a b) (a + 1) bs

/-- Write bytes to addresses of any order. -/
def writeCells (m : Memory) (cells : List (Nat × Byte)) : Memory :=
  cells.foldl (fun m c => Memory.write m c.1 c.2) m

/-! ## Regions (43_dispatch.md R192) -/

/-- The addresses of a region, base first. -/
def Span.addrs (r : Span) : List Nat := List.range' r.base r.len

/-- An address lies in a region. -/
def Span.has (r : Span) (a : Nat) : Bool := decide (r.base ≤ a) && decide (a < r.base + r.len)

/-- Two non-empty regions share a byte (20_memory.md R54, test 3). -/
def Span.touches (r q : Span) : Bool :=
  decide (0 < r.len) && decide (0 < q.len) && decide (r.base < q.base + q.len) && decide (q.base < r.base + r.len)

/-- SRC = [SRC_ADDR, SRC_ADDR + SRC_LEN) (20_memory.md R54). -/
def Params.srcRegion (p : Params) : Span := ⟨p.srcAddr.toNat, p.srcLen.toNat⟩

/-- DST = [DST_ADDR, DST_ADDR + DST_CAP) (20_memory.md R54). -/
def Params.dstRegion (p : Params) : Span := ⟨p.dstAddr.toNat, p.dstCap.toNat⟩

/-- META = [META_ADDR, META_ADDR + META_CAP) (20_memory.md R54). -/
def Params.metaRegion (p : Params) : Span := ⟨p.metaAddr.toNat, p.metaCap.toNat⟩

/-- mem_ok(a) (00_scope.md R7): some range of the platform's list holds the address (log 5). -/
def memOkAt (ranges : List Span) (a : Nat) : Bool := ranges.any fun r => r.has a

/-- Tests 1 and 2 of the region check (20_memory.md R54): a non-empty region stays below 2^32, and every byte of it
satisfies mem_ok. -/
def Span.admitted (ranges : List Span) (r : Span) : Bool :=
  decide (r.len = 0) || (decide (r.base + r.len ≤ Config.memorySize) && r.addrs.all (memOkAt ranges))

/-- The region check (20_memory.md R54, 43_dispatch.md R186). -/
def regionOk (ranges : List Span) (p : Params) : Bool :=
  p.srcRegion.admitted ranges && p.dstRegion.admitted ranges && p.metaRegion.admitted ranges &&
    !p.srcRegion.touches p.dstRegion && !p.srcRegion.touches p.metaRegion && !p.dstRegion.touches p.metaRegion

/-- The bytes of the SRC region: the data of a compress, the payload of a decompress. -/
def srcData (p : Params) (m : Memory) : List Byte := memRead m p.srcAddr.toNat p.srcLen.toNat

/-- An address of the running command's DST or META region. -/
def Params.writes (p : Params) (a : Nat) : Bool := p.dstRegion.has a || p.metaRegion.has a

/-- An address of the command's SRC, DST or META region. -/
def Params.uses (p : Params) (a : Nat) : Bool := p.srcRegion.has a || p.writes a

/-! ## Metadata fields (30_encoding.md R85 to R87) -/

/-- `u32le(v)`: the four bytes of a value, least significant first (00_scope.md R12). -/
def u32le (v : Nat) : List Byte :=
  [BitVec.ofNat 8 v, BitVec.ofNat 8 (v / 256), BitVec.ofNat 8 (v / 65536), BitVec.ofNat 8 (v / 16777216)]

/-- `from_u32le(s)` on the first four bytes of a sequence (00_scope.md R12). -/
def fromU32le (s : List Byte) : Nat :=
  (s.getD 0 0#8).toNat + 256 * (s.getD 1 0#8).toNat + 65536 * (s.getD 2 0#8).toNat +
    16777216 * (s.getD 3 0#8).toNat

/-- The 32-bit field at a record offset (30_encoding.md R87). -/
def metaField (p : Params) (m : Memory) (offset : Nat) : Nat := fromU32le (memRead m (p.metaAddr.toNat + offset) 4)

/-- ORIG_LEN, offset 0 of both records (R85, R86). -/
def metaOrigLen (p : Params) (m : Memory) : Nat := metaField p m 0

/-- PADDING of a Huffman record (R85). -/
def metaPadding (p : Params) (m : Memory) : Nat := metaField p m 4

/-- FREQ[b] of a Huffman record, for b = 0..255 (R85). -/
def metaFreq (p : Params) (m : Memory) : List Nat := (List.range 256).map fun b => metaField p m (8 + 4 * b)

end Sys2Proof.Machine
end

