-- ==== Sys2Proof/Machine/Ops.lean ====
section
/-!
DEFINITION. The shared operations of 43_dispatch.md: free bytes, command accept (R183), successful completion (R187),
the error completion that stands in a trap's place (R188, 60_exceptions.md R206), the region check before a command's
body (R185, R186), and the shapes the compress and decompress bodies have in common.
-/

namespace Sys2Proof.Machine

/-- An outcome of one step of this machine. -/
abbrev Result := Host.Outcome State Fault Refusal

/-! ## Free bytes (00_scope.md R14; log 3) -/

/-- The k-th free byte from here on: from the supply where it reaches that far, else one nothing is known of. -/
def State.draw (s : State) (k : Nat) : Byte := (s.draws[k]?).getD (Config.freeByte (s.drawCount + k))

/-- `n` free bytes. -/
def State.freeBytes (s : State) (n : Nat) : List Byte := (List.range n).map s.draw

/-- The state once `n` free bytes have been taken. -/
def State.spend (n : Nat) (s : State) : State :=
  { s with draws := s.draws.drop n, drawCount := s.drawCount + n }

/-- The addresses of a damage set, or of any list of ranges. -/
def rangeAddrs (zs : List Span) : List Nat := zs.flatMap Span.addrs

/-- "for every byte a in Z: Mem[a] <- any" (43_dispatch.md R188): one draw for each byte. -/
def State.damage (zs : List Span) (s : State) : State :=
  { s.spend (rangeAddrs zs).length with
    mem := writeCells s.mem ((rangeAddrs zs).zip (s.freeBytes (rangeAddrs zs).length)) }

/-! ## Command accept -/

/-- Accept of command word `w` while IDLE (43_dispatch.md R183). No decompress is in progress in a new command
(10_state.md R40); the host has a duty towards its regions from here on (70_reset_and_hazards.md R235; log 8). -/
def State.accept (w : Word) (s : State) : State :=
  { s with
    latched := some ⟨w, s.params⟩
    status := s.status.accepted
    outLen := 0#32
    metaLen := 0#32
    phase := .busy
    expansion := none
    unobserved := s.unobserved ++ [s.params] }

/-! ## Completion -/

/-- The end of the BUSY state: IDLE, nothing latched; the internal tables hold any value again (10_state.md R40). -/
def State.release (s : State) : State :=
  { s with
    phase := .idle
    latched := none
    expansion := none
    tables := (Config.freeTables s.drawCount).fit
    drawCount := s.drawCount + 1 }

/-- `complete_ok(out_len = n, meta_len = q)` in one step with the command's memory writes, each a base address and
the bytes to write there (43_dispatch.md R187). -/
def State.completeOk (writes : List (Nat × List Byte)) (n q : Nat) (s : State) : State :=
  { s.release with
    mem := writes.foldl (fun m w => memWrite m w.1 w.2) s.mem
    outLen := BitVec.ofNat 32 n
    metaLen := BitVec.ofNat 32 q
    status := s.status.completed }

/-- `raise E(damage: Z)`: the error completion (00_scope.md R13, 43_dispatch.md R188). The core has no other trap
(60_exceptions.md R206): it saves ERR_CODE alone, and goes to IDLE. -/
def State.raise (e : CodecError) (zs : List Span) (s : State) : State :=
  { (s.damage zs).release with
    outLen := 0#32
    metaLen := 0#32
    status := s.status.failed e }

/-- The value the pseudo-operation `ack` writes to STATUS (30_encoding.md R96). -/
def ackWord : Word := 0x0000000E#32

/-- The host's return from a completion: it clears DONE, ERR and OVR (60_exceptions.md R207). -/
def State.acknowledge (s : State) : State := { s with status := s.status.clear ackWord }

/-! ## Running a command -/

/-- Run a meaning with the latched snapshot; an idle engine has nothing to execute (log 14). -/
def withSnapshot (s : State) (body : Params → State) : Result :=
  match s.latched with
  | none => .fault .engineIdle
  | some l => .next (body l.snap)

/-- A valid command: the region check, then the body (43_dispatch.md R185, R186). -/
def runCommand (s : State) (body : Params → State) : Result :=
  withSnapshot s fun p => if regionOk s.memOk p then body p else s.raise .regionError []

/-- The engine's work on its internal tables, which a command builds and uses (10_state.md R39, R40). -/
def State.work (t : Tables) (s : State) : State := { s with tables := t }

/-- What the three compress commands do after the region check (40_huffman.md R117, 41_lz77.md R145, 42_rle.md
R163): `size` is the record's size, `make` is the engine's work on the data and its internal tables, which gives the
payload, and `record` is the record it writes from them. -/
def compressBody (size : Nat) (make : List Byte → Tables → Tables × List Byte)
    (record : List Byte → Tables → List Byte) (s : State) (p : Params) : State :=
  if p.metaCap.toNat < size then s.raise .overflow []
  else
    let data := srcData p s.mem
    let payload := (make data s.tables).2
    let s := s.work ((make data s.tables).1.emitted payload.length)
    if p.dstCap.toNat < payload.length then s.raise .overflow [p.dstRegion, ⟨p.metaAddr.toNat, size⟩]
    else s.completeOk [(p.dstAddr.toNat, payload), (p.metaAddr.toNat, record data s.tables)] payload.length size

/-- The end of a decompress: the output at DST, or CORRUPT_PAYLOAD with damage [DST, DST + L) (40_huffman.md R121,
41_lz77.md R150, 42_rle.md R167). -/
def deliver (origLen : Nat) (out : Option (List Byte)) (s : State) (p : Params) : State :=
  match out with
  | none => s.raise .corruptPayload [⟨p.dstAddr.toNat, origLen⟩]
  | some bytes => (s.work (s.tables.emitted bytes.length)).completeOk [(p.dstAddr.toNat, bytes)] origLen 0

/-- What the three decompress commands do once ORIG_LEN is read: OVERFLOW if it exceeds DST_CAP, else `build` the
internal tables and `decode` the payload with them. -/
def decompressBody (origLen : Nat) (build : Tables → Tables) (decode : Tables → List Byte → Option (List Byte))
    (s : State) (p : Params) : State :=
  if p.dstCap.toNat < origLen then s.raise .overflow []
  else
    let s := s.work (build s.tables)
    deliver origLen (decode s.tables (srcData p s.mem)) s p

/-! ## Running a payload element -/

/-- The running decompress after an element has made its output `out`; the output cursor is its length. -/
def State.advance (x : Expansion) (out : List Byte) (s : State) : State :=
  { s with
    expansion := some { x with out := out }
    tables := s.tables.emitted out.length }

/-- A payload element of the running decompress: `effect` answers the output with the element's bytes appended, or
none where the element is CORRUPT_PAYLOAD, which ends the command (30_encoding.md R80, R93). -/
def runElement (s : State) (effect : Params → Expansion → Option (List Byte)) : Result :=
  match s.latched, s.expansion with
  | none, _ => .fault .engineIdle
  | some _, none => .fault .noExpansion
  | some l, some x =>
    match effect l.snap x with
    | none => .next (s.raise .corruptPayload [⟨l.snap.dstAddr.toNat, x.origLen⟩])
    | some out => .next (s.advance x out)

/-- The end of a payload executed element by element: the output must have exactly ORIG_LEN bytes (40_huffman.md
R119, 41_lz77.md R149, 42_rle.md R166). -/
def finishExpansion (s : State) : Result :=
  match s.latched, s.expansion with
  | none, _ => .fault .engineIdle
  | some _, none => .fault .noExpansion
  | some l, some x =>
    .next (deliver x.origLen (if x.out.length = x.origLen then some x.out else none) s l.snap)

end Sys2Proof.Machine
end

