-- ==== Sys2Proof/Machine/Command.lean ====
section
/-!
DEFINITION. Illegal command words (30_encoding.md R83, 43_dispatch.md R185).
-/

namespace Sys2Proof.Machine

/-- ILLEGAL_CMD: UNKNOWN_ALGORITHM, before the region check and without a memory access (43_dispatch.md R185,
60_exceptions.md R205). -/
def execIllegalCmd (_word : Word) (s : State) : Result := withSnapshot s fun _ => s.raise .unknownAlgorithm []

end Sys2Proof.Machine
end

