-- ==== Sys2Proof/Syntax.lean ====
section
/-!
DEFINITION. The instructions of the codec core, one constructor per row of spec/opcode_table.json (30_encoding.md
R80): the command words a host writes to CMD, and the payload elements a decompress command executes.
-/

namespace Sys2Proof

/-- One "instruction" of 30_encoding.md R80. A command word has no operand field (R81): its operands are the
snapshot registers. -/
inductive Instr where
  /-- HUF_COMPRESS, command word 0x11 (R82). -/
  | hufCompress
  /-- HUF_DECOMPRESS, command word 0x12 (R82). -/
  | hufDecompress
  /-- LZ_COMPRESS, command word 0x21 (R82). -/
  | lzCompress
  /-- LZ_DECOMPRESS, command word 0x22 (R82). -/
  | lzDecompress
  /-- RLE_COMPRESS, command word 0x31 (R82). -/
  | rleCompress
  /-- RLE_DECOMPRESS, command word 0x32 (R82). -/
  | rleDecompress
  /-- ILLEGAL_CMD: any other command word (R83). -/
  | illegalCmd (word : Word)
  /-- HUF.SYM: one Huffman code, its bits from first to last (R88, R92). -/
  | hufSym (code : List Bool)
  /-- LZ.LIT: DIST = 0, LEN = 0 (R90). -/
  | lzLit (lit : Byte)
  /-- LZ.MATCH: DIST ≥ 1, LEN > 0 (R90). -/
  | lzMatch (dist : BitVec 16) (len : Byte) (lit : Byte)
  /-- LZ.REF0: DIST > 0, LEN = 0 (R90). -/
  | lzRef0 (dist : BitVec 16) (lit : Byte)
  /-- LZ.ILLEGAL: DIST = 0, LEN > 0 (R90). -/
  | lzIllegal (len : Byte) (lit : Byte)
  /-- LZ.TRUNCATED: the 1 to 3 bytes at the end of a payload whose length is no multiple of 4 (R93). -/
  | lzTruncated (bytes : List Byte)
  /-- RLE.RUN: 0xFF, COUNT, VALUE (R91). -/
  | rleRun (count : Byte) (value : Byte)
  /-- RLE.LIT: one byte other than 0xFF (R91). -/
  | rleLit (byte : Byte)
  /-- RLE.DANGLING: 0xFF with fewer than two bytes after it, which end the payload (R91). -/
  | rleDangling (count : Option Byte)
  deriving DecidableEq, Repr, Inhabited

end Sys2Proof
end

