-- ==== Sys2Proof/WellFormed.lean ====
section
/-!
DEFINITION. Which terms of `Instr` are instructions of the opcode table: each operand in the range its row's
"match" column and 30_encoding.md R82, R83 and R88 to R92 give it.
-/

namespace Sys2Proof

/-- The six legal command words (30_encoding.md R82). -/
def legalCommandWords : List Word := [0x11#32, 0x12#32, 0x21#32, 0x22#32, 0x31#32, 0x32#32]

/-- The operand conditions of an instruction's row. -/
def Instr.wf : Instr → Bool
  | .hufCompress => true
  | .hufDecompress => true
  | .lzCompress => true
  | .lzDecompress => true
  | .rleCompress => true
  | .rleDecompress => true
  | .illegalCmd word => !legalCommandWords.contains word
  | .hufSym code => decide (1 ≤ code.length) && decide (code.length ≤ Config.hufMaxCodeLen)
  | .lzLit _ => true
  | .lzMatch dist len _ => dist != 0#16 && len != 0#8
  | .lzRef0 dist _ => dist != 0#16
  | .lzIllegal len _ => len != 0#8
  | .lzTruncated bytes => decide (1 ≤ bytes.length) && decide (bytes.length ≤ 3)
  | .rleRun _ _ => true
  | .rleLit byte => byte != Config.rleMarker
  | .rleDangling _ => true

/-- An instruction is well formed if every operand lies in its row's range. -/
abbrev WellFormed (i : Instr) : Prop := i.wf = true

end Sys2Proof
end

