-- ==== Sys2Proof/Decode.lean ====
section
/-!
DEFINITION. The decoders and the encoder of the formats of 30_encoding.md: command words, Huffman codes, LZ77 tokens
and RLE elements. A decoder of payload elements takes the rest of the payload and answers the element with what
follows it (R92). Decoding is total: a word or payload that is no legal instruction decodes to the row the opcode
table has for it (ILLEGAL_CMD, LZ.ILLEGAL, LZ.TRUNCATED, RLE.DANGLING), and a payload with nothing left is rejected
by name.
-/

namespace Sys2Proof

open Sys2Proof.Machine

/-- Why a decoder gives no instruction. -/
inductive DecodeError where
  /-- No byte or bit of the payload is left. -/
  | endOfPayload
  deriving DecidableEq, Repr

/-! ## Command words (R81 to R83) -/

/-- RSVD, bits 31:8 of a command word (R81). -/
def cmdRsvd (w : Word) : BitVec 24 := w.extractLsb' 8 24

/-- ALG, bits 7:4 of a command word (R81). -/
def cmdAlg (w : Word) : BitVec 4 := w.extractLsb' 4 4

/-- DIR, bits 3:0 of a command word (R81). -/
def cmdDir (w : Word) : BitVec 4 := w.extractLsb' 0 4

/-- A command word by its fields: legal if RSVD = 0, ALG ∈ {1, 2, 3} and DIR ∈ {1, 2} (R81), else ILLEGAL_CMD
(R83). -/
def decodeCommand (w : Word) : Instr :=
  if cmdRsvd w = 0#24 then
    if cmdAlg w = 1#4 then
      if cmdDir w = 1#4 then .hufCompress else if cmdDir w = 2#4 then .hufDecompress else .illegalCmd w
    else if cmdAlg w = 2#4 then
      if cmdDir w = 1#4 then .lzCompress else if cmdDir w = 2#4 then .lzDecompress else .illegalCmd w
    else if cmdAlg w = 3#4 then
      if cmdDir w = 1#4 then .rleCompress else if cmdDir w = 2#4 then .rleDecompress else .illegalCmd w
    else .illegalCmd w
  else .illegalCmd w

/-! ## Huffman codes (R88, R92) -/

/-- The child one bit leads to: "left edge = '0', right edge = '1'" (40_huffman.md R113). -/
def treeChild (nodes : List Node) (cur : Nat) (bit : Bool) : Option Nat :=
  match nodes[cur]? with
  | some (.node left right _) => some (if bit then right else left)
  | _ => none

/-- The byte value of a leaf (40_huffman.md R112). -/
def leafSym (nodes : List Node) (cur : Nat) : Option Byte :=
  match nodes[cur]? with
  | some (.leaf sym _) => some sym
  | _ => none

/-- The node a walk starts from. -/
def Machine.Tree.start (t : Tree) : Nat := t.root.getD 0

/-- The first code of a bit sequence and the bits after it: the walk from `cur` takes one bit at a time until it
reaches a leaf (R92). Bits that end before a leaf are all taken; they are a code that is cut short (R93; log 16). -/
def takeCode (nodes : List Node) (cur : Nat) : List Bool → List Bool × List Bool
  | [] => ([], [])
  | b :: bits =>
    match treeChild nodes cur b with
    | none => (b :: bits, [])
    | some c =>
      match leafSym nodes c with
      | some _ => ([b], bits)
      | none => (b :: (takeCode nodes c bits).1, (takeCode nodes c bits).2)

/-- The next Huffman code of a bit sequence. -/
def decodeHuf (t : Tree) (bits : List Bool) : Except DecodeError (Instr × List Bool) :=
  match bits with
  | [] => .error .endOfPayload
  | _ :: _ => .ok (.hufSym (takeCode t.nodes t.start bits).1, (takeCode t.nodes t.start bits).2)

/-! ## LZ77 tokens (R89, R90) -/

/-- DIST = 256·byte0 + byte1 (R89). -/
def tokenDist (byte0 byte1 : Byte) : BitVec 16 := byte0 ++ byte1

/-- The class of a whole token (R90). -/
def classifyToken (dist : BitVec 16) (len lit : Byte) : Instr :=
  if len = 0#8 then
    if dist = 0#16 then .lzLit lit else .lzRef0 dist lit
  else
    if dist = 0#16 then .lzIllegal len lit else .lzMatch dist len lit

/-- The next LZ77 token: always 4 bytes (R92); 1 to 3 bytes at the end are a truncated token (R93). -/
def decodeLz (payload : List Byte) : Except DecodeError (Instr × List Byte) :=
  match payload with
  | [] => .error .endOfPayload
  | byte0 :: byte1 :: len :: lit :: rest => .ok (classifyToken (tokenDist byte0 byte1) len lit, rest)
  | short => .ok (.lzTruncated short, [])

/-! ## RLE elements (R91) -/

/-- The next RLE element: 3 bytes if the first is 0xFF, else 1 (R92); a marker without two bytes after it is
dangling (R91). -/
def decodeRle (payload : List Byte) : Except DecodeError (Instr × List Byte) :=
  match payload with
  | [] => .error .endOfPayload
  | b :: rest =>
    if b = Config.rleMarker then
      match rest with
      | count :: value :: rest' => .ok (.rleRun count value, rest')
      | [count] => .ok (.rleDangling (some count), [])
      | [] => .ok (.rleDangling none, [])
    else .ok (.rleLit b, rest)

/-! ## Fetching from a payload -/

/-- The next element of a running decompress and what is left after it (43_dispatch.md R191: strictly in payload
order, each once). -/
def fetchElement (t : Tree) (feed : Feed) : Except DecodeError (Instr × Feed) :=
  match feed with
  | .huf bits => (decodeHuf t bits).map fun r => (r.1, Feed.huf r.2)
  | .lz bytes => (decodeLz bytes).map fun r => (r.1, Feed.lz r.2)
  | .rle bytes => (decodeRle bytes).map fun r => (r.1, Feed.rle r.2)

/-! ## The encoder -/

/-- An encoded instruction: a command word, the bytes of a payload element, or the bits of a Huffman code. -/
inductive Encoded where
  | command (word : Word)
  | bytes (bytes : List Byte)
  | bits (bits : List Bool)
  deriving DecidableEq, Repr

/-- The four bytes of an LZ77 token: distanceHigh, distanceLow, matchLength, literal (R89). -/
def tokenBytes (dist : BitVec 16) (len lit : Byte) : List Byte :=
  [dist.extractLsb' 8 8, dist.extractLsb' 0 8, len, lit]

/-- The words of an instruction (R82, R88, R89, R91). -/
def encode : Instr → Encoded
  | .hufCompress => .command 0x00000011#32
  | .hufDecompress => .command 0x00000012#32
  | .lzCompress => .command 0x00000021#32
  | .lzDecompress => .command 0x00000022#32
  | .rleCompress => .command 0x00000031#32
  | .rleDecompress => .command 0x00000032#32
  | .illegalCmd word => .command word
  | .hufSym code => .bits code
  | .lzLit lit => .bytes (tokenBytes 0#16 0#8 lit)
  | .lzMatch dist len lit => .bytes (tokenBytes dist len lit)
  | .lzRef0 dist lit => .bytes (tokenBytes dist 0#8 lit)
  | .lzIllegal len lit => .bytes (tokenBytes 0#16 len lit)
  | .lzTruncated bytes => .bytes bytes
  | .rleRun count value => .bytes [Config.rleMarker, count, value]
  | .rleLit byte => .bytes [byte]
  | .rleDangling none => .bytes [Config.rleMarker]
  | .rleDangling (some count) => .bytes [Config.rleMarker, count]

/-! ## The opcode table's words -/

/-- The `n` bytes of a number, most significant first: the order of an element's bytes in the opcode table, whose
rows put byte 0 of an element in their highest bits (R89, R91). -/
def tableBytes : Nat → Nat → List Byte
  | 0, _ => []
  | n + 1, w => BitVec.ofNat 8 (w / 256 ^ n) :: tableBytes n w

/-- Where an instruction of the opcode table comes from: the CMD register or a payload. -/
inductive Source where
  | command (word : Word)
  | payload (feed : Feed)
  deriving DecidableEq, Repr

/-- What an opcode-table word of `nbits` bits stands for. A 32-bit word is read as a command word where it is a
legal one and as an LZ77 token otherwise; 8, 16 or 24 bits are an RLE payload (log 12). -/
def tableSource (nbits w : Nat) : Option Source :=
  if nbits = 32 then
    if legalCommandWords.contains (BitVec.ofNat 32 w) then some (.command (BitVec.ofNat 32 w))
    else some (.payload (.lz (tableBytes 4 w)))
  else if nbits = 8 ∨ nbits = 16 ∨ nbits = 24 then some (.payload (.rle (tableBytes (nbits / 8) w)))
  else none

/-- The instruction the decoders read from an opcode-table word. -/
def decodeTableWord (nbits w : Nat) : Option Instr :=
  match tableSource nbits w with
  | none => none
  | some (.command word) => some (decodeCommand word)
  | some (.payload feed) =>
    match fetchElement ⟨[], none, 0⟩ feed with
    | .ok (i, _) => some i
    | .error _ => none

end Sys2Proof
end

