-- ==== Sys2Proof/Machine/Huffman.lean ====
section
/-!
DEFINITION. The Huffman engine (40_huffman.md): frequency table, tree construction, code table, bit packer, encoder
and decoder as the pure functions of 00_scope.md R15, and the meanings of HUF_COMPRESS, HUF_DECOMPRESS and HUF.SYM.
-/

namespace Sys2Proof.Machine

/-! ## Frequency table (R110) -/

/-- `freq(D)`: for each byte value its number of occurrences. -/
def freq (d : List Byte) : List Nat := (List.range 256).map fun b => d.count (BitVec.ofNat 8 b)

/-- `k(F)`: how many byte values are present. -/
def distinct (f : List Nat) : Nat := f.countP fun n => decide (0 < n)

/-! ## Tree construction (R112) -/

/-- The weight of a node. -/
def Node.weight : Node → Nat
  | .leaf _ w => w
  | .node _ _ w => w

/-- The weight of the node with index `i`. -/
def weightAt (nodes : List Node) (i : Nat) : Nat := ((nodes[i]?).map Node.weight).getD 0

/-- (weight, index) of `i` lies before that of `j` in lexicographic order. -/
def lighter (nodes : List Node) (i j : Nat) : Bool :=
  decide (weightAt nodes i < weightAt nodes j) || (weightAt nodes i == weightAt nodes j && decide (i < j))

/-- The index of the pool with the least (weight, index), `best` being the first one looked at. -/
def lightest (nodes : List Node) (best : Nat) : List Nat → Nat
  | [] => best
  | i :: rest => lightest nodes (if lighter nodes i best then i else best) rest

/-- The leaves, one for each byte value present, in ascending order of the value, from `b` on. -/
def leaves (b : Nat) : List Nat → List Node
  | [] => []
  | w :: rest => if 0 < w then .leaf (BitVec.ofNat 8 b) w :: leaves (b + 1) rest else leaves (b + 1) rest

/-- Extract the two lightest nodes of the pool and insert their parent, the first extracted being the left child,
until one node remains. The fuel is the number of merges still possible; k − 1 merges happen (log 17). -/
def mergeAll : Nat → List Node → List Nat → List Node × List Nat
  | 0, nodes, pool => (nodes, pool)
  | fuel + 1, nodes, pool =>
    match pool with
    | [] => (nodes, [])
    | [root] => (nodes, [root])
    | i :: j :: rest =>
      let a := lightest nodes i (j :: rest)
      match (i :: j :: rest).erase a with
      | [] => (nodes, [a])
      | i' :: rest' =>
        let c := lightest nodes i' rest'
        mergeAll fuel (nodes ++ [.node a c (weightAt nodes a + weightAt nodes c)])
          ((i' :: rest').erase c ++ [nodes.length])

/-- `build_tree(F)`. -/
def buildTree (f : List Nat) : Tree :=
  let made := mergeAll (leaves 0 f).length (leaves 0 f) (List.range (leaves 0 f).length)
  ⟨made.1, made.2.head?, (leaves 0 f).length⟩

/-! ## Code table (R113) -/

/-- The codes below node `n`, reached by the path `path`. The fuel bounds the depth; no path is longer than the
arena (log 17). -/
def codesBelow : Nat → List Node → Nat → List Bool → List (Byte × List Bool)
  | 0, _, _, _ => []
  | fuel + 1, nodes, n, path =>
    match nodes[n]? with
    | none => []
    | some (.leaf sym _) => [(sym, path)]
    | some (.node left right _) =>
      codesBelow fuel nodes left (path ++ [false]) ++ codesBelow fuel nodes right (path ++ [true])

/-- `codes(nodes, root)`. -/
def codeTable (t : Tree) : List (Byte × List Bool) := codesBelow t.nodes.length t.nodes t.start []

/-- The code of a byte value. -/
def codeOf (codes : List (Byte × List Bool)) (b : Byte) : List Bool := (codes.lookup b).getD []

/-! ## Bit packer (R115) -/

/-- Payload byte j: bit 8j+t of the sequence at bit 7−t, 0 past the end. -/
def packedByte (bits : List Bool) (j : Nat) : Byte :=
  BitVec.ofNat 8 (((List.range 8).map fun t => (bits.getD (8 * j + t) false).toNat * 2 ^ (7 - t)).sum)

/-- `pack(bits)`: the payload and the number of pad bits. -/
def pack (bits : List Bool) : List Byte × Nat :=
  ((List.range ((bits.length + 7) / 8)).map (packedByte bits), 8 * ((bits.length + 7) / 8) - bits.length)

/-! ## Encoder (R116) -/

/-- What `huf_compress` returns. -/
structure HufEncoded where
  payload : List Byte
  pad     : Nat
  freq    : List Nat
  deriving DecidableEq, Repr

/-- The encoder with a frequency table, a tree and a code for each byte value. -/
def hufEncode (f : List Nat) (t : Tree) (code : Byte → List Bool) (d : List Byte) : HufEncoded :=
  if t.k ≤ 1 then ⟨[], 0, f⟩
  else
    let packed := pack (d.flatMap code)
    ⟨packed.1, packed.2, f⟩

/-- `huf_compress(D)`. -/
def hufCompress (d : List Byte) : HufEncoded :=
  hufEncode (freq d) (buildTree (freq d)) (codeOf (codeTable (buildTree (freq d)))) d

/-- The Huffman record of R85: ORIG_LEN, PADDING, FREQ[0..255], each u32le. -/
def hufRecord (origLen : Nat) (e : HufEncoded) : List Byte :=
  u32le origLen ++ u32le e.pad ++ e.freq.flatMap u32le

/-! ## Decoder (R118 to R120) -/

/-- Bits 7 down to 0 of a byte, the order of the payload (30_encoding.md R88). -/
def byteBits (b : Byte) : List Bool := (List.range 8).map fun t => b.getLsbD (7 - t)

/-- The nb = 8·len(P) − PADDING meaningful bits of a payload (30_encoding.md R88); the pad bits are dropped without
inspection. -/
def payloadBits (payload : List Byte) (pad : Nat) : List Bool :=
  (payload.flatMap byteBits).take (8 * payload.length - pad)

/-- A leaf reached with `out` emitted: more symbols than ORIG_LEN is CORRUPT_PAYLOAD (R119). -/
def hufEmit (origLen : Nat) (out : List Byte) (sym : Byte) : Option (List Byte) :=
  if out.length = origLen then none else some (out ++ [sym])

/-- `huf_walk` from node `cur` with `out` emitted (R119). -/
def hufWalk (nodes : List Node) (root origLen : Nat) : Nat → List Byte → List Bool → Option (List Byte)
  | cur, out, [] => if cur = root ∧ out.length = origLen then some out else none
  | cur, out, bit :: bits =>
    match treeChild nodes cur bit with
    | none => none
    | some c =>
      match leafSym nodes c with
      | none => hufWalk nodes root origLen c out bits
      | some sym =>
        match hufEmit origLen out sym with
        | none => none
        | some out' => hufWalk nodes root origLen root out' bits

/-- The decoder with a tree. -/
def hufDecode (t : Tree) (origLen pad : Nat) (payload : List Byte) : Option (List Byte) :=
  if t.k = 0 then some []
  else if t.k = 1 then (leafSym t.nodes 0).map (List.replicate origLen)
  else hufWalk t.nodes t.start origLen t.start [] (payloadBits payload pad)

/-- `huf_decompress(P, L, pad, F)` (R120); none is CORRUPT_PAYLOAD. -/
def hufDecompress (origLen pad : Nat) (f : List Nat) (payload : List Byte) : Option (List Byte) :=
  hufDecode (buildTree f) origLen pad payload

/-- `huf_meta_check` (R118): the record's checks in order; false is MALFORMED_METADATA. -/
def hufMetaOk (p : Params) (m : Memory) : Bool :=
  decide (Config.hufMetaSize ≤ p.metaCap.toNat) && decide (metaPadding p m ≤ Config.hufMaxPad) &&
    decide ((metaFreq p m).sum = metaOrigLen p m) &&
    !(decide (2 ≤ distinct (metaFreq p m)) && decide (8 * p.srcLen.toNat < metaPadding p m))

/-! ## The engine's tables (10_state.md R39) -/

/-- A table of 256 entries, one for each byte value. -/
def byteTable {α : Type} (entry : Nat → α) : Vector α 256 := ⟨((List.range 256).map entry).toArray, by simp⟩

/-- The frequency table and the node arena built from counts (R112). -/
def Tables.buildTree (f : List Nat) (t : Tables) : Tables :=
  { t with
    freq := byteTable fun b => BitVec.ofNat 32 (f.getD b 0)
    tree := Machine.buildTree f }

/-- The code table read off the node arena, for k ≥ 2 (R113). -/
def Tables.buildCodes (t : Tables) : Tables :=
  if t.tree.k ≤ 1 then t
  else { t with codes := byteTable fun b => codeOf (codeTable t.tree) (BitVec.ofNat 8 b) }

/-- The encoder with the engine's tables. -/
def Tables.hufMade (d : List Byte) (t : Tables) : HufEncoded := hufEncode t.counts t.tree t.codeAt d

/-- The Huffman encoder at work: it counts, builds the tree and the code table, and packs (R116). -/
def hufMake (d : List Byte) (t : Tables) : Tables × List Byte :=
  let t := (t.buildTree (freq d)).buildCodes
  (t, (t.hufMade d).payload)

/-! ## Meanings -/

/-- HUF_COMPRESS (R117). -/
def execHufCompress (s : State) : Result :=
  runCommand s fun p =>
    compressBody Config.hufMetaSize hufMake (fun d t => hufRecord p.srcLen.toNat (t.hufMade d)) s p

/-- HUF_DECOMPRESS (R121). -/
def execHufDecompress (s : State) : Result :=
  runCommand s fun p =>
    if hufMetaOk p s.mem then
      decompressBody (metaOrigLen p s.mem) (Tables.buildTree (metaFreq p s.mem))
        (fun t => hufDecode t.tree (metaOrigLen p s.mem) (metaPadding p s.mem)) s p
    else s.raise .malformedMetadata []

/-- The byte value a whole code selects: the walk from `cur` reaches a leaf with its last bit and not before (R92). -/
def codeSym (nodes : List Node) (cur : Nat) : List Bool → Option Byte
  | [] => none
  | bit :: bits =>
    match treeChild nodes cur bit with
    | none => none
    | some c =>
      match leafSym nodes c, bits with
      | some sym, [] => some sym
      | some _, _ :: _ => none
      | none, bits => codeSym nodes c bits

/-- HUF.SYM (R119): append the byte its code selects; CORRUPT_PAYLOAD if ORIG_LEN symbols were already emitted or the
bits end inside a code. -/
def execHufSym (code : List Bool) (s : State) : Result :=
  runElement s fun _ x =>
    match codeSym s.tables.tree.nodes s.tables.tree.start code with
    | none => none
    | some sym => hufEmit x.origLen x.out sym

end Sys2Proof.Machine
end

