-- ==== Sys2Proof/Machine/Lz77.lean ====
section
/-!
DEFINITION. The LZ77 engine (41_lz77.md): window search, token generation and token expansion as the pure functions
of 00_scope.md R15, and the meanings of LZ_COMPRESS, LZ_DECOMPRESS and the five token rows.
-/

namespace Sys2Proof.Machine

/-! ## Window search and token generation -/

/-- How many bytes from the start of two sequences agree, counting at most `fuel` (R141). -/
def agreeing : Nat → List Byte → List Byte → Nat
  | 0, _, _ => 0
  | fuel + 1, a :: as, b :: bs => if a = b then agreeing fuel as bs + 1 else 0
  | _ + 1, _, _ => 0

/-- maxlen = min(255, len(D) − pos − 1): a literal is always left after the match (R141). -/
def lzMaxMatch (d : List Byte) (pos : Nat) : Nat := min Config.lzMaxLen (d.length - pos - 1)

/-- The match length at distance `dist` (R141); the source may run past `pos`. -/
def matchLength (d : List Byte) (pos dist : Nat) : Nat :=
  agreeing (lzMaxMatch d pos) (d.drop (pos - dist)) (d.drop pos)

/-- Try `n` candidate distances from `dist` on; a candidate replaces the best (length, distance) so far only if it is
strictly longer (R141). -/
def searchFrom (d : List Byte) (pos : Nat) : Nat → Nat → Nat × Nat → Nat × Nat
  | 0, _, best => best
  | n + 1, dist, best =>
    searchFrom d pos n (dist + 1) (if best.1 < matchLength d pos dist then (matchLength d pos dist, dist) else best)

/-- `best_match(D, pos, W)`: the longest match's length and distance, the nearest among equals (R141). -/
def bestMatch (d : List Byte) (pos window : Nat) : Nat × Nat := searchFrom d pos (min window pos) 1 (0, 0)

/-- `lz_step(D, pos, W)`: the token at `pos` and the position after it (R142). -/
def lzStep (d : List Byte) (pos window : Nat) : List Byte × Nat :=
  let best := bestMatch d pos window
  if Config.lzMatchThreshold < best.1 then
    ([BitVec.ofNat 8 (best.2 / 256), BitVec.ofNat 8 best.2, BitVec.ofNat 8 best.1, d.getD (pos + best.1) 0#8],
      pos + best.1 + 1)
  else ([0x00#8, 0x00#8, 0x00#8, d.getD pos 0#8], pos + 1)

/-- The tokens from `pos` on. The fuel is the number of bytes left; every token covers at least one (R143). -/
def lzTokensFrom (d : List Byte) (window : Nat) : Nat → Nat → List Byte
  | 0, _ => []
  | fuel + 1, pos =>
    if pos < d.length then (lzStep d pos window).1 ++ lzTokensFrom d window fuel (lzStep d pos window).2 else []

/-- `lz_compress(D, W)` (R143). -/
def lzCompress (window : Nat) (d : List Byte) : List Byte := lzTokensFrom d window d.length 0

/-! ## The engine's search state (10_state.md R39) -/

/-- Try the next `n` candidate distances: each in turn becomes the candidate, and the best if its match is strictly
longer (R141). -/
def Search.probe (d : List Byte) : Nat → Search → Search
  | 0, s => s
  | n + 1, s =>
    let cand := s.cand + 1#16
    let len := matchLength d s.pos.toNat cand.toNat
    Search.probe d n
      (if s.bestLen.toNat < len then { s with cand := cand, bestLen := BitVec.ofNat 8 len, bestDist := cand }
        else { s with cand := cand })

/-- The search at the input position: from no candidate and no match through all distances (R141). -/
def Search.run (d : List Byte) (window : Nat) (s : Search) : Search :=
  Search.probe d (min window s.pos.toNat) { s with cand := 0#16, bestLen := 0#8, bestDist := 0#16 }

/-- The token of a finished search (R142). -/
def Search.token (d : List Byte) (s : Search) : List Byte :=
  if Config.lzMatchThreshold < s.bestLen.toNat then
    [s.bestDist.extractLsb' 8 8, s.bestDist.extractLsb' 0 8, s.bestLen, d.getD (s.pos.toNat + s.bestLen.toNat) 0#8]
  else [0x00#8, 0x00#8, 0x00#8, d.getD s.pos.toNat 0#8]

/-- The input position moves past the match and its literal, or past one byte (R142). -/
def Search.move (s : Search) : Search :=
  { s with
    pos := if Config.lzMatchThreshold < s.bestLen.toNat then s.pos + s.bestLen.setWidth 32 + 1#32 else s.pos + 1#32 }

/-- The tokens the engine emits from its input position on, and its search state after them. The fuel is the number of
bytes left (R143). -/
def Search.tokens (d : List Byte) (window : Nat) : Nat → Search → Search × List Byte
  | 0, s => (s, [])
  | fuel + 1, s =>
    if s.pos.toNat < d.length then
      let found := s.run d window
      let rest := Search.tokens d window fuel found.move
      (rest.1, found.token d ++ rest.2)
    else (s, [])

/-- The LZ77 encoder at work, from input position 0 (R143). -/
def lzMake (window : Nat) (d : List Byte) (t : Tables) : Tables × List Byte :=
  let made := Search.tokens d window d.length { t.search with pos := 0#32 }
  ({ t with search := made.1 }, made.2)

/-! ## Token expansion -/

/-- `lz_lit(out, tok)`: the literal is always appended, 0x00 too (R146). -/
def lzLit (out : List Byte) (lit : Byte) : List Byte := out ++ [lit]

/-- `len` times append the byte `dist` back, one at a time, so an overlapping copy repeats (R147). -/
def lzCopy (dist : Nat) : Nat → List Byte → List Byte
  | 0, out => out
  | n + 1, out => lzCopy dist n (out ++ [out.getD (out.length - dist) 0#8])

/-- `lz_match(out, d, l, lit)` (R147). -/
def lzMatch (out : List Byte) (dist len : Nat) (lit : Byte) : List Byte := lzCopy dist len out ++ [lit]

/-- A token raises CORRUPT_PAYLOAD, checked before it appends anything (R148). -/
def lzCorrupt (window origLen cursor dist len : Nat) : Bool :=
  (decide (0 < len) && decide (dist = 0)) || decide (cursor < dist) || decide (window < dist) ||
    decide (origLen < cursor + len + 1)

/-- One token with its fields: checked, then expanded (R148, R149); none is CORRUPT_PAYLOAD. -/
def lzExpand (window origLen : Nat) (out : List Byte) (dist len : Nat) (lit : Byte) : Option (List Byte) :=
  if lzCorrupt window origLen out.length dist len then none
  else if len = 0 then some (lzLit out lit)
  else some (lzMatch out dist len lit)

/-- The whole tokens of a payload in order, with `out` emitted (R149). -/
def lzExpandAll (window origLen : Nat) : List Byte → List Byte → Option (List Byte)
  | out, byte0 :: byte1 :: len :: lit :: rest =>
    match lzExpand window origLen out (256 * byte0.toNat + byte1.toNat) len.toNat lit with
    | none => none
    | some out' => lzExpandAll window origLen out' rest
  | out, _ => some out

/-- `lz_decompress(P, W, L)` (R149); none is CORRUPT_PAYLOAD. -/
def lzDecompress (window origLen : Nat) (payload : List Byte) : Option (List Byte) :=
  if payload.length % 4 ≠ 0 then none
  else
    match lzExpandAll window origLen [] payload with
    | none => none
    | some out => if out.length = origLen then some out else none

/-! ## Meanings -/

/-- LZ_COMPRESS (R145). -/
def execLzCompress (s : State) : Result :=
  runCommand s fun p =>
    compressBody Config.lzMetaSize (lzMake p.window.toNat) (fun _ _ => u32le p.srcLen.toNat) s p

/-- LZ_DECOMPRESS (R150). -/
def execLzDecompress (s : State) : Result :=
  runCommand s fun p =>
    if p.metaCap.toNat < Config.lzMetaSize then s.raise .malformedMetadata []
    else decompressBody (metaOrigLen p s.mem) id (fun _ => lzDecompress p.window.toNat (metaOrigLen p s.mem)) s p

/-- LZ.LIT (R146): append LIT. -/
def execLzLit (lit : Byte) (s : State) : Result :=
  runElement s fun p x => lzExpand p.window.toNat x.origLen x.out 0 0 lit

/-- LZ.MATCH (R147): copy LEN bytes from DIST back, then append LIT. -/
def execLzMatch (dist : BitVec 16) (len lit : Byte) (s : State) : Result :=
  runElement s fun p x => lzExpand p.window.toNat x.origLen x.out dist.toNat len.toNat lit

/-- LZ.REF0 (R148): the distance checks, then append LIT. -/
def execLzRef0 (dist : BitVec 16) (lit : Byte) (s : State) : Result :=
  runElement s fun p x => lzExpand p.window.toNat x.origLen x.out dist.toNat 0 lit

/-- LZ.ILLEGAL (R90, R148): CORRUPT_PAYLOAD. -/
def execLzIllegal (len lit : Byte) (s : State) : Result :=
  runElement s fun p x => lzExpand p.window.toNat x.origLen x.out 0 len.toNat lit

/-- LZ.TRUNCATED (R149): CORRUPT_PAYLOAD. -/
def execLzTruncated (_bytes : List Byte) (s : State) : Result := runElement s fun _ _ => none

end Sys2Proof.Machine
end

