-- ==== Sys2Proof/Machine/Rle.lean ====
section
/-!
DEFINITION. The RLE engine (42_rle.md): encoder and decoder as the pure functions of 00_scope.md R15, and the
meanings of RLE_COMPRESS, RLE_DECOMPRESS and the three element rows.
-/

namespace Sys2Proof.Machine

/-! ## Encoder -/

/-- How many of the bytes of a sequence, up to `room`, repeat `v` from its start. -/
def repeats (v : Byte) : Nat → List Byte → Nat
  | 0, _ => 0
  | _ + 1, [] => 0
  | room + 1, b :: rest => if b = v then repeats v room rest + 1 else 0

/-- `run_at`: the length of the run a non-empty sequence `v :: rest` starts with, at most 255 (R160). -/
def runAt (v : Byte) (rest : List Byte) : Nat := repeats v (Config.rleMaxRun - 1) rest + 1

/-- `rle_emit(c, v)` (R161). -/
def rleEmit (c : Nat) (v : Byte) : List Byte :=
  if Config.rleMinRun ≤ c then [Config.rleMarker, BitVec.ofNat 8 c, v]
  else if v = Config.rleMarker then (List.replicate c [Config.rleMarker, 0x01#8, Config.rleMarker]).flatten
  else List.replicate c v

/-- The elements of a sequence, a run at a time. The fuel is the number of bytes left; every run has at least one
(R162). -/
def rleElements : Nat → List Byte → List Byte
  | 0, _ => []
  | _ + 1, [] => []
  | fuel + 1, v :: rest => rleEmit (runAt v rest) v ++ rleElements fuel (rest.drop (runAt v rest - 1))

/-- `rle_compress(D)` (R162). -/
def rleCompress (d : List Byte) : List Byte := rleElements d.length d

/-! ## The engine's run counter (10_state.md R39) -/

/-- The elements the engine emits for a sequence: it counts a run in the run counter and encodes it, run after run
(R160 to R162). -/
def rleRuns : Nat → List Byte → Byte → Byte × List Byte
  | 0, _, run => (run, [])
  | _ + 1, [], run => (run, [])
  | fuel + 1, v :: rest, _ =>
    let run := BitVec.ofNat 8 (runAt v rest)
    let more := rleRuns fuel (rest.drop (run.toNat - 1)) run
    (more.1, rleEmit run.toNat v ++ more.2)

/-- The RLE encoder at work. -/
def rleMake (d : List Byte) (t : Tables) : Tables × List Byte :=
  let made := rleRuns d.length d t.run
  ({ t with run := made.1 }, made.2)

/-! ## Decoder -/

/-- Append `c` copies of `v`; an output longer than ORIG_LEN is CORRUPT_PAYLOAD before anything is appended (R164,
R165). -/
def rleExpand (origLen : Nat) (out : List Byte) (c : Nat) (v : Byte) : Option (List Byte) :=
  if origLen < out.length + c then none else some (out ++ List.replicate c v)

/-- The elements of a payload in order, with `out` emitted (R166). The fuel is the number of bytes left. -/
def rleExpandAll (origLen : Nat) : Nat → List Byte → List Byte → Option (List Byte)
  | 0, out, _ => some out
  | _ + 1, out, [] => some out
  | fuel + 1, out, b :: rest =>
    if b = Config.rleMarker then
      match rest with
      | c :: v :: rest' =>
        match rleExpand origLen out c.toNat v with
        | none => none
        | some out' => rleExpandAll origLen fuel out' rest'
      | _ => none
    else
      match rleExpand origLen out 1 b with
      | none => none
      | some out' => rleExpandAll origLen fuel out' rest

/-- `rle_decompress(P, L)` (R166); none is CORRUPT_PAYLOAD. -/
def rleDecompress (origLen : Nat) (payload : List Byte) : Option (List Byte) :=
  match rleExpandAll origLen payload.length [] payload with
  | none => none
  | some out => if out.length = origLen then some out else none

/-! ## Meanings -/

/-- RLE_COMPRESS (R163). -/
def execRleCompress (s : State) : Result :=
  runCommand s fun p => compressBody Config.rleMetaSize rleMake (fun _ _ => u32le p.srcLen.toNat) s p

/-- RLE_DECOMPRESS (R167). -/
def execRleDecompress (s : State) : Result :=
  runCommand s fun p =>
    if p.metaCap.toNat < Config.rleMetaSize then s.raise .malformedMetadata []
    else decompressBody (metaOrigLen p s.mem) id (fun _ => rleDecompress (metaOrigLen p s.mem)) s p

/-- RLE.RUN (R165): append COUNT copies of VALUE. -/
def execRleRun (count value : Byte) (s : State) : Result :=
  runElement s fun _ x => rleExpand x.origLen x.out count.toNat value

/-- RLE.LIT (R164): append the byte. -/
def execRleLit (byte : Byte) (s : State) : Result :=
  runElement s fun _ x => rleExpand x.origLen x.out 1 byte

/-- RLE.DANGLING (R165): CORRUPT_PAYLOAD. -/
def execRleDangling (_count : Option Byte) (s : State) : Result := runElement s fun _ _ => none

end Sys2Proof.Machine
end

