-- ==== Sys2Proof/Machine/Dispatch.lean ====
section
/-! DEFINITION. One arm per constructor of Instr (43_dispatch.md R185; 30_encoding.md R80). -/

namespace Sys2Proof.Machine

def exec (i : Instr) (s : State) : Host.Outcome State Fault Refusal :=
  match i with
  | .hufCompress => Sys2Proof.Machine.execHufCompress s
  | .hufDecompress => Sys2Proof.Machine.execHufDecompress s
  | .lzCompress => Sys2Proof.Machine.execLzCompress s
  | .lzDecompress => Sys2Proof.Machine.execLzDecompress s
  | .rleCompress => Sys2Proof.Machine.execRleCompress s
  | .rleDecompress => Sys2Proof.Machine.execRleDecompress s
  | .illegalCmd word => Sys2Proof.Machine.execIllegalCmd word s
  | .hufSym code => Sys2Proof.Machine.execHufSym code s
  | .lzLit lit => Sys2Proof.Machine.execLzLit lit s
  | .lzMatch dist len lit => Sys2Proof.Machine.execLzMatch dist len lit s
  | .lzRef0 dist lit => Sys2Proof.Machine.execLzRef0 dist lit s
  | .lzIllegal len lit => Sys2Proof.Machine.execLzIllegal len lit s
  | .lzTruncated bytes => Sys2Proof.Machine.execLzTruncated bytes s
  | .rleRun count value => Sys2Proof.Machine.execRleRun count value s
  | .rleLit byte => Sys2Proof.Machine.execRleLit byte s
  | .rleDangling count => Sys2Proof.Machine.execRleDangling count s

end Sys2Proof.Machine
end

