-- ==== Sys2Proof/Machine/Engine.lean ====
section
/-!
DEFINITION. The engine's turn (43_dispatch.md R185, R189): what it fetches and that it executes it; and how an
opcode-table word is put where the engine fetches.
-/

namespace Sys2Proof.Machine

/-- The running decompress with its next element taken off its payload. -/
def State.consume (x : Expansion) (rest : Feed) (s : State) : State :=
  { s with expansion := some { x with feed := rest } }

/-- One turn of the engine. IDLE: it waits (60_exceptions.md R214). BUSY: it decodes the latched word and executes
the command, which completes it (43_dispatch.md R185, R189). Where a decompress is being executed element by element
(log 1), it decodes and executes the next element instead, or ends the command when none is left. -/
def engineTurn (s : State) : Result :=
  match s.phase with
  | .idle => .next s
  | .busy =>
    match s.expansion with
    | some x =>
      match fetchElement s.tables.tree x.feed with
      | .ok (i, rest) => exec i (s.consume x rest)
      | .error _ => finishExpansion s
    | none =>
      match s.latched with
      | none => .fault .engineIdle
      | some l => exec (decodeCommand l.word) s

/-! ## A decompress up to its first element -/

/-- Put a decompress where its payload is executed element by element (log 1); the output cursor is the number of
bytes emitted so far (10_state.md R39). -/
def State.expand (x : Expansion) (s : State) : State :=
  { s with
    expansion := some x
    tables := s.tables.emitted x.out.length }

/-- LZ_DECOMPRESS up to its first token: the checks of 41_lz77.md R150, then the payload is read. -/
def openLz (s : State) : Result :=
  runCommand s fun p =>
    if p.metaCap.toNat < Config.lzMetaSize then s.raise .malformedMetadata []
    else if p.dstCap.toNat < metaOrigLen p s.mem then s.raise .overflow []
    else s.expand ⟨.lz (srcData p s.mem), metaOrigLen p s.mem, []⟩

/-- RLE_DECOMPRESS up to its first element: the checks of 42_rle.md R167, then the payload is read. -/
def openRle (s : State) : Result :=
  runCommand s fun p =>
    if p.metaCap.toNat < Config.rleMetaSize then s.raise .malformedMetadata []
    else if p.dstCap.toNat < metaOrigLen p s.mem then s.raise .overflow []
    else s.expand ⟨.rle (srcData p s.mem), metaOrigLen p s.mem, []⟩

/-- HUF_DECOMPRESS up to its first code: the checks of 40_huffman.md R118 and R121, then the tree is built (R112) and
the payload is read; with fewer than two byte values no code is walked (R120). -/
def openHuf (s : State) : Result :=
  runCommand s fun p =>
    if hufMetaOk p s.mem then
      if p.dstCap.toNat < metaOrigLen p s.mem then s.raise .overflow []
      else
        let tree := buildTree (metaFreq p s.mem)
        let s := s.work (s.tables.buildTree (metaFreq p s.mem))
        if tree.k ≤ 1 then
          s.expand ⟨.huf [], metaOrigLen p s.mem,
            (((leafSym tree.nodes 0).map (List.replicate (metaOrigLen p s.mem))).getD [])⟩
        else s.expand ⟨.huf (payloadBits (srcData p s.mem) (metaPadding p s.mem)), metaOrigLen p s.mem, []⟩
    else s.raise .malformedMetadata []

/-! ## Placing one instruction of the opcode table (log 13) -/

/-- How many bytes an instruction appends to the output. -/
def elementSize : Instr → Nat
  | .hufSym _ => 1
  | .lzLit _ => 1
  | .lzMatch _ len _ => len.toNat + 1
  | .lzRef0 _ _ => 1
  | .rleRun count _ => count.toNat
  | .rleLit _ => 1
  | .lzIllegal _ _ => 0
  | .lzTruncated _ => 0
  | .rleDangling _ => 0
  | .hufCompress => 0
  | .hufDecompress => 0
  | .lzCompress => 0
  | .lzDecompress => 0
  | .rleCompress => 0
  | .rleDecompress => 0
  | .illegalCmd _ => 0

/-- The decompress command that executes a payload, and the payload's length in bytes. -/
def feedCommand : Feed → Word × Nat
  | .huf bits => (0x00000012#32, (bits.length + 7) / 8)
  | .lz bytes => (0x00000022#32, bytes.length)
  | .rle bytes => (0x00000032#32, bytes.length)

/-- Accept the decompress command of a payload and stand it before its first element. ORIG_LEN and DST_CAP are
`size`, SRC_LEN is the payload's length; the other operands are the registers, which keep their values. DESIGN CHOICE
(log 13): the snapshot so made, not the registers, is the one whose regions the host may not write; and the region check
(20_memory.md R54) and the checks of the record are not made, so that the element, and the end of its decompress, run
whatever the registers are. No step of the machine places an element so. -/
def State.loadFeed (feed : Feed) (size : Nat) (s : State) : State :=
  let snap := { s.params with srcLen := BitVec.ofNat 32 (feedCommand feed).2, dstCap := BitVec.ofNat 32 size }
  { (({ s with params := snap }).accept (feedCommand feed).1).expand ⟨feed, size, []⟩ with params := s.params }

/-- Put an instruction where the engine fetches: a command word is accepted, a payload element becomes the payload of
a decompress (log 13). -/
def State.loadSource (src : Source) (size : Nat) (s : State) : State :=
  match src with
  | .command w => s.accept w
  | .payload feed => s.loadFeed feed size

/-- An opcode-table word where the engine fetches it, the engine's turn being next (log 13). -/
def State.loadTableWord (nbits w : Nat) (s : State) : State :=
  match tableSource nbits w with
  | none => s
  | some src =>
    { s.loadSource src ((decodeTableWord nbits w).elim 0 elementSize) with pending := .engine :: s.pending }

end Sys2Proof.Machine
end

