-- ==== Sys2Proof/Machine/Mmio.lean ====
section
/-!
DEFINITION. The MMIO register window (10_state.md R23): which register an offset names, and aligned 32-bit reads and
writes (43_dispatch.md R180, R181, R183, R184).
-/

namespace Sys2Proof.Machine

/-- The thirteen registers (10_state.md R23). -/
inductive Reg where
  | caps
  | ctrl
  | status
  | cmd
  | srcAddr
  | srcLen
  | dstAddr
  | dstCap
  | metaAddr
  | metaCap
  | lzWindow
  | outLen
  | metaLen
  deriving DecidableEq, Repr

/-- A register's byte offset from CDC_BASE (10_state.md R23). -/
def regOffset : Reg → Nat
  | .caps => 0x00
  | .ctrl => 0x04
  | .status => 0x08
  | .cmd => 0x0C
  | .srcAddr => 0x10
  | .srcLen => 0x14
  | .dstAddr => 0x18
  | .dstCap => 0x1C
  | .metaAddr => 0x20
  | .metaCap => 0x24
  | .lzWindow => 0x28
  | .outLen => 0x2C
  | .metaLen => 0x30

/-- A register's address in the host's address space (30_encoding.md R95). -/
def regAddress (r : Reg) : Nat := Config.cdcBase + regOffset r

/-- The register at an offset; 0x34 to 0xFC are unmapped (10_state.md R23). -/
def regAt (offset : Nat) : Option Reg :=
  if offset = 0x00 then some .caps
  else if offset = 0x04 then some .ctrl
  else if offset = 0x08 then some .status
  else if offset = 0x0C then some .cmd
  else if offset = 0x10 then some .srcAddr
  else if offset = 0x14 then some .srcLen
  else if offset = 0x18 then some .dstAddr
  else if offset = 0x1C then some .dstCap
  else if offset = 0x20 then some .metaAddr
  else if offset = 0x24 then some .metaCap
  else if offset = 0x28 then some .lzWindow
  else if offset = 0x2C then some .outLen
  else if offset = 0x30 then some .metaLen
  else none

/-- A register's current value, reserved bits 0; CMD reads 0 (43_dispatch.md R181, 10_state.md R24 to R36). -/
def readReg (r : Reg) (s : State) : Word :=
  match r with
  | .caps => Config.caps
  | .ctrl => BitVec.ofNat 32 s.ctrlIE.toNat
  | .status => s.status.toWord
  | .cmd => 0#32
  | .srcAddr => s.params.srcAddr
  | .srcLen => s.params.srcLen
  | .dstAddr => s.params.dstAddr
  | .dstCap => s.params.dstCap
  | .metaAddr => s.params.metaAddr
  | .metaCap => s.params.metaCap
  | .lzWindow => s.params.window.setWidth 32
  | .outLen => s.outLen
  | .metaLen => s.metaLen

/-- A CMD write: accepted while IDLE (43_dispatch.md R183), dropped with OVR set while BUSY (R184). -/
def writeCmd (w : Word) (s : State) : State :=
  match s.phase with
  | .idle => s.accept w
  | .busy => { s with status := s.status.overrun }

/-- The effect of writing `v` to a register (43_dispatch.md R180). The parameter registers change at once, whether
BUSY or not; a running command has its snapshot (70_reset_and_hazards.md R237). -/
def writeReg (r : Reg) (v : Word) (s : State) : State :=
  match r with
  | .caps => s
  | .ctrl => { s with ctrlIE := v.getLsbD 0 }
  | .status => { s with status := s.status.clear v }
  | .cmd => writeCmd v s
  | .srcAddr => { s with params := { s.params with srcAddr := v } }
  | .srcLen => { s with params := { s.params with srcLen := v } }
  | .dstAddr => { s with params := { s.params with dstAddr := v } }
  | .dstCap => { s with params := { s.params with dstCap := v } }
  | .metaAddr => { s with params := { s.params with metaAddr := v } }
  | .metaCap => { s with params := { s.params with metaCap := v } }
  | .lzWindow => { s with params := { s.params with window := v.setWidth 16 } }
  | .outLen => s
  | .metaLen => s

/-- MMIO read of an offset in the window; an unmapped offset reads 0 (43_dispatch.md R181). -/
def mmioRead (offset : Nat) (s : State) : Word :=
  match regAt offset with
  | none => 0#32
  | some r => readReg r s

/-- MMIO write to an offset in the window; an unmapped offset ignores it (43_dispatch.md R180). -/
def mmioWrite (offset : Nat) (v : Word) (s : State) : State :=
  match regAt offset with
  | none => s
  | some r => writeReg r v s

/-- The three algorithms, in the stable order of the registry (10_state.md R24). -/
inductive Algorithm where
  | huffman
  | lz77
  | rle
  deriving DecidableEq, Repr

/-- `listAll()`: the algorithms whose CAPS bits are set, from bit 0 upward (10_state.md R24, 43_dispatch.md R190). -/
def listAll (caps : Word) : List Algorithm :=
  (if caps.getLsbD 0 then [.huffman] else []) ++ (if caps.getLsbD 1 then [.lz77] else []) ++
    (if caps.getLsbD 2 then [.rle] else [])

end Sys2Proof.Machine
end

