-- ==== Sys2Proof/Machine/HostPort.lean ====
section
/-!
DEFINITION. The host port: MMIO accesses by form (43_dispatch.md R182), the host's data-memory accesses with its duty
(70_reset_and_hazards.md R235, R236), the reset input (R230 to R233), and the host notation (30_encoding.md R95, R96).
-/

namespace Sys2Proof.Machine

/-! ## MMIO accesses -/

/-- An access reaches the core only inside its 256-byte window (43_dispatch.md R182). -/
def inWindow (offset : Nat) : Bool := decide (offset < Config.windowSize)

/-- The one defined access form: 32-bit and aligned (43_dispatch.md R182). -/
def definedForm (width : AccessWidth) (offset : Nat) : Bool := width == .word && decide (offset % 4 = 0)

/-- The host has the value of an MMIO read; having read STATUS with BUSY = 0, it has seen every command so far
complete (70_reset_and_hazards.md R235; log 8). -/
def State.answerMmio (offset : Nat) (s : State) : State :=
  { s with
    responses := s.responses ++ [.mmio offset (mmioRead offset s)]
    unobserved := if offset = regOffset .status ∧ s.status.busy = false then [] else s.unobserved }

/-- A host MMIO read. Outside the window it does not reach the core; a form without a defined effect is refused
(43_dispatch.md R181, R182; log 9). -/
def hostMmioRead (width : AccessWidth) (offset : Nat) (s : State) : Result :=
  if inWindow offset then
    if definedForm width offset then .next (s.answerMmio offset) else .refused .mmioForm
  else .next s

/-- A host MMIO write (43_dispatch.md R180, R182; log 9). -/
def hostMmioWrite (width : AccessWidth) (offset : Nat) (v : Word) (s : State) : Result :=
  if inWindow offset then
    if definedForm width offset then .next (mmioWrite offset v s) else .refused .mmioForm
  else .next s

/-! ## Data-memory accesses -/

/-- The bytes `[a, a + n)` are addressable: data memory ends at 2^32 (10_state.md R41). DESIGN CHOICE: which of them exist
is mem_ok, and the host's own path is outside the spec (R41); the model lets the host reach every addressable byte,
whatever mem_ok says of it (log 21). -/
def inMemory (a n : Nat) : Bool := decide (a + n ≤ Config.memorySize)

/-- Some byte of `[a, a + n)` lies in the SRC, DST or META region of a command the host has not seen complete. -/
def inUnobserved (s : State) (a n : Nat) : Bool :=
  (List.range' a n).any fun b => s.unobserved.any fun p => p.uses b

/-- A host write of consecutive bytes. The host may not write the regions of a command from its accept until it has
observed BUSY = 0: refused (70_reset_and_hazards.md R235, 20_memory.md R64; log 8). Every other write lands, also where
mem_ok is false (log 21). -/
def hostMemWrite (addr : Word) (bytes : List Byte) (s : State) : Result :=
  if inMemory addr.toNat bytes.length then
    if inUnobserved s addr.toNat bytes.length then .refused .regionQuiescence
    else .next { s with mem := memWrite s.mem addr.toNat bytes }
  else .fault .outsideMemory

/-- An address whose reads return any value now: in the DST or META region of the running command
(70_reset_and_hazards.md R236; log 10). DESIGN CHOICE: from the completion on it is memory's byte, also before a STATUS
read has returned BUSY = 0, where 20_memory.md R59 orders nothing (log 22). -/
def State.volatileAt (s : State) (a : Nat) : Bool :=
  match s.latched with
  | none => false
  | some l => l.snap.writes a

/-- The byte a host read returns as the k-th of its bytes: a draw where reads return any value, else memory's, whether
or not the host has observed the completion (log 22). -/
def hostByte (s : State) (a k : Nat) : Byte := if s.volatileAt a then s.draw k else Memory.read s.mem a

/-- The bytes a host read of `[a, a + n)` returns. -/
def hostBytes (s : State) (a n : Nat) : List Byte := (List.range n).map fun k => hostByte s (a + k) k

/-- A host read of consecutive bytes (20_memory.md R64, 70_reset_and_hazards.md R236), also where mem_ok is false (log
21). -/
def hostMemRead (addr : Word) (count : Nat) (s : State) : Result :=
  if inMemory addr.toNat count then
    .next { s.spend count with responses := s.responses ++ [.mem addr (hostBytes s addr.toNat count)] }
  else .fault .outsideMemory

/-! ## Polling and reset -/

/-- `wait.idle`: repeat the STATUS read until BUSY = 0 (30_encoding.md R95). Polls that return BUSY = 1 have no
effect (43_dispatch.md R181), so while BUSY the engine takes its turn with the poll still to come (log 7). -/
def hostWaitIdle (s : State) : Result :=
  match s.phase with
  | .idle => .next (s.answerMmio (regOffset .status))
  | .busy => engineTurn { s with pending := .waitIdle :: s.pending }

/-- Reset while BUSY: every byte of the aborted command's DST and META regions takes any value
(70_reset_and_hazards.md R231); otherwise reset does not change data memory (R232). -/
def State.abort (s : State) : State :=
  match s.latched with
  | none => s
  | some l => s.damage [l.snap.dstRegion, l.snap.metaRegion]

/-- The reset input: every register at its reset value, IDLE, nothing latched, the internal tables any value
(70_reset_and_hazards.md R230 to R233). Memory, the platform's mem_ok and the host's own list stay (log 11). -/
def hostReset (s : State) : State :=
  let a := s.abort
  { State.reset with
    tables := (Config.freeTables a.drawCount).fit
    mem := a.mem
    memOk := a.memOk
    pending := a.pending
    responses := a.responses
    draws := a.draws
    drawCount := a.drawCount + 1 }

/-! ## One event -/

/-- What one event does, the events after it being `pending` already (60_exceptions.md R204; log 7). -/
def hostEvent (e : Event) (s : State) : Result :=
  match e with
  | .engine => engineTurn s
  | .mmioWrite width offset value => hostMmioWrite width offset value s
  | .mmioRead width offset => hostMmioRead width offset s
  | .memWrite addr bytes => hostMemWrite addr bytes s
  | .memRead addr count => hostMemRead addr count s
  | .waitIdle => hostWaitIdle s
  | .reset => .next (hostReset s)

/-! ## Host notation (30_encoding.md R95, R96) -/

/-- `mmio.w NAME, value`. -/
def scriptWrite (r : Reg) (v : Word) : Event := .mmioWrite .word (regOffset r) v

/-- `mmio.r NAME`. -/
def scriptRead (r : Reg) : Event := .mmioRead .word (regOffset r)

/-- `run OP, src, srclen, dst, dstcap, meta, metacap`; the operands after OP are those of `p`. -/
def scriptRun (op : Word) (p : Params) : List Event :=
  [scriptWrite .srcAddr p.srcAddr, scriptWrite .srcLen p.srcLen, scriptWrite .dstAddr p.dstAddr,
    scriptWrite .dstCap p.dstCap, scriptWrite .metaAddr p.metaAddr, scriptWrite .metaCap p.metaCap,
    scriptWrite .cmd op, .waitIdle]

/-- `ack`. -/
def scriptAck : List Event := [scriptWrite .status ackWord]

/-- `setwin w`. -/
def scriptSetwin (w : Word) : List Event := [scriptWrite .lzWindow w]

end Sys2Proof.Machine
end

