-- ==== Sys2Proof/Machine/Step.lean ====
section
/-!
DEFINITION. One step of the machine: the next thing that happens to it (log 7), and where an opcode-table word goes
so that the next step runs it (log 13).
-/

namespace Sys2Proof.Machine

/-- One step: the oldest pending event, or the engine's turn where none is pending (43_dispatch.md R189). -/
def step (s : State) : Host.Outcome State Fault Refusal :=
  match s.pending with
  | [] => engineTurn s
  | e :: rest => hostEvent e { s with pending := rest }

/-- The state with an opcode-table word where the engine fetches its next instruction. -/
def State.withFetchWord (s : State) (nbits w : Nat) : State := s.loadTableWord nbits w

end Sys2Proof.Machine
end

