-- ==== Sys2Proof/Safety.lean ====
section
/-!
DEFINITION. What claims about the codec core speak of: what a completion leaves, what it keeps, and the coherence of a
state, which reset has and every step keeps.
-/

namespace Sys2Proof.Machine

/-- The byte a sequence stored at `base` puts at address `a`. -/
def bytesAt (base : Nat) (bs : List Byte) (a : Nat) : Option Byte := if base ≤ a then bs[a - base]? else none

/-- The byte at `a` after byte sequences have been stored over memory; the first sequence that reaches `a` counts. -/
def overlay (m : Memory) (a : Nat) : List (Nat × List Byte) → Byte
  | [] => Memory.read m a
  | w :: ws =>
    match bytesAt w.1 w.2 a with
    | some b => b
    | none => overlay m a ws

/-- What no command changes: CTRL, the parameter registers, the platform, and the host's side. -/
def KeepsHostSide (s t : State) : Prop :=
  t.ctrlIE = s.ctrlIE ∧ t.params = s.params ∧ t.memOk = s.memOk ∧ t.pending = s.pending ∧
    t.responses = s.responses ∧ t.unobserved = s.unobserved

/-- The engine is IDLE with nothing latched or in progress. -/
def EngineIdle (t : State) : Prop := t.phase = .idle ∧ t.latched = none ∧ t.expansion = none

/-- `t` is `s` after a successful completion that wrote the sequences `writes` and nothing else (43_dispatch.md
R187). -/
def CompletedOk (s t : State) (outLen metaLen : Nat) (writes : List (Nat × List Byte)) : Prop :=
  t.status = { busy := false, doneBit := true, err := false, ovr := s.status.ovr, errCode := 0#4 } ∧
    t.outLen.toNat = outLen ∧ t.metaLen.toNat = metaLen ∧ EngineIdle t ∧ KeepsHostSide s t ∧
    ∀ a, Memory.read t.mem a = overlay s.mem a writes

/-- `t` is `s` after an error completion with code `code`: OUT_LEN and META_LEN are 0, and no byte outside the damage
set has changed (43_dispatch.md R188). The bytes of the damage set hold any value: nothing is said of them. -/
def CompletedErr (s t : State) (code : BitVec 4) (damage : List Span) : Prop :=
  t.status = { busy := false, doneBit := true, err := true, ovr := s.status.ovr, errCode := code } ∧
    t.outLen = 0#32 ∧ t.metaLen = 0#32 ∧ EngineIdle t ∧ KeepsHostSide s t ∧
    ∀ a, (∀ z ∈ damage, z.has a = false) → Memory.read t.mem a = Memory.read s.mem a

/-- What a payload element that completes leaves unchanged: everything but the output of the running decompress and
its cursor. -/
def ElementFrame (s t : State) : Prop :=
  t.status = s.status ∧ t.outLen = s.outLen ∧ t.metaLen = s.metaLen ∧ t.phase = s.phase ∧ t.latched = s.latched ∧
    t.mem = s.mem ∧ t.draws = s.draws ∧ t.drawCount = s.drawCount ∧ KeepsHostSide s t ∧
    t.tables = { s.tables with cursor := t.tables.cursor }

/-- The decompress in progress after an element has appended `bytes`. -/
def Appended (x : Expansion) (bytes : List Byte) (t : State) : Prop :=
  t.expansion = some { x with out := x.out ++ bytes } ∧
    t.tables.cursor = BitVec.ofNat 32 (x.out.length + bytes.length)

/-- A decompress in progress belongs to the latched command, fits its DST region, and has passed the region check. -/
def ExpansionOk (s : State) (x : Expansion) : Prop :=
  ∃ l, s.latched = some l ∧ x.out.length ≤ x.origLen ∧ x.origLen ≤ l.snap.dstCap.toNat ∧
    regionOk s.memOk l.snap = true

/-- The sizes of R39 that the types of the internal tables do not give: at most 511 nodes, at most 255 bits to a code. -/
def Tables.Sized (t : Tables) : Prop := t.tree.nodes.length ≤ 511 ∧ ∀ code ∈ t.codes.toList, code.length ≤ 255

/-- The coherence of a state: what holds at reset and after every step. -/
structure State.Coherent (s : State) : Prop where
  /-- Memory is canonical. -/
  memCanonical : Memory.wf s.mem
  /-- "always equals STATUS.BUSY" (10_state.md R37). -/
  phaseIsBusy : s.status.busy = true ↔ s.phase = .busy
  /-- "present only while BUSY" (10_state.md R37). -/
  latchedIsBusy : s.latched.isSome = true ↔ s.phase = .busy
  /-- What accept clears stays clear while BUSY (43_dispatch.md R183, 70_reset_and_hazards.md R236). -/
  busyIsClear : s.phase = .busy →
    s.status.doneBit = false ∧ s.status.err = false ∧ s.status.errCode = 0#4 ∧ s.outLen = 0#32 ∧ s.metaLen = 0#32
  /-- ERR_CODE values 6 to 15 are never produced (60_exceptions.md R200). -/
  codeLegal : s.status.errCode.toNat ≤ 5
  /-- ERR is set only by a completion with a code other than 0 (10_state.md R26). -/
  errHasCode : s.status.err = true → s.status.errCode ≠ 0#4
  /-- OUT_LEN and META_LEN are 0 after an error (10_state.md R35, R36). -/
  errHasNoLength : s.status.errCode ≠ 0#4 → s.outLen = 0#32 ∧ s.metaLen = 0#32
  /-- META_LEN is 0, 4 or 1032 (10_state.md R36). -/
  metaLenLegal : s.metaLen = 0#32 ∨ s.metaLen = 4#32 ∨ s.metaLen = 1032#32
  expansionOk : ∀ x, s.expansion = some x → ExpansionOk s x
  /-- The host's duty covers the running command (70_reset_and_hazards.md R235; log 8). -/
  latchedUnobserved : ∀ l, s.latched = some l → l.snap ∈ s.unobserved
  /-- The internal tables have the sizes of 10_state.md R39. -/
  tablesSized : s.tables.Sized
  /-- The output cursor is the number of bytes emitted so far (10_state.md R39). -/
  cursorIsLength : ∀ x, s.expansion = some x → s.tables.cursor = BitVec.ofNat 32 x.out.length

/-- The engine's turn taken `n` times, stopping at the first fault or refusal. -/
def engineTurns : Nat → State → Result
  | 0, s => .next s
  | n + 1, s =>
    match engineTurn s with
    | .next t => engineTurns n t
    | .fault r => .fault r
    | .refused r => .refused r

/-- Two memories hold the same bytes in a region. -/
def SameBytes (r : Span) (m n : Memory) : Prop := ∀ a, r.has a = true → Memory.read m a = Memory.read n a

/-- The reset values of the register table (10_state.md R23), IDLE, nothing latched, irq 0 (70_reset_and_hazards.md
R230). LZ_WINDOW holds the OPEN parameter LZ_WINDOW_RESET. -/
def AtResetValues (t : State) : Prop :=
  readReg .caps t = 0x00000007#32 ∧ readReg .ctrl t = 0#32 ∧ readReg .status t = 0#32 ∧ readReg .cmd t = 0#32 ∧
    readReg .srcAddr t = 0#32 ∧ readReg .srcLen t = 0#32 ∧ readReg .dstAddr t = 0#32 ∧ readReg .dstCap t = 0#32 ∧
    readReg .metaAddr t = 0#32 ∧ readReg .metaCap t = 0#32 ∧
    readReg .lzWindow t = Config.lzWindowReset.setWidth 32 ∧ readReg .outLen t = 0#32 ∧ readReg .metaLen t = 0#32 ∧
    EngineIdle t ∧ t.irq = false

/-- A 32-bit field of a metadata record that has been read whole (30_encoding.md R87). -/
def recordField (rec : List Byte) (offset : Nat) : Nat := fromU32le ((rec.drop offset).take 4)

/-- FREQ[0..255] of a Huffman record that has been read whole (30_encoding.md R85). -/
def recordFreq (rec : List Byte) : List Nat := (List.range 256).map fun b => recordField rec (8 + 4 * b)

/-- The decoder of the payload an element belongs to: RLE's for the RLE rows, LZ77's for the token rows. -/
def decodeElement (i : Instr) (payload : List Byte) : Except DecodeError (Instr × List Byte) :=
  match i with
  | .rleRun _ _ => decodeRle payload
  | .rleLit _ => decodeRle payload
  | .rleDangling _ => decodeRle payload
  | _ => decodeLz payload

end Sys2Proof.Machine
end

