-- ==== Sys2Proof/Certificates/Slice0/Obligations.lean ====
section
/-!
DEFINITION. What is claimed of the codec core, one statement for each; OBLIGATIONS.json lists them. The rules named are
those of spec/.
-/

open Sys2Proof Sys2Proof.Machine

/-! ## Reset, registers and the host port -/

/-- 70_reset_and_hazards.md R230: the state after reset, at power-on and by the reset input in any state; after it the
core waits. That the events behind the reset stay pending is the model's choice (log 11), and so is that a turn with
nothing to do answers the same state (log 7). -/
def Obligations.ResetGivesResetValues : Prop :=
  AtResetValues State.reset ∧ step State.reset = .next State.reset ∧
  ∀ (s : State) (rest : List Event), s.pending = .reset :: rest →
    ∃ t, step s = .next t ∧ AtResetValues t ∧ t.pending = rest ∧ (rest = [] → step t = .next t)

/-- 70_reset_and_hazards.md R232: the reset input changes no byte but those of the DST and META regions of a command it
aborts (R231). -/
def Obligations.ResetSparesMemory : Prop :=
  ∀ (s : State) (rest : List Event), s.pending = .reset :: rest →
    ∃ t, step s = .next t ∧ (∀ a, s.volatileAt a = false → Memory.read t.mem a = Memory.read s.mem a)

/-- 43_dispatch.md R180: an aligned 32-bit write to each offset of the window, with everything it leaves unchanged. -/
def Obligations.MmioWriteEffects : Prop :=
  ∀ (s : State) (rest : List Event) (o : Nat) (v : Word),
    s.pending = .mmioWrite .word o v :: rest → o < 256 → o % 4 = 0 →
    ∃ t, step s = .next t ∧
      (o = 0x04 → t = { s with pending := rest, ctrlIE := v.getLsbD 0 }) ∧
      (o = 0x08 → t = { s with pending := rest, status := { s.status with
          doneBit := if v.getLsbD 1 then false else s.status.doneBit
          err := if v.getLsbD 2 then false else s.status.err
          ovr := if v.getLsbD 3 then false else s.status.ovr } }) ∧
      (o = 0x0C →
        (s.phase = .idle → t = { s with
          pending := rest, latched := some ⟨v, s.params⟩, phase := .busy
          status := { busy := true, doneBit := false, err := false, ovr := s.status.ovr, errCode := 0#4 }
          outLen := 0#32, metaLen := 0#32, expansion := none, unobserved := t.unobserved }) ∧
        (s.phase = .busy → t = { s with pending := rest, status := { s.status with ovr := true } })) ∧
      (o = 0x10 → t = { s with pending := rest, params := { s.params with srcAddr := v } }) ∧
      (o = 0x14 → t = { s with pending := rest, params := { s.params with srcLen := v } }) ∧
      (o = 0x18 → t = { s with pending := rest, params := { s.params with dstAddr := v } }) ∧
      (o = 0x1C → t = { s with pending := rest, params := { s.params with dstCap := v } }) ∧
      (o = 0x20 → t = { s with pending := rest, params := { s.params with metaAddr := v } }) ∧
      (o = 0x24 → t = { s with pending := rest, params := { s.params with metaCap := v } }) ∧
      (o = 0x28 → t = { s with pending := rest, params := { s.params with window := v.extractLsb' 0 16 } }) ∧
      (o = 0x00 ∨ 0x2C ≤ o → t = { s with pending := rest })

/-- 43_dispatch.md R180 on STATUS as the host sees it: a write clears exactly the W1C bits it names. -/
def Obligations.StatusWriteClearsNamedBits : Prop :=
  ∀ (s : State) (v : Word), (writeReg .status v s).status.toWord = s.status.toWord &&& ~~~(v &&& 0x0000000E#32)

/-- 43_dispatch.md R181: what an aligned 32-bit read returns, and that it changes no register, no memory and nothing of
the engine; only the host's own side records it. That a STATUS read with BUSY = 0 empties the list of commands the host
has not seen complete is the model's choice (log 8). -/
def Obligations.MmioReadReturnsRegister : Prop :=
  ∀ (s : State) (rest : List Event) (o : Nat), s.pending = .mmioRead .word o :: rest → o < 256 → o % 4 = 0 →
    ∃ v : Word,
      step s = .next { s with
        pending := rest, responses := s.responses ++ [.mmio o v]
        unobserved := if o = 0x08 ∧ s.status.busy = false then [] else s.unobserved } ∧
      (o = 0x00 → v = 0x00000007#32) ∧
      (o = 0x04 → v = if s.ctrlIE then 1#32 else 0#32) ∧
      (o = 0x08 → v.getLsbD 0 = s.status.busy ∧ v.getLsbD 1 = s.status.doneBit ∧ v.getLsbD 2 = s.status.err ∧
        v.getLsbD 3 = s.status.ovr ∧ v.extractLsb' 8 4 = s.status.errCode ∧ v &&& 0xFFFFF0F0#32 = 0#32) ∧
      (o = 0x0C → v = 0#32) ∧
      (o = 0x10 → v = s.params.srcAddr) ∧ (o = 0x14 → v = s.params.srcLen) ∧
      (o = 0x18 → v = s.params.dstAddr) ∧ (o = 0x1C → v = s.params.dstCap) ∧
      (o = 0x20 → v = s.params.metaAddr) ∧ (o = 0x24 → v = s.params.metaCap) ∧
      (o = 0x28 → v.extractLsb' 0 16 = s.params.window ∧ v.extractLsb' 16 16 = 0#16) ∧
      (o = 0x2C → v = s.outLen) ∧ (o = 0x30 → v = s.metaLen) ∧ (0x34 ≤ o → v = 0#32)

/-- 43_dispatch.md R182: inside the window every other access form is refused. That an access outside the window changes
nothing, a read recording no answer, is the model's reading (log 9). -/
def Obligations.OtherMmioFormsRefused : Prop :=
  ∀ (s : State) (rest : List Event) (width : AccessWidth) (o : Nat) (v : Word),
    (s.pending = .mmioRead width o :: rest ∨ s.pending = .mmioWrite width o v :: rest) →
    (o < 256 → width ≠ .word ∨ o % 4 ≠ 0 → step s = .refused .mmioForm) ∧
    (256 ≤ o → step s = .next { s with pending := rest })

/-- 43_dispatch.md R183: command accept. -/
def Obligations.CommandAccept : Prop :=
  ∀ (s : State) (rest : List Event) (w : Word), s.pending = .mmioWrite .word 0x0C w :: rest → s.phase = .idle →
    ∃ t, step s = .next t ∧
      t.latched = some { word := w, snap := s.params } ∧
      t.status = { busy := true, doneBit := false, err := false, ovr := s.status.ovr, errCode := 0#4 } ∧
      t.outLen = 0#32 ∧ t.metaLen = 0#32 ∧ t.phase = .busy ∧ t.irq = false ∧
      t.ctrlIE = s.ctrlIE ∧ t.params = s.params ∧ t.mem = s.mem ∧ t.memOk = s.memOk ∧ t.tables = s.tables ∧
      t.pending = rest ∧ t.responses = s.responses ∧ t.draws = s.draws ∧ t.drawCount = s.drawCount

/-- 43_dispatch.md R184: a CMD write while BUSY is dropped and sets OVR. -/
def Obligations.CommandWriteWhileBusyIsDropped : Prop :=
  ∀ (s : State) (rest : List Event) (w : Word), s.pending = .mmioWrite .word 0x0C w :: rest → s.phase = .busy →
    step s = .next { s with pending := rest, status := { s.status with ovr := true } }

/-- 70_reset_and_hazards.md R237: a parameter write while BUSY takes effect in the register at once and does not touch
the running command: engine turn and write commute. -/
def Obligations.ParameterWriteSparesRunningCommand : Prop :=
  ∀ (s t : State) (r : Reg) (v : Word),
    r = .srcAddr ∨ r = .srcLen ∨ r = .dstAddr ∨ r = .dstCap ∨ r = .metaAddr ∨ r = .metaCap ∨ r = .lzWindow →
    s.phase = .busy → engineTurn s = .next t →
    engineTurn (writeReg r v s) = .next (writeReg r v t)

/-- 60_exceptions.md R203: irq is CTRL.IE and STATUS.DONE; every completion sets DONE and so raises it where enabled,
and accept, writing 1 to STATUS bit 1, and reset clear it. -/
def Obligations.InterruptLevel : Prop :=
  (∀ s : State, s.irq = (s.ctrlIE && s.status.doneBit)) ∧
  (∀ (s t : State), s.phase = .busy → engineTurn s = .next t → t.phase = .idle →
    t.status.doneBit = true ∧ t.irq = s.ctrlIE) ∧
  (∀ (s : State) (w : Word), s.phase = .idle → (writeReg .cmd w s).irq = false) ∧
  (∀ (s : State) (v : Word), v.getLsbD 1 = true → (writeReg .status v s).irq = false) ∧
  (∀ s : State, (hostReset s).irq = false)

/-- 20_memory.md R59 and R64, 70_reset_and_hazards.md R235: a host write lands, byte by byte, unless it meets a region
of a command the host has not seen complete (log 8), the running one among them (StepKeepsCoherence); there it is refused. That it lands whatever mem_ok says of its
bytes is the model's choice (log 21). -/
def Obligations.HostWriteLandsOrIsRefused : Prop :=
  ∀ (s : State) (rest : List Event) (addr : Word) (bytes : List Byte), s.pending = .memWrite addr bytes :: rest →
    addr.toNat + bytes.length ≤ 4294967296 →
    ((∃ a, addr.toNat ≤ a ∧ a < addr.toNat + bytes.length ∧ ∃ p ∈ s.unobserved,
        (p.srcRegion.has a = true ∨ p.dstRegion.has a = true ∨ p.metaRegion.has a = true)) →
      step s = .refused .regionQuiescence) ∧
    ((∀ a, addr.toNat ≤ a → a < addr.toNat + bytes.length → ∀ p ∈ s.unobserved,
        (p.srcRegion.has a = false ∧ p.dstRegion.has a = false ∧ p.metaRegion.has a = false)) →
      ∃ m, step s = .next { s with pending := rest, mem := m } ∧
        ∀ a, Memory.read m a = overlay s.mem a [(addr.toNat, bytes)])

/-- 70_reset_and_hazards.md R236: a host read returns memory's byte, but for the bytes of the running command's DST and
META regions, of which nothing is said (log 10); it changes nothing but the host's side. That it does so whatever mem_ok
says of the bytes (log 21), and from the completion on, before any STATUS read has shown it (log 22), are the model's
choices. Of the bytes that may be anything no value is ruled out: some supply of free values (log 3) makes the answer hold
any bytes there. -/
def Obligations.HostReadReturnsMemory : Prop :=
  ∀ (s : State) (rest : List Event) (addr : Word) (n : Nat), s.pending = .memRead addr n :: rest →
    addr.toNat + n ≤ 4294967296 →
    (∃ bytes, step s = .next { s with
        pending := rest, responses := s.responses ++ [.mem addr bytes],
        draws := s.draws.drop n, drawCount := s.drawCount + n } ∧
      bytes.length = n ∧
      ∀ k < n, (∀ l, s.latched = some l →
          l.snap.dstRegion.has (addr.toNat + k) = false ∧ l.snap.metaRegion.has (addr.toNat + k) = false) →
        bytes[k]? = some (Memory.read s.mem (addr.toNat + k))) ∧
    (∀ (l : Latched) (v : Nat → Byte), s.latched = some l →
      ∃ supply bytes t, step { s with draws := supply } = .next t ∧ t.responses = s.responses ++ [.mem addr bytes] ∧
        bytes.length = n ∧
        ∀ k < n, l.snap.dstRegion.has (addr.toNat + k) = true ∨ l.snap.metaRegion.has (addr.toNat + k) = true →
          bytes[k]? = some (v (addr.toNat + k)))

/-! ## The engine -/

/-- A step runs the decoded instruction: the latched command word, or the next element of a payload that is executed
element by element, taken off that payload (43_dispatch.md R185, R191). -/
def Obligations.StepRunsTheDecodedInstruction : Prop :=
  ∀ (s : State) (rest : List Event), s.phase = .busy →
    (s.pending = .engine :: rest ∨ (s.pending = [] ∧ rest = [])) →
    (∀ l, s.expansion = none → s.latched = some l →
      step s = exec (decodeCommand l.word) { s with pending := rest }) ∧
    (∀ x i feed, s.expansion = some x → fetchElement s.tables.tree x.feed = .ok (i, feed) →
      step s = exec i { s with pending := rest, expansion := some { x with feed := feed } })

/-- 43_dispatch.md R189: the engine completes an accepted command, whatever it is, by exactly one step, which is a
successful or an error completion. What it writes (R187) and what it damages (R188) lies in the DST and META regions of
the latched snapshot, and only a command that passed the region check (R185) writes or damages anything. -/
def Obligations.EngineCompletesCommandInOneStep : Prop :=
  ∀ (s : State) (l : Latched), s.phase = .busy → s.expansion = none → s.latched = some l →
    ∃ t, engineTurn s = .next t ∧
      ((∃ n q ws, CompletedOk s t n q ws ∧ regionOk s.memOk l.snap = true ∧
          ∀ w ∈ ws, ∀ a, w.1 ≤ a → a < w.1 + w.2.length →
            l.snap.dstRegion.has a = true ∨ l.snap.metaRegion.has a = true) ∨
        (∃ code damage, code ≠ 0#4 ∧ code.toNat ≤ 5 ∧ CompletedErr s t code damage ∧
          (damage = [] ∨ regionOk s.memOk l.snap = true) ∧
          ∀ z ∈ damage, ∀ a, z.has a = true → l.snap.dstRegion.has a = true ∨ l.snap.metaRegion.has a = true))

/-- 60_exceptions.md R214: an IDLE engine waits; it changes nothing. -/
def Obligations.IdleEngineWaits : Prop :=
  ∀ s : State, s.phase = .idle → s.pending = [] → step s = .next s

/-- 20_memory.md R54: the region check says what the rule's three tests say, in terms of addresses. -/
def Obligations.RegionCheckMeaning : Prop :=
  ∀ (ranges : List Span) (p : Params),
    regionOk ranges p = true ↔
      (∀ r ∈ [p.srcRegion, p.dstRegion, p.metaRegion], 0 < r.len → r.base + r.len ≤ 4294967296) ∧
      (∀ r ∈ [p.srcRegion, p.dstRegion, p.metaRegion], ∀ a, r.base ≤ a → a < r.base + r.len →
        ∃ z ∈ ranges, z.base ≤ a ∧ a < z.base + z.len) ∧
      (∀ a, ¬ (p.srcRegion.has a = true ∧ p.dstRegion.has a = true) ∧
        ¬ (p.srcRegion.has a = true ∧ p.metaRegion.has a = true) ∧
        ¬ (p.dstRegion.has a = true ∧ p.metaRegion.has a = true))

/-- 43_dispatch.md R185 and R186: a valid command whose regions fail the check completes with REGION_ERROR (5), and
neither reads nor writes memory. -/
def Obligations.RegionErrorCompletes : Prop :=
  ∀ (s : State) (l : Latched) (i : Instr),
    i = .hufCompress ∨ i = .hufDecompress ∨ i = .lzCompress ∨ i = .lzDecompress ∨ i = .rleCompress ∨
      i = .rleDecompress →
    s.latched = some l → regionOk s.memOk l.snap = false →
    ∃ t, exec i s = .next t ∧ CompletedErr s t 5#4 [] ∧
      ∀ m, exec i { s with mem := m } = .next { t with mem := m }

/-- 43_dispatch.md R188, "a draw for each byte" (00_scope.md R14): no value of a damaged byte is ruled out. For any bytes
at all some supply of free values (log 3) makes the damage set hold them: after an error completion with any damage set;
after reset aborts a command (70_reset_and_hazards.md R231); after a compress that ends in OVERFLOW with its payload too
long (R117, R145, R163); and after a decompress that ends in CORRUPT_PAYLOAD (R121, R150, R167). -/
def Obligations.DamageTakesAnyValue : Prop :=
  (∀ (s : State) (e : CodecError) (zs : List Span) (v : Nat → Byte), ∃ supply, ∀ z ∈ zs, ∀ a, z.has a = true →
    a < 4294967296 → Memory.read (State.raise e zs { s with draws := supply }).mem a = v a) ∧
  (∀ (s : State) (l : Latched) (rest : List Event) (v : Nat → Byte), s.pending = .reset :: rest → s.latched = some l →
    ∃ supply t, step { s with draws := supply } = .next t ∧
      ∀ a < 4294967296, l.snap.dstRegion.has a = true ∨ l.snap.metaRegion.has a = true → Memory.read t.mem a = v a) ∧
  (∀ (s u : State) (l : Latched) (i : Instr) (size : Nat) (v : Nat → Byte),
    (i = .hufCompress ∧ size = 1032) ∨ (i = .lzCompress ∧ size = 4) ∨ (i = .rleCompress ∧ size = 4) →
    s.latched = some l → regionOk s.memOk l.snap = true → size ≤ l.snap.metaCap.toNat →
    exec i s = .next u → u.status.err = true →
    ∃ supply t, exec i { s with draws := supply } = .next t ∧ t.status = u.status ∧
      ∀ a, l.snap.dstRegion.has a = true ∨ (l.snap.metaAddr.toNat ≤ a ∧ a < l.snap.metaAddr.toNat + size) →
        Memory.read t.mem a = v a) ∧
  (∀ (s u : State) (l : Latched) (i : Instr) (v : Nat → Byte),
    i = .hufDecompress ∨ i = .lzDecompress ∨ i = .rleDecompress → s.latched = some l →
    exec i s = .next u → u.status.errCode = 3#4 →
    ∃ supply t, exec i { s with draws := supply } = .next t ∧ t.status = u.status ∧
      ∀ a, l.snap.dstAddr.toNat ≤ a → a < l.snap.dstAddr.toNat + fromU32le (memRead s.mem l.snap.metaAddr.toNat 4) →
        Memory.read t.mem a = v a)

/-- 30_encoding.md R83: a word that is none of the six is accepted while IDLE, and completes with UNKNOWN_ALGORITHM (1),
whatever its regions; the command neither reads nor writes memory. -/
def Obligations.IllegalCommandCompletes : Prop :=
  ∀ w : Word, w ∉ [0x11#32, 0x12#32, 0x21#32, 0x22#32, 0x31#32, 0x32#32] →
    decodeCommand w = .illegalCmd w ∧
    (∀ (s : State) (rest : List Event), s.pending = .mmioWrite .word 0x0C w :: rest → s.phase = .idle →
      ∃ t, step s = .next t ∧ t.phase = .busy ∧ t.latched = some ⟨w, s.params⟩) ∧
    (∀ (s : State) (l : Latched), s.latched = some l → l.word = w →
      ∃ t, exec (.illegalCmd w) s = .next t ∧ CompletedErr s t 1#4 [] ∧
        ∀ m, exec (.illegalCmd w) { s with mem := m } = .next { t with mem := m })

/-- 60_exceptions.md R200: the number of each error kind. -/
def Obligations.ErrorCodeNumbers : Prop :=
  CodecError.code .unknownAlgorithm = 1#4 ∧ CodecError.code .malformedMetadata = 2#4 ∧
    CodecError.code .corruptPayload = 3#4 ∧ CodecError.code .overflow = 4#4 ∧ CodecError.code .regionError = 5#4

/-! ## The six commands -/

/-- 40_huffman.md R117: HUF_COMPRESS after the region check. The byte order of u32le is stated in SampleWordsDecode. -/
def Obligations.HufCompressResult : Prop :=
  decodeCommand 0x00000011#32 = .hufCompress ∧
  ∀ (s : State) (l : Latched), s.latched = some l → regionOk s.memOk l.snap = true →
    let p := l.snap
    let e := hufCompress (memRead s.mem p.srcAddr.toNat p.srcLen.toNat)
    (p.metaCap.toNat < 1032 → ∃ t, exec .hufCompress s = .next t ∧ CompletedErr s t 4#4 []) ∧
    (1032 ≤ p.metaCap.toNat → p.dstCap.toNat < e.payload.length →
      ∃ t, exec .hufCompress s = .next t ∧
        CompletedErr s t 4#4 [⟨p.dstAddr.toNat, p.dstCap.toNat⟩, ⟨p.metaAddr.toNat, 1032⟩]) ∧
    (1032 ≤ p.metaCap.toNat → e.payload.length ≤ p.dstCap.toNat →
      ∃ t, exec .hufCompress s = .next t ∧
        CompletedOk s t e.payload.length 1032
          [(p.dstAddr.toNat, e.payload),
            (p.metaAddr.toNat, u32le p.srcLen.toNat ++ u32le e.pad ++ e.freq.flatMap u32le)])

/-- 40_huffman.md R121 with the record checks of R118: HUF_DECOMPRESS after the region check. The record is read whole,
and its fields are those of 30_encoding.md R85. -/
def Obligations.HufDecompressResult : Prop :=
  decodeCommand 0x00000012#32 = .hufDecompress ∧
  ∀ (s : State) (l : Latched), s.latched = some l → regionOk s.memOk l.snap = true →
    let p := l.snap
    let record := memRead s.mem p.metaAddr.toNat 1032
    let origLen := recordField record 0
    let pad := recordField record 4
    let f := recordFreq record
    let valid := 1032 ≤ p.metaCap.toNat ∧ pad ≤ 7 ∧ f.sum = origLen ∧ ¬ (2 ≤ distinct f ∧ 8 * p.srcLen.toNat < pad)
    let decoded := hufDecompress origLen pad f (memRead s.mem p.srcAddr.toNat p.srcLen.toNat)
    (¬ valid → ∃ t, exec .hufDecompress s = .next t ∧ CompletedErr s t 2#4 []) ∧
    (valid → p.dstCap.toNat < origLen → ∃ t, exec .hufDecompress s = .next t ∧ CompletedErr s t 4#4 []) ∧
    (valid → origLen ≤ p.dstCap.toNat → decoded = none →
      ∃ t, exec .hufDecompress s = .next t ∧ CompletedErr s t 3#4 [⟨p.dstAddr.toNat, origLen⟩]) ∧
    (∀ out, valid → origLen ≤ p.dstCap.toNat → decoded = some out →
      ∃ t, exec .hufDecompress s = .next t ∧ out.length = origLen ∧
        CompletedOk s t origLen 0 [(p.dstAddr.toNat, out)])

/-- 41_lz77.md R145: LZ_COMPRESS after the region check. -/
def Obligations.LzCompressResult : Prop :=
  decodeCommand 0x00000021#32 = .lzCompress ∧
  ∀ (s : State) (l : Latched), s.latched = some l → regionOk s.memOk l.snap = true →
    let p := l.snap
    let payload := lzCompress p.window.toNat (memRead s.mem p.srcAddr.toNat p.srcLen.toNat)
    (p.metaCap.toNat < 4 → ∃ t, exec .lzCompress s = .next t ∧ CompletedErr s t 4#4 []) ∧
    (4 ≤ p.metaCap.toNat → p.dstCap.toNat < payload.length →
      ∃ t, exec .lzCompress s = .next t ∧
        CompletedErr s t 4#4 [⟨p.dstAddr.toNat, p.dstCap.toNat⟩, ⟨p.metaAddr.toNat, 4⟩]) ∧
    (4 ≤ p.metaCap.toNat → payload.length ≤ p.dstCap.toNat →
      ∃ t, exec .lzCompress s = .next t ∧
        CompletedOk s t payload.length 4 [(p.dstAddr.toNat, payload), (p.metaAddr.toNat, u32le p.srcLen.toNat)])

/-- 41_lz77.md R150: LZ_DECOMPRESS after the region check. -/
def Obligations.LzDecompressResult : Prop :=
  decodeCommand 0x00000022#32 = .lzDecompress ∧
  ∀ (s : State) (l : Latched), s.latched = some l → regionOk s.memOk l.snap = true →
    let p := l.snap
    let origLen := fromU32le (memRead s.mem p.metaAddr.toNat 4)
    let decoded := lzDecompress p.window.toNat origLen (memRead s.mem p.srcAddr.toNat p.srcLen.toNat)
    (p.metaCap.toNat < 4 → ∃ t, exec .lzDecompress s = .next t ∧ CompletedErr s t 2#4 []) ∧
    (4 ≤ p.metaCap.toNat → p.dstCap.toNat < origLen →
      ∃ t, exec .lzDecompress s = .next t ∧ CompletedErr s t 4#4 []) ∧
    (4 ≤ p.metaCap.toNat → origLen ≤ p.dstCap.toNat → decoded = none →
      ∃ t, exec .lzDecompress s = .next t ∧ CompletedErr s t 3#4 [⟨p.dstAddr.toNat, origLen⟩]) ∧
    (∀ out, 4 ≤ p.metaCap.toNat → origLen ≤ p.dstCap.toNat → decoded = some out →
      ∃ t, exec .lzDecompress s = .next t ∧ out.length = origLen ∧
        CompletedOk s t origLen 0 [(p.dstAddr.toNat, out)])

/-- 42_rle.md R163: RLE_COMPRESS after the region check. -/
def Obligations.RleCompressResult : Prop :=
  decodeCommand 0x00000031#32 = .rleCompress ∧
  ∀ (s : State) (l : Latched), s.latched = some l → regionOk s.memOk l.snap = true →
    let p := l.snap
    let payload := rleCompress (memRead s.mem p.srcAddr.toNat p.srcLen.toNat)
    (p.metaCap.toNat < 4 → ∃ t, exec .rleCompress s = .next t ∧ CompletedErr s t 4#4 []) ∧
    (4 ≤ p.metaCap.toNat → p.dstCap.toNat < payload.length →
      ∃ t, exec .rleCompress s = .next t ∧
        CompletedErr s t 4#4 [⟨p.dstAddr.toNat, p.dstCap.toNat⟩, ⟨p.metaAddr.toNat, 4⟩]) ∧
    (4 ≤ p.metaCap.toNat → payload.length ≤ p.dstCap.toNat →
      ∃ t, exec .rleCompress s = .next t ∧
        CompletedOk s t payload.length 4 [(p.dstAddr.toNat, payload), (p.metaAddr.toNat, u32le p.srcLen.toNat)])

/-- 42_rle.md R167: RLE_DECOMPRESS after the region check. -/
def Obligations.RleDecompressResult : Prop :=
  decodeCommand 0x00000032#32 = .rleDecompress ∧
  ∀ (s : State) (l : Latched), s.latched = some l → regionOk s.memOk l.snap = true →
    let p := l.snap
    let origLen := fromU32le (memRead s.mem p.metaAddr.toNat 4)
    let decoded := rleDecompress origLen (memRead s.mem p.srcAddr.toNat p.srcLen.toNat)
    (p.metaCap.toNat < 4 → ∃ t, exec .rleDecompress s = .next t ∧ CompletedErr s t 2#4 []) ∧
    (4 ≤ p.metaCap.toNat → p.dstCap.toNat < origLen →
      ∃ t, exec .rleDecompress s = .next t ∧ CompletedErr s t 4#4 []) ∧
    (4 ≤ p.metaCap.toNat → origLen ≤ p.dstCap.toNat → decoded = none →
      ∃ t, exec .rleDecompress s = .next t ∧ CompletedErr s t 3#4 [⟨p.dstAddr.toNat, origLen⟩]) ∧
    (∀ out, 4 ≤ p.metaCap.toNat → origLen ≤ p.dstCap.toNat → decoded = some out →
      ∃ t, exec .rleDecompress s = .next t ∧ out.length = origLen ∧
        CompletedOk s t origLen 0 [(p.dstAddr.toNat, out)])

/-! ## The payload elements -/

/-- 40_huffman.md R119, HUF.SYM: the code's byte is appended; a code cut short, or a symbol after ORIG_LEN, is
CORRUPT_PAYLOAD (3) with damage [DST, DST + ORIG_LEN). In the element-by-element form of log 1; that bits cut short are a
HUF.SYM at all is the model's choice (log 16). -/
def Obligations.HufSymResult : Prop :=
  ∀ (s : State) (l : Latched) (x : Expansion) (code : List Bool), s.latched = some l → s.expansion = some x →
    let sym := codeSym s.tables.tree.nodes s.tables.tree.start code
    (∀ b, sym = some b → x.out.length < x.origLen →
      ∃ t, exec (.hufSym code) s = .next t ∧ Appended x [b] t ∧ ElementFrame s t) ∧
    (sym = none ∨ x.out.length = x.origLen →
      ∃ t, exec (.hufSym code) s = .next t ∧ CompletedErr s t 3#4 [⟨l.snap.dstAddr.toNat, x.origLen⟩])

/-- 41_lz77.md R146, LZ.LIT: the literal is always appended, 0x00 too, where ORIG_LEN leaves room for it (R148). In
the element-by-element form of log 1. -/
def Obligations.LzLitResult : Prop :=
  ∀ (s : State) (l : Latched) (x : Expansion) (lit : Byte), s.latched = some l → s.expansion = some x →
    x.out.length + 1 ≤ x.origLen →
    ∃ t, exec (.lzLit lit) s = .next t ∧ Appended x [lit] t ∧ ElementFrame s t

/-- 41_lz77.md R147, LZ.MATCH: LEN bytes, each the byte DIST back in the output as it grows, then LIT. In
the element-by-element form of log 1. -/
def Obligations.LzMatchResult : Prop :=
  ∀ (s : State) (l : Latched) (x : Expansion) (dist : BitVec 16) (len lit : Byte),
    s.latched = some l → s.expansion = some x →
    1 ≤ len.toNat → 1 ≤ dist.toNat → dist.toNat ≤ x.out.length → dist.toNat ≤ l.snap.window.toNat →
    x.out.length + len.toNat + 1 ≤ x.origLen →
    ∃ t copied, exec (.lzMatch dist len lit) s = .next t ∧ Appended x (copied ++ [lit]) t ∧ ElementFrame s t ∧
      copied.length = len.toNat ∧
      ∀ j < len.toNat,
        copied[j]? = (x.out ++ copied)[x.out.length + j - dist.toNat]?

/-- 41_lz77.md R148: the checks of a token, of whatever class; and LZ.REF0, which passes them, appends its LIT.
In the element-by-element form of log 1. -/
def Obligations.LzTokenValidity : Prop :=
  ∀ (s : State) (l : Latched) (x : Expansion) (dist : BitVec 16) (len lit : Byte),
    s.latched = some l → s.expansion = some x →
    ((0 < len.toNat ∧ dist.toNat = 0) ∨ x.out.length < dist.toNat ∨ l.snap.window.toNat < dist.toNat ∨
        x.origLen < x.out.length + len.toNat + 1 →
      ∃ t, exec (classifyToken dist len lit) s = .next t ∧
        CompletedErr s t 3#4 [⟨l.snap.dstAddr.toNat, x.origLen⟩]) ∧
    (0 < dist.toNat → dist.toNat ≤ x.out.length → dist.toNat ≤ l.snap.window.toNat → x.out.length + 1 ≤ x.origLen →
      ∃ t, exec (.lzRef0 dist lit) s = .next t ∧ Appended x [lit] t ∧ ElementFrame s t)

/-- The elements whose whole effect is CORRUPT_PAYLOAD (30_encoding.md R93): LZ.ILLEGAL, LZ.TRUNCATED, RLE.DANGLING.
In the element-by-element form of log 1. -/
def Obligations.IllegalElementsCorrupt : Prop :=
  ∀ (s : State) (l : Latched) (x : Expansion) (i : Instr), WellFormed i →
    (∃ len lit, i = .lzIllegal len lit) ∨ (∃ bytes, i = .lzTruncated bytes) ∨ (∃ count, i = .rleDangling count) →
    s.latched = some l → s.expansion = some x →
    ∃ t, exec i s = .next t ∧ CompletedErr s t 3#4 [⟨l.snap.dstAddr.toNat, x.origLen⟩]

/-- 42_rle.md R165, RLE.RUN: COUNT copies of VALUE, or CORRUPT_PAYLOAD before anything is appended where ORIG_LEN has no
room for them; a marker without two bytes after it is CORRUPT_PAYLOAD. In the element-by-element form of log 1. -/
def Obligations.RleRunResult : Prop :=
  (∀ (count value : Byte) (rest : List Byte),
    decodeRle (0xFF#8 :: count :: value :: rest) = .ok (.rleRun count value, rest) ∧
    decodeRle [0xFF#8, count] = .ok (.rleDangling (some count), []) ∧
    decodeRle [0xFF#8] = .ok (.rleDangling none, [])) ∧
  ∀ (s : State) (l : Latched) (x : Expansion) (count value : Byte), s.latched = some l → s.expansion = some x →
    (x.out.length + count.toNat ≤ x.origLen →
      ∃ t, exec (.rleRun count value) s = .next t ∧ Appended x (List.replicate count.toNat value) t ∧
        ElementFrame s t) ∧
    (x.origLen < x.out.length + count.toNat →
      ∃ t, exec (.rleRun count value) s = .next t ∧ CompletedErr s t 3#4 [⟨l.snap.dstAddr.toNat, x.origLen⟩]) ∧
    (∀ last, ∃ t, exec (.rleDangling last) s = .next t ∧
      CompletedErr s t 3#4 [⟨l.snap.dstAddr.toNat, x.origLen⟩])

/-- 42_rle.md R164, RLE.LIT: any byte but the marker is appended, or CORRUPT_PAYLOAD where ORIG_LEN has no room for it.
In the element-by-element form of log 1. -/
def Obligations.RleLitResult : Prop :=
  (∀ (b : Byte) (rest : List Byte), b ≠ 0xFF#8 → decodeRle (b :: rest) = .ok (.rleLit b, rest)) ∧
  ∀ (s : State) (l : Latched) (x : Expansion) (b : Byte), s.latched = some l → s.expansion = some x →
    (x.out.length + 1 ≤ x.origLen →
      ∃ t, exec (.rleLit b) s = .next t ∧ Appended x [b] t ∧ ElementFrame s t) ∧
    (x.origLen < x.out.length + 1 →
      ∃ t, exec (.rleLit b) s = .next t ∧ CompletedErr s t 3#4 [⟨l.snap.dstAddr.toNat, x.origLen⟩])

/-! ## The codecs -/

/-- 40_huffman.md R110: the table counts occurrences, and its counts sum to the length (the check of R118). -/
def Obligations.FrequencyTableCounts : Prop :=
  ∀ d : List Byte, (freq d).length = 256 ∧ (∀ b : Byte, (freq d)[b.toNat]? = some (d.count b)) ∧
    (freq d).sum = d.length

/-- 40_huffman.md R112: an extraction takes the node of the pool with the least (weight, index), a merge makes the first
extracted the left child and the second the right child of a parent with the next index, which goes into the pool, and
one node left ends it; it begins with the leaves, which are the byte values present in ascending order with their
counts. -/
def Obligations.ExtractionTakesLeast : Prop :=
  (∀ (nodes : List Node) (i : Nat) (rest : List Nat),
    lightest nodes i rest ∈ i :: rest ∧
    ∀ j ∈ i :: rest, weightAt nodes (lightest nodes i rest) < weightAt nodes j ∨
      (weightAt nodes (lightest nodes i rest) = weightAt nodes j ∧ lightest nodes i rest ≤ j)) ∧
  (∀ (fuel : Nat) (nodes : List Node) (pool : List Nat), 2 ≤ pool.length →
    ∃ a c left,
      pool.Perm (a :: c :: left) ∧
      (∀ j ∈ pool, weightAt nodes a < weightAt nodes j ∨ (weightAt nodes a = weightAt nodes j ∧ a ≤ j)) ∧
      (∀ j ∈ c :: left, weightAt nodes c < weightAt nodes j ∨ (weightAt nodes c = weightAt nodes j ∧ c ≤ j)) ∧
      mergeAll (fuel + 1) nodes pool =
        mergeAll fuel (nodes ++ [.node a c (weightAt nodes a + weightAt nodes c)]) (left ++ [nodes.length])) ∧
  (∀ (fuel : Nat) (nodes : List Node) (root : Nat), mergeAll fuel nodes [root] = (nodes, [root])) ∧
  (∀ f : List Nat, (buildTree f).nodes = (mergeAll (distinct f) (leaves 0 f) (List.range (distinct f))).1 ∧
    (buildTree f).root = (mergeAll (distinct f) (leaves 0 f) (List.range (distinct f))).2.head?) ∧
  (∀ f : List Nat, leaves 0 f =
    ((List.range f.length).filter fun b => decide (0 < f.getD b 0)).map fun b =>
      Node.leaf (BitVec.ofNat 8 b) (f.getD b 0))

/-- The facts 40_huffman.md R112 lists: with k ≥ 1 byte values present the arena has 2k − 1 nodes, the root is the last
of them, and its weight is the sum of the counts. -/
def Obligations.TreeShape : Prop :=
  ∀ f : List Nat, f.length = 256 → 1 ≤ distinct f →
    (buildTree f).k = distinct f ∧ (buildTree f).nodes.length = 2 * distinct f - 1 ∧
    (buildTree f).root = some (2 * distinct f - 2) ∧
    weightAt (buildTree f).nodes (2 * distinct f - 2) = f.sum

/-- 40_huffman.md R114, its four properties for k ≥ 2. -/
def Obligations.CodesArePrefixFree : Prop :=
  ∀ f : List Nat, f.length = 256 → 2 ≤ distinct f →
    let tree := buildTree f
    let codes := codeTable tree
    (∀ b c, (b, c) ∈ codes → 1 ≤ c.length ∧ c.length ≤ distinct f - 1) ∧
    (∀ b c b' c', (b, c) ∈ codes → (b', c') ∈ codes → c <+: c' → b = b' ∧ c = c') ∧
    (∀ b : Byte, 0 < f.getD b.toNat 0 →
      ∃ c, (b, c) ∈ codes ∧ ∀ c', (b, c') ∈ codes → c' = c) ∧
    (∀ b c, (b, c) ∈ codes → 0 < f.getD b.toNat 0) ∧
    (∀ n left right w, tree.nodes[n]? = some (Node.node left right w) → left < n ∧ right < n)

/-- The left edge of a node is 0 and the right edge 1, and a leaf has none; the walk of a code along these edges selects
the byte the code table gives it (40_huffman.md R113, 30_encoding.md R92). -/
def Obligations.CodeTableAgreesWithWalk : Prop :=
  (∀ (nodes : List Node) (n left right w : Nat), nodes[n]? = some (.node left right w) →
    treeChild nodes n false = some left ∧ treeChild nodes n true = some right) ∧
  (∀ (nodes : List Node) (n : Nat) (sym : Byte) (w : Nat) (bit : Bool), nodes[n]? = some (.leaf sym w) →
    treeChild nodes n bit = none ∧ leafSym nodes n = some sym) ∧
  (∀ (f : List Nat) (b : Byte) (c : List Bool), f.length = 256 → 2 ≤ distinct f →
    ((b, c) ∈ codeTable (buildTree f) ↔ codeSym (buildTree f).nodes (buildTree f).start c = some b))

/-- 40_huffman.md R115, 20_memory.md R51 and 30_encoding.md R88: packing pads to whole bytes with 0 to 7 bits; bit i of
the sequence is bit 7 − (i mod 8) of byte ⌊i/8⌋, and the pad bits are 0; the bits read from any payload stand at those
places too, the pad bits left out; and unpacking gives the bits back. -/
def Obligations.PackThenUnpack : Prop :=
  (∀ bits : List Bool,
    (pack bits).2 ≤ 7 ∧ 8 * (pack bits).1.length = bits.length + (pack bits).2 ∧
    (∀ i < bits.length, ((pack bits).1[i / 8]?).map (fun b => b.getLsbD (7 - i % 8)) = bits[i]?) ∧
    (∀ i, bits.length ≤ i → i < 8 * (pack bits).1.length →
      ((pack bits).1[i / 8]?).map (fun b => b.getLsbD (7 - i % 8)) = some false) ∧
    payloadBits (pack bits).1 (pack bits).2 = bits) ∧
  (∀ (payload : List Byte) (pad : Nat),
    (payloadBits payload pad).length = 8 * payload.length - pad ∧
    ∀ i < 8 * payload.length - pad,
      (payloadBits payload pad)[i]? = (payload[i / 8]?).map fun b => b.getLsbD (7 - i % 8))

/-- 40_huffman.md R116, what huf_compress returns: the frequency table always; with one byte value or none an empty payload
and padding 0; with more, the codes of the bytes in order, packed. And the round trip the source asks for (R111, R116,
R120): what huf_compress makes of any data, huf_decompress turns back into it. -/
def Obligations.HuffmanRoundTrip : Prop :=
  ∀ d : List Byte,
    (hufCompress d).freq = freq d ∧
    (distinct (freq d) ≤ 1 → (hufCompress d).payload = [] ∧ (hufCompress d).pad = 0) ∧
    (2 ≤ distinct (freq d) → ((hufCompress d).payload, (hufCompress d).pad) =
      pack (d.flatMap (codeOf (codeTable (buildTree (freq d)))))) ∧
    hufDecompress d.length (hufCompress d).pad (hufCompress d).freq (hufCompress d).payload = some d

/-- 40_huffman.md R120: with no byte value the output is empty; with one it is ORIG_LEN copies of that byte, whatever
the payload; with more it is the walk of R119. -/
def Obligations.HufDecompressPaths : Prop :=
  ∀ (f : List Nat) (origLen pad : Nat) (payload : List Byte), f.length = 256 →
    (distinct f = 0 → hufDecompress origLen pad f payload = some []) ∧
    (∀ b : Byte, distinct f = 1 → 0 < f.getD b.toNat 0 →
      hufDecompress origLen pad f payload = some (List.replicate origLen b)) ∧
    (2 ≤ distinct f → hufDecompress origLen pad f payload =
      hufWalk (buildTree f).nodes (2 * distinct f - 2) origLen (2 * distinct f - 2) [] (payloadBits payload pad))

/-- 41_lz77.md R141: best_match returns the longest match within the window and the input's end, and the nearest of the
longest; (0, 0) where there is none. -/
def Obligations.BestMatchIsLongestNearest : Prop :=
  ∀ (d : List Byte) (pos window : Nat), pos < d.length →
    let best := bestMatch d pos window
    let maxlen := min 255 (d.length - pos - 1)
    let agrees := fun (dist l : Nat) => l ≤ maxlen ∧ ∀ j < l, d[pos - dist + j]? = d[pos + j]?
    (best.1 = 0 → best.2 = 0) ∧
    (0 < best.1 → 1 ≤ best.2 ∧ best.2 ≤ min window pos ∧ agrees best.2 best.1) ∧
    (∀ dist l, 1 ≤ dist → dist ≤ min window pos → agrees dist l →
      l ≤ best.1 ∧ (dist < best.2 → l < best.1))

/-- 41_lz77.md R142 with R144: the token at a position is the LZ.LIT of its byte, which advances by one, or the LZ.MATCH
of the best match with 4 ≤ LEN ≤ 255 and 1 ≤ DIST ≤ min(W, position), which advances past the match and the literal. -/
def Obligations.LzStepEmitsLitOrMatch : Prop :=
  ∀ (d : List Byte) (pos window : Nat), pos < d.length → window ≤ 65535 →
    let best := bestMatch d pos window
    (best.1 ≤ 3 →
      decodeLz (lzStep d pos window).1 = .ok (.lzLit (d.getD pos 0#8), []) ∧ (lzStep d pos window).2 = pos + 1) ∧
    (3 < best.1 → ∃ dist len,
      decodeLz (lzStep d pos window).1 = .ok (.lzMatch dist len (d.getD (pos + best.1) 0#8), []) ∧
      dist.toNat = best.2 ∧ len.toNat = best.1 ∧ 4 ≤ len.toNat ∧ 1 ≤ dist.toNat ∧ dist.toNat ≤ min window pos ∧
      pos + best.1 < d.length ∧ (lzStep d pos window).2 = pos + best.1 + 1)

/-- 41_lz77.md R143: the token stream of any data is the tokens of lz_step from position 0 on, each followed by those from
the position after it, up to the data's end; R144: it decodes, with the same window, back to the data; R143: it has at
most four bytes for each of the data's. -/
def Obligations.LzRoundTrip : Prop :=
  (∀ (d : List Byte) (window : Nat),
    let tokens := fun pos => lzTokensFrom d window (d.length - pos) pos
    lzCompress window d = tokens 0 ∧ tokens d.length = [] ∧
    ∀ pos < d.length, tokens pos = (lzStep d pos window).1 ++ tokens (lzStep d pos window).2) ∧
  ∀ (d : List Byte) (window : Nat), window ≤ 65535 →
    lzDecompress window d.length (lzCompress window d) = some d ∧
      (lzCompress window d).length ≤ 4 * d.length ∧ (lzCompress window d).length % 4 = 0

/-- 42_rle.md R160 to R162: the run a sequence starts with goes on to the first other byte, the end, or 255; a run of four
or more is FF, count, value, a shorter run of FF is FF 01 FF for each, and any other is its bytes; the encoder goes run
after run. Its element stream of any data decodes back to the data, and has at most three bytes for each of the data's.
-/
def Obligations.RleRoundTrip : Prop :=
  (∀ (v : Byte) (rest : List Byte),
    1 ≤ runAt v rest ∧ runAt v rest ≤ 255 ∧ runAt v rest ≤ rest.length + 1 ∧
    (∀ j < runAt v rest, (v :: rest)[j]? = some v) ∧
    (runAt v rest < 255 → (v :: rest)[runAt v rest]? ≠ some v)) ∧
  (∀ (c : Nat) (v : Byte),
    (4 ≤ c → c ≤ 255 → ∃ count : Byte, count.toNat = c ∧ rleEmit c v = [0xFF#8, count, v]) ∧
    (c < 4 → v = 0xFF#8 → rleEmit c v = (List.replicate c [0xFF#8, 0x01#8, 0xFF#8]).flatten) ∧
    (c < 4 → v ≠ 0xFF#8 → rleEmit c v = List.replicate c v)) ∧
  (rleCompress [] = [] ∧
    ∀ (v : Byte) (rest : List Byte), rleCompress (v :: rest) =
      rleEmit (runAt v rest) v ++ rleCompress ((v :: rest).drop (runAt v rest))) ∧
  ∀ d : List Byte, rleDecompress d.length (rleCompress d) = some d ∧ (rleCompress d).length ≤ 3 * d.length

/-! ## Encoding -/

/-- 30_encoding.md R82 and 43_dispatch.md R185: which words are the six commands; every other word is ILLEGAL_CMD. -/
def Obligations.CommandWordsDecode : Prop :=
  ∀ w : Word, decodeCommand w =
    if w = 0x00000011#32 then .hufCompress
    else if w = 0x00000012#32 then .hufDecompress
    else if w = 0x00000021#32 then .lzCompress
    else if w = 0x00000022#32 then .lzDecompress
    else if w = 0x00000031#32 then .rleCompress
    else if w = 0x00000032#32 then .rleDecompress
    else .illegalCmd w

/-- Decode and encode agree: every well-formed instruction, encoded, decodes to itself, at the head of a payload that
goes on where its class allows that; a Huffman code is one of the tree the engine holds. -/
def Obligations.DecodeOfEncode : Prop :=
  ∀ i : Instr, WellFormed i →
    match encode i with
    | .command w => decodeCommand w = i
    | .bytes bytes =>
      ∀ rest, ((∀ b, i ≠ .lzTruncated b) ∧ (∀ c, i ≠ .rleDangling c)) ∨ rest = [] →
        decodeElement i (bytes ++ rest) = .ok (i, rest)
    | .bits bits =>
      ∀ (t : Tree) (b : Byte) (rest : List Bool), codeSym t.nodes t.start bits = some b →
        decodeHuf t (bits ++ rest) = .ok (i, rest)

/-- 43_dispatch.md R191: the elements a decompress fetches are the payload's bytes and bits in order, none skipped and
none read twice, and each is an instruction of the opcode table. -/
def Obligations.ElementsPartitionPayload : Prop :=
  (∀ (payload rest : List Byte) (i : Instr), decodeLz payload = .ok (i, rest) →
    WellFormed i ∧ ∃ bytes, encode i = .bytes bytes ∧ bytes ≠ [] ∧ payload = bytes ++ rest) ∧
  (∀ (payload rest : List Byte) (i : Instr), decodeRle payload = .ok (i, rest) →
    WellFormed i ∧ ∃ bytes, encode i = .bytes bytes ∧ bytes ≠ [] ∧ payload = bytes ++ rest) ∧
  (∀ (t : Tree) (payload rest : List Bool) (i : Instr), decodeHuf t payload = .ok (i, rest) →
    ∃ bits, i = .hufSym bits ∧ bits ≠ [] ∧ payload = bits ++ rest)

/-- Words written out from the encodings of 30_encoding.md R82, R89 and R91 decode to the instruction they stand for. And
the byte order of a record's fields (00_scope.md R12, 20_memory.md R52, 30_encoding.md R87): u32le has the least
significant byte first, from_u32le is its inverse, and MemRead gives the bytes of memory in ascending order. -/
def Obligations.SampleWordsDecode : Prop :=
  decodeCommand 0x00000021#32 = .lzCompress ∧
  decodeCommand 0x00000111#32 = .illegalCmd 0x00000111#32 ∧
  decodeLz [0x00#8, 0x04#8, 0x04#8, 0x45#8] = .ok (.lzMatch 0x0004#16 0x04#8 0x45#8, []) ∧
  decodeLz [0x01#8, 0x02#8, 0x00#8, 0x45#8] = .ok (.lzRef0 0x0102#16 0x45#8, []) ∧
  decodeRle [0xFF#8, 0x2D#8, 0x41#8, 0x42#8] = .ok (.rleRun 0x2D#8 0x41#8, [0x42#8]) ∧
  decodeHuf { nodes := [Node.leaf 0x41#8 1, Node.leaf 0x42#8 1, Node.node 0 1 2], root := some 2, k := 2 }
    [true, false] = .ok (.hufSym [true], [false]) ∧
  (∀ v < 4294967296, ∃ b0 b1 b2 b3 : Byte, u32le v = [b0, b1, b2, b3] ∧
    v = b0.toNat + 256 * b1.toNat + 65536 * b2.toNat + 16777216 * b3.toNat ∧ fromU32le (u32le v) = v) ∧
  (∀ b0 b1 b2 b3 : Byte,
    fromU32le [b0, b1, b2, b3] = b0.toNat + 256 * b1.toNat + 65536 * b2.toNat + 16777216 * b3.toNat) ∧
  (∀ (m : Memory) (a n : Nat), (memRead m a n).length = n ∧
    ∀ k < n, (memRead m a n)[k]? = some (Memory.read m (a + k)))

/-! ## Element by element -/

/-- LZ_DECOMPRESS in its one step ends in the same state as its payload executed element by element (30_encoding.md R80,
43_dispatch.md R191). The element-by-element form is the model's choice (log 1), as is that a payload whose length is no
multiple of 4 is found corrupt at its LZ.TRUNCATED there (log 20). -/
def Obligations.LzDecompressIsElementwise : Prop :=
  ∀ (s : State) (l : Latched), s.phase = .busy → s.latched = some l → s.expansion = none →
    ∃ u n t, openLz s = .next u ∧ engineTurns n u = .next t ∧ exec .lzDecompress s = .next t

/-- RLE_DECOMPRESS in its one step ends in the same state as its payload executed element by element (30_encoding.md R80,
43_dispatch.md R191). The element-by-element form is the model's choice (log 1). -/
def Obligations.RleDecompressIsElementwise : Prop :=
  ∀ (s : State) (l : Latched), s.phase = .busy → s.latched = some l → s.expansion = none →
    ∃ u n t, openRle s = .next u ∧ engineTurns n u = .next t ∧ exec .rleDecompress s = .next t

/-- HUF_DECOMPRESS in its one step ends in the same state as its payload executed code by code (30_encoding.md R80,
43_dispatch.md R191). The element-by-element form is the model's choice (log 1), and so is that bits cut short are an
element of it (log 16). -/
def Obligations.HufDecompressIsElementwise : Prop :=
  ∀ (s : State) (l : Latched), s.phase = .busy → s.latched = some l → s.expansion = none →
    ∃ u n t, openHuf s = .next u ∧ engineTurns n u = .next t ∧ exec .hufDecompress s = .next t

/-! ## Host scripts -/

/-- 30_encoding.md R96: `run` writes the six region registers and CMD, which accepts the command with those operands
and the window as it stands; `ack` clears DONE, ERR and OVR; `setwin` sets the window. -/
def Obligations.PseudoOperationsExpand : Prop :=
  (∀ (s : State) (op : Word) (p : Params) (rest : List Event), s.phase = .idle → s.pending = scriptRun op p ++ rest →
    ∃ t, core.run 7 s = .next t ∧ t.phase = .busy ∧
      t.latched = some { word := op, snap := { p with window := s.params.window } } ∧
      t.params = { p with window := s.params.window } ∧ t.mem = s.mem ∧ t.pending = .waitIdle :: rest) ∧
  (∀ (s : State) (rest : List Event), s.pending = scriptAck ++ rest →
    step s = .next { s with pending := rest, status := { s.status with doneBit := false, err := false, ovr := false } }) ∧
  (∀ (s : State) (w : Word) (rest : List Event), s.pending = scriptSetwin w ++ rest →
    ∃ t, step s = .next t ∧ t.params.window = w.extractLsb' 0 16 ∧ t.pending = rest)

/-- 30_encoding.md R95, `wait.idle` under the fairness of 43_dispatch.md R189: the command completes, and the poll that
then finds BUSY = 0 ends the wait. That the poll gives a BUSY engine its turn is the model's choice (log 7), and so is that
the poll that ends the wait empties the list of commands the host has not seen complete (log 8). -/
def Obligations.WaitIdleEnds : Prop :=
  ∀ (s : State) (l : Latched) (rest : List Event), s.Coherent → s.phase = .busy → s.expansion = none →
    s.latched = some l → s.pending = .waitIdle :: rest →
    ∃ t u, step s = .next t ∧ t.phase = .idle ∧ step t = .next u ∧ u.pending = rest ∧ u.phase = .idle ∧
      u.responses = s.responses ++ [.mmio 0x08 t.status.toWord] ∧ t.status.toWord.getLsbD 0 = false ∧
      u.unobserved = []

/-! ## The whole machine -/

/-- The state after reset is coherent. -/
def Obligations.ResetIsCoherent : Prop := State.reset.Coherent

/-- Every step keeps a state coherent: canonical memory, phase and STATUS.BUSY and the latch in agreement (10_state.md
R37), legal codes (60_exceptions.md R200), the lengths of R35 and R36, the running command among those whose regions the
host may not write (70_reset_and_hazards.md R235; log 8), and of R39 the sizes of the internal tables and the output
cursor, which is the number of bytes a running decompress has emitted. -/
def Obligations.StepKeepsCoherence : Prop :=
  ∀ s t : State, s.Coherent → step s = .next t → t.Coherent

/-- From a coherent state no step ends in a fault but a host access past the end of memory: a failing command is a
completion (60_exceptions.md R206). -/
def Obligations.OnlyOutsideAccessFaults : Prop :=
  ∀ (s : State) (r : Fault), s.Coherent → step s = .fault r →
    r = .outsideMemory ∧
      ∃ rest addr, (∃ bytes, s.pending = .memWrite addr bytes :: rest ∧ 4294967296 < addr.toNat + bytes.length) ∨
        (∃ n, s.pending = .memRead addr n :: rest ∧ 4294967296 < addr.toNat + n)

/-- 20_memory.md R56: the engine writes only bytes of its DST and META regions, and never a byte of SRC. -/
def Obligations.EngineWritesOnlyItsRegions : Prop :=
  ∀ (s t : State) (l : Latched), s.Coherent → s.latched = some l → engineTurn s = .next t →
    ∀ a, (l.snap.dstRegion.has a = false ∧ l.snap.metaRegion.has a = false) ∨ l.snap.srcRegion.has a = true →
      Memory.read t.mem a = Memory.read s.mem a

/-- 10_state.md R40: the result of a command is a function of its word, its snapshot and the memory in its regions, and
of nothing else. -/
def Obligations.ResultDependsOnCommandAlone : Prop :=
  ∀ (s s' t t' : State) (l : Latched), s.phase = .busy → s'.phase = .busy → s.expansion = none →
    s'.expansion = none → s.latched = some l → s'.latched = some l → s.memOk = s'.memOk →
    SameBytes l.snap.srcRegion s.mem s'.mem → SameBytes l.snap.metaRegion s.mem s'.mem →
    engineTurn s = .next t → engineTurn s' = .next t' →
    t.status.errCode = t'.status.errCode ∧ t.status.err = t'.status.err ∧ t.outLen = t'.outLen ∧
      t.metaLen = t'.metaLen ∧
      (t.status.err = false →
        (∀ a, l.snap.dstAddr.toNat ≤ a → a < l.snap.dstAddr.toNat + t.outLen.toNat →
          Memory.read t.mem a = Memory.read t'.mem a) ∧
        (∀ a, l.snap.metaAddr.toNat ≤ a → a < l.snap.metaAddr.toNat + t.metaLen.toNat →
          Memory.read t.mem a = Memory.read t'.mem a))

/-- 00_scope.md R7, 43_dispatch.md R190: the platform's mem_ok is fixed, and CAPS is constant: it lists huffman, lz77,
rle, and no step changes either. -/
def Obligations.PlatformIsConstant : Prop :=
  listAll (readReg .caps State.reset) = [.huffman, .lz77, .rle] ∧
  ∀ s t : State, step s = .next t → t.memOk = s.memOk ∧ readReg .caps t = readReg .caps s
end

