-- ==== Sys2Proof/Laws/Memory.lean ====
section
/-!
SUPPORT. Data memory: what a read answers after a write, and that every operation keeps the canonical form.
-/

namespace Sys2Proof.Machine

/-! ## One byte -/

@[simp] theorem Memory.read_nil (a : Nat) : Memory.read [] a = 0#8 := rfl

theorem Memory.read_cons (k : Nat) (v : Byte) (m : Memory) (a : Nat) :
    Memory.read ((k, v) :: m) a = if k = a then v else Memory.read m a := rfl

theorem Memory.read_insert (a : Nat) (v : Byte) (m : Memory) (b : Nat) :
    Memory.read (Memory.insert a v m) b = if a = b then v else Memory.read m b := by
  induction m with
  | nil => rfl
  | cons c m ih =>
    obtain ⟨k, w⟩ := c
    simp only [Memory.insert]
    by_cases h1 : a < k
    · simp [h1, Memory.read_cons]
    · by_cases h2 : a = k
      · subst h2
        simp only [Nat.lt_irrefl, if_false, if_true, Memory.read_cons]
        split <;> rfl
      · simp only [h1, h2, if_false, Memory.read_cons, ih]
        by_cases h3 : k = b
        · have : a ≠ b := by omega
          simp [h3, this]
        · simp [h3]

theorem Memory.read_filter_ne (a : Nat) (m : Memory) (b : Nat) :
    Memory.read (m.filter fun c => decide (c.1 ≠ a)) b = if a = b then 0#8 else Memory.read m b := by
  induction m with
  | nil => simp [Memory.read, Memory.blank]
  | cons c m ih =>
    obtain ⟨k, w⟩ := c
    by_cases h : k = a
    · subst h
      have : List.filter (fun c : Nat × Byte => decide (c.1 ≠ k)) ((k, w) :: m) =
          List.filter (fun c => decide (c.1 ≠ k)) m := by simp
      rw [this, ih, Memory.read_cons]
      split <;> rfl
    · have : List.filter (fun c : Nat × Byte => decide (c.1 ≠ a)) ((k, w) :: m) =
          (k, w) :: List.filter (fun c => decide (c.1 ≠ a)) m := by simp [h]
      rw [this, Memory.read_cons, ih, Memory.read_cons]
      by_cases h3 : k = b
      · have : a ≠ b := by omega
        simp [h3, this]
      · simp [h3]

/-- What a read answers after a write: the byte written, or what it answered before. -/
theorem Memory.read_write (m : Memory) (a : Nat) (v : Byte) (b : Nat) :
    Memory.read (Memory.write m a v) b = if a = b ∧ b < Config.memorySize then v else Memory.read m b := by
  unfold Memory.write
  by_cases h : Config.memorySize ≤ a
  · have : ¬ (a = b ∧ b < Config.memorySize) := by omega
    simp [h, this]
  · rw [if_neg h]
    by_cases hb : a = b
    · subst hb
      have h' : a < Config.memorySize := by omega
      split
      · next hv => rw [Memory.read_filter_ne]; simp [h', hv, Memory.blank]
      · rw [Memory.read_insert]; simp [h']
    · split
      · rw [Memory.read_filter_ne]; simp [hb]
      · rw [Memory.read_insert]; simp [hb]

theorem Memory.read_write_same (m : Memory) {a : Nat} (v : Byte) (h : a < Config.memorySize) :
    Memory.read (Memory.write m a v) a = v := by simp [Memory.read_write, h]

theorem Memory.read_write_other (m : Memory) {a b : Nat} (v : Byte) (h : a ≠ b) :
    Memory.read (Memory.write m a v) b = Memory.read m b := by simp [Memory.read_write, h]

/-! ## The canonical form -/

theorem Memory.mem_insert {a : Nat} {v : Byte} {m : Memory} {c : Host.Cell} (h : c ∈ Memory.insert a v m) :
    c = (a, v) ∨ c ∈ m := by
  induction m with
  | nil => simpa [Memory.insert] using h
  | cons d m ih =>
    obtain ⟨k, w⟩ := d
    simp only [Memory.insert] at h
    split at h
    · simpa using h
    · split at h
      · simp only [List.mem_cons] at h ⊢
        rcases h with h | h
        · exact .inl h
        · exact .inr (.inr h)
      · simp only [List.mem_cons] at h ⊢
        rcases h with h | h
        · exact .inr (.inl h)
        · rcases ih h with h | h
          · exact .inl h
          · exact .inr (.inr h)

theorem Memory.sorted_insert (a : Nat) (v : Byte) (m : Memory) (h : m.Pairwise fun c d => c.1 < d.1) :
    (Memory.insert a v m).Pairwise fun c d => c.1 < d.1 := by
  induction m with
  | nil => simp [Memory.insert]
  | cons c m ih =>
    obtain ⟨k, w⟩ := c
    rw [List.pairwise_cons] at h
    simp only [Memory.insert]
    split
    · next hlt =>
      rw [List.pairwise_cons]
      refine ⟨fun d hd => ?_, List.pairwise_cons.mpr h⟩
      rcases List.mem_cons.mp hd with rfl | hd
      · exact hlt
      · exact Nat.lt_trans hlt (h.1 d hd)
    · split
      · next heq => subst heq; exact List.pairwise_cons.mpr h
      · next h1 h2 =>
        rw [List.pairwise_cons]
        refine ⟨fun d hd => ?_, ih h.2⟩
        rcases Memory.mem_insert hd with rfl | hd
        · show k < a
          omega
        · exact h.1 d hd

/-- A write keeps the canonical form. -/
theorem Memory.write_wf (m : Memory) (a : Nat) (v : Byte) (h : Memory.wf m) : Memory.wf (Memory.write m a v) := by
  unfold Memory.write
  split
  · exact h
  · next ha =>
    split
    · exact ⟨h.1.filter _, fun c hc => h.2 c (List.mem_filter.mp hc).1⟩
    · next hv =>
      refine ⟨Memory.sorted_insert a v m h.1, fun c hc => ?_⟩
      rcases Memory.mem_insert hc with rfl | hc
      · exact ⟨hv, Nat.lt_of_not_le ha⟩
      · exact h.2 c hc

/-! ## Sequences of bytes -/

theorem memWrite_wf (bs : List Byte) (m : Memory) (a : Nat) (h : Memory.wf m) : Memory.wf (memWrite m a bs) := by
  induction bs generalizing m a with
  | nil => exact h
  | cons b bs ih => exact ih _ _ (Memory.write_wf m a b h)

theorem writeCells_wf (cells : List (Nat × Byte)) (m : Memory) (h : Memory.wf m) : Memory.wf (writeCells m cells) := by
  induction cells generalizing m with
  | nil => exact h
  | cons c cells ih => exact ih _ (Memory.write_wf m c.1 c.2 h)

theorem memWrites_wf (ws : List (Nat × List Byte)) (m : Memory) (h : Memory.wf m) :
    Memory.wf (ws.foldl (fun m w => memWrite m w.1 w.2) m) := by
  induction ws generalizing m with
  | nil => exact h
  | cons w ws ih => exact ih _ (memWrite_wf w.2 m w.1 h)

/-- Outside the bytes stored, a sequence of writes leaves memory alone. -/
theorem read_memWrite_outside (bs : List Byte) (m : Memory) (a b : Nat) (h : b < a ∨ a + bs.length ≤ b) :
    Memory.read (memWrite m a bs) b = Memory.read m b := by
  induction bs generalizing m a with
  | nil => rfl
  | cons c bs ih =>
    simp only [List.length_cons] at h
    simp only [memWrite]
    rw [ih _ _ (by omega), Memory.read_write_other _ _ (by omega)]

/-- Inside, it answers the byte stored there. -/
theorem read_memWrite_inside (bs : List Byte) (m : Memory) (a i : Nat) (hi : i < bs.length)
    (h : a + bs.length ≤ Config.memorySize) : Memory.read (memWrite m a bs) (a + i) = bs.getD i 0#8 := by
  induction bs generalizing m a i with
  | nil => simp at hi
  | cons c bs ih =>
    simp only [List.length_cons] at hi h
    simp only [memWrite]
    cases i with
    | zero =>
      rw [read_memWrite_outside _ _ _ _ (by omega), Nat.add_zero, Memory.read_write_same _ _ (by omega)]
      rfl
    | succ i =>
      have := ih (Memory.write m a c) (a + 1) i (by omega) (by omega)
      rw [show a + (i + 1) = a + 1 + i by omega, this]
      rfl

/-- A read of an address that no cell names. -/
theorem read_writeCells_outside (cells : List (Nat × Byte)) (m : Memory) (b : Nat) (h : ∀ c ∈ cells, c.1 ≠ b) :
    Memory.read (writeCells m cells) b = Memory.read m b := by
  induction cells generalizing m with
  | nil => rfl
  | cons c cells ih =>
    have := ih (Memory.write m c.1 c.2) fun d hd => h d (List.mem_cons_of_mem _ hd)
    exact this.trans (Memory.read_write_other _ _ (h c (List.mem_cons_self ..)))

@[simp] theorem memRead_length (m : Memory) (a n : Nat) : (memRead m a n).length = n := by simp [memRead]

/-- A read of a sequence answers byte by byte. -/
theorem memRead_getElem? (m : Memory) (a n i : Nat) (h : i < n) :
    (memRead m a n)[i]? = some (Memory.read m (a + i)) := by
  simp [memRead, List.getElem?_range', h]

/-- MemRead after MemWrite of the same bytes. -/
theorem memRead_memWrite (bs : List Byte) (m : Memory) (a : Nat) (h : a + bs.length ≤ Config.memorySize) :
    memRead (memWrite m a bs) a bs.length = bs := by
  apply List.ext_getElem?
  intro i
  by_cases hi : i < bs.length
  · rw [memRead_getElem? _ _ _ _ hi, read_memWrite_inside _ _ _ _ hi h]
    simp [List.getD_eq_getElem?_getD, List.getElem?_eq_getElem hi]
  · rw [List.getElem?_eq_none (by simpa using hi), List.getElem?_eq_none (by simpa using hi)]

/-! ## Regions -/

theorem Span.has_iff (r : Span) (a : Nat) : r.has a = true ↔ r.base ≤ a ∧ a < r.base + r.len := by simp [Span.has]

theorem Span.mem_addrs (r : Span) (a : Nat) : a ∈ r.addrs ↔ r.base ≤ a ∧ a < r.base + r.len := by
  simp [Span.addrs]

@[simp] theorem srcData_length (p : Params) (m : Memory) : (srcData p m).length = p.srcLen.toNat := by simp [srcData]

@[simp] theorem u32le_length (v : Nat) : (u32le v).length = 4 := rfl

/-- A 32-bit value survives its little-endian form. -/
theorem fromU32le_u32le (v : Nat) (h : v < 4294967296) : fromU32le (u32le v) = v := by
  simp [fromU32le, u32le]
  omega

end Sys2Proof.Machine
end

