-- ==== Sys2Proof/Laws/Codec.lean ====
section
/-!
SUPPORT. Lengths and first facts of the codecs' pure functions.
-/

namespace Sys2Proof.Machine

/-! ## LZ77 tokens -/

/-- A token that passes the checks of 41_lz77.md R148. -/
theorem lzCorrupt_eq_false {window origLen cursor dist len : Nat} :
    lzCorrupt window origLen cursor dist len = false ↔
      ¬ (0 < len ∧ dist = 0) ∧ dist ≤ cursor ∧ dist ≤ window ∧ cursor + len + 1 ≤ origLen := by
  simp only [lzCorrupt, Bool.or_eq_false_iff, Bool.and_eq_false_iff, decide_eq_false_iff_not]
  omega

/-- Its expansion. -/
theorem lzExpand_ok {window origLen : Nat} {out : List Byte} {dist len : Nat} {lit : Byte}
    (h : lzCorrupt window origLen out.length dist len = false) :
    lzExpand window origLen out dist len lit = some (lzCopy dist len out ++ [lit]) := by
  unfold lzExpand
  rw [if_neg (by simp [h])]
  split
  · next h => subst h; rfl
  · rfl

theorem lzCopy_length (dist : Nat) : ∀ (n : Nat) (out : List Byte), (lzCopy dist n out).length = out.length + n
  | 0, _ => rfl
  | n + 1, out => by rw [lzCopy, lzCopy_length dist n]; simp only [List.length_append, List.length_singleton]; omega

/-- The bytes a copy appends: each is the byte `dist` back in the output as it grows. -/
theorem lzCopy_append (dist : Nat) : ∀ (n : Nat) (out : List Byte), 1 ≤ dist → dist ≤ out.length →
    ∃ copied, lzCopy dist n out = out ++ copied ∧ copied.length = n ∧
      ∀ j < n, copied[j]? = (out ++ copied)[out.length + j - dist]? := by
  intro n
  induction n with
  | zero => intro out _ _; exact ⟨[], by simp [lzCopy], rfl, by simp⟩
  | succ n ih =>
    intro out h1 h2
    obtain ⟨bs, hbs, hl, hj⟩ := ih (out ++ [out.getD (out.length - dist) 0#8]) h1 (by simp; omega)
    refine ⟨out.getD (out.length - dist) 0#8 :: bs, by rw [lzCopy, hbs, List.append_assoc]; rfl,
      by rw [List.length_cons, hl], ?_⟩
    intro j hjn
    cases j with
    | zero =>
      have : out.length - dist < out.length := by omega
      simp [List.getD_eq_getElem?_getD, List.getElem?_append_left this, List.getElem?_eq_getElem this]
    | succ j =>
      have := hj j (by omega)
      rw [List.getElem?_cons_succ, this]
      simp only [List.append_assoc, List.singleton_append, List.length_append, List.length_singleton]
      congr 1
      omega

theorem lzExpand_length_le {window origLen : Nat} {out out' : List Byte} {dist len : Nat} {lit : Byte}
    (h : lzExpand window origLen out dist len lit = some out') : out'.length ≤ origLen := by
  by_cases hc : lzCorrupt window origLen out.length dist len = true
  · simp [lzExpand, hc] at h
  · rw [Bool.not_eq_true] at hc
    rw [lzExpand_ok hc] at h
    rw [lzCorrupt_eq_false] at hc
    cases h
    rw [List.length_append, lzCopy_length, List.length_singleton]
    omega

theorem lzDecompress_length {window origLen : Nat} {payload out : List Byte}
    (h : lzDecompress window origLen payload = some out) : out.length = origLen := by
  unfold lzDecompress at h
  split at h
  · cases h
  · split at h
    · cases h
    · split at h
      · cases h; assumption
      · cases h

/-! ## RLE elements -/

theorem rleExpand_length_le {origLen : Nat} {out out' : List Byte} {c : Nat} {v : Byte}
    (h : rleExpand origLen out c v = some out') : out'.length ≤ origLen := by
  unfold rleExpand at h
  split at h
  · cases h
  · cases h
    simp only [List.length_append, List.length_replicate]
    omega

theorem rleDecompress_length {origLen : Nat} {payload out : List Byte}
    (h : rleDecompress origLen payload = some out) : out.length = origLen := by
  unfold rleDecompress at h
  split at h
  · cases h
  · split at h
    · cases h; assumption
    · cases h

/-! ## Huffman -/

@[simp] theorem freq_length (d : List Byte) : (freq d).length = 256 := by
  rw [freq, List.length_map, List.length_range]

@[simp] theorem hufCompress_freq (d : List Byte) : (hufCompress d).freq = freq d := by
  unfold hufCompress hufEncode; split <;> rfl

theorem flatMap_u32le_length (f : List Nat) : (f.flatMap u32le).length = 4 * f.length := by
  induction f with
  | nil => rfl
  | cons a f ih => simp only [List.flatMap_cons, List.length_append, u32le_length, ih, List.length_cons]; omega

/-- A Huffman record has 1032 bytes (30_encoding.md R85). -/
theorem hufRecord_length (origLen : Nat) {e : HufEncoded} (h : e.freq.length = 256) :
    (hufRecord origLen e).length = 1032 := by
  simp only [hufRecord, List.length_append, u32le_length, flatMap_u32le_length, h]

/-- There is one leaf for each byte value present. -/
theorem leaves_length (f : List Nat) (b : Nat) : (leaves b f).length = distinct f := by
  induction f generalizing b with
  | nil => rfl
  | cons w f ih =>
    simp only [leaves, distinct, List.countP_cons] at *
    split
    · next h => simp [ih, h]
    · next h => simp [ih, h]

@[simp] theorem buildTree_k (f : List Nat) : (buildTree f).k = distinct f := leaves_length f 0

theorem hufWalk_length {nodes : List Node} {root origLen : Nat} : ∀ (bits : List Bool) (cur : Nat) (out out' : List Byte),
    hufWalk nodes root origLen cur out bits = some out' → out'.length = origLen := by
  intro bits
  induction bits with
  | nil =>
    intro cur out out' h
    simp only [hufWalk] at h
    split at h
    · next hh => cases h; exact hh.2
    · cases h
  | cons b bits ih =>
    intro cur out out' h
    simp only [hufWalk] at h
    split at h
    · cases h
    · split at h
      · exact ih _ _ _ h
      · split at h
        · cases h
        · exact ih _ _ _ h

theorem sum_eq_zero_of_distinct {f : List Nat} (h : distinct f = 0) : f.sum = 0 := by
  simp only [distinct, List.countP_eq_zero, decide_eq_true_eq, Nat.not_lt, Nat.le_zero] at h
  exact List.sum_eq_zero h

theorem hufDecompress_length {origLen pad : Nat} {f : List Nat} {payload out : List Byte} (hs : f.sum = origLen)
    (h : hufDecompress origLen pad f payload = some out) : out.length = origLen := by
  unfold hufDecompress hufDecode at h
  split at h
  · next hk =>
    cases h
    rw [buildTree_k] at hk
    simp [← hs, sum_eq_zero_of_distinct hk]
  · split at h
    · simp only [Option.map_eq_some_iff] at h
      obtain ⟨b, -, rfl⟩ := h
      simp
    · exact hufWalk_length _ _ _ _ h

/-- The sum check of 40_huffman.md R118. -/
theorem hufMetaOk_sum {p : Params} {m : Memory} (h : hufMetaOk p m = true) :
    (metaFreq p m).sum = metaOrigLen p m := by
  simp only [hufMetaOk, Bool.and_eq_true, decide_eq_true_eq] at h
  exact h.1.2

/-! ## Records -/

/-- A slice of a record that has been read whole. -/
theorem memRead_slice (m : Memory) (a n o k : Nat) (h : o + k ≤ n) :
    ((memRead m a n).drop o).take k = memRead m (a + o) k := by
  apply List.ext_getElem?
  intro i
  by_cases hi : i < k
  · rw [memRead_getElem? _ _ _ _ hi, List.getElem?_take_of_lt hi, List.getElem?_drop,
      memRead_getElem? _ _ _ _ (by omega), Nat.add_assoc]
  · rw [List.getElem?_eq_none, List.getElem?_eq_none]
    · simp; omega
    · simp; omega

/-- Fields of a record stand four bytes apart. -/
theorem drop_flatMap_u32le (f : List Nat) (i : Nat) : (f.flatMap u32le).drop (4 * i) = (f.drop i).flatMap u32le := by
  induction f generalizing i with
  | nil => simp
  | cons v f ih =>
    cases i with
    | zero => rfl
    | succ i => simpa [u32le, Nat.mul_succ, List.drop_drop] using ih i

/-- The field of a Huffman record for a byte value is its count (30_encoding.md R85). -/
theorem recordField_record (a b : Nat) (f : List Nat) (i v : Nat) (hv : f[i]? = some v) (h : v < 4294967296) :
    recordField (u32le a ++ u32le b ++ f.flatMap u32le) (8 + 4 * i) = v := by
  have hd : (u32le a ++ u32le b ++ f.flatMap u32le).drop (8 + 4 * i) = (f.drop i).flatMap u32le := by
    rw [← List.drop_drop, ← drop_flatMap_u32le]; rfl
  have hf : f.drop i = v :: f.drop (i + 1) := by
    obtain ⟨hi, rfl⟩ := List.getElem?_eq_some_iff.1 hv
    exact List.drop_eq_getElem_cons hi
  rw [recordField, hd, hf, List.flatMap_cons]
  have ht : (u32le v ++ (f.drop (i + 1)).flatMap u32le).take 4 = u32le v := rfl
  rw [ht, fromU32le_u32le v h]

/-- A Huffman record of 256 counts reads back as those counts. -/
theorem recordFreq_record (a b : Nat) (f : List Nat) (hl : f.length = 256) (hf : ∀ v ∈ f, v < 4294967296) :
    recordFreq (u32le a ++ u32le b ++ f.flatMap u32le) = f := by
  apply List.ext_getElem
  · simp [recordFreq, hl]
  · intro i h1 h2
    simp only [recordFreq, List.getElem_map, List.getElem_range]
    exact recordField_record a b f i _ (List.getElem?_eq_getElem h2) (hf _ (List.getElem_mem h2))
end Sys2Proof.Machine
end

