-- ==== Sys2Proof/Laws/Huffman.lean ====
section
/-!
SUPPORT. The prefix tree (40_huffman.md R112, R113): the codes below a node of an arena whose children lie before
their parents, and what the merges of the tree construction keep.
-/

namespace Sys2Proof.Machine

/-! ## The codes below a node -/

/-- Children lie before their parents. -/
def ArenaOk (nodes : List Node) : Prop :=
  ∀ n left right w, nodes[n]? = some (Node.node left right w) → left < n ∧ right < n

/-- The codes below a node, with as much fuel as they need. -/
def codesAt (nodes : List Node) (n : Nat) : List (Byte × List Bool) := codesBelow (n + 1) nodes n []

theorem codesBelow_path (nodes : List Node) : ∀ (fuel n : Nat) (path : List Bool),
    codesBelow fuel nodes n path = (codesBelow fuel nodes n []).map fun x => (x.1, path ++ x.2) := by
  intro fuel
  induction fuel with
  | zero => intros; rfl
  | succ fuel ih =>
    intro n path
    simp only [codesBelow]
    split
    · rfl
    · simp
    · next left right w h =>
      rw [ih left (path ++ [false]), ih right (path ++ [true]), ih left ([] ++ [false]), ih right ([] ++ [true])]
      simp only [List.map_append, List.map_map, List.nil_append]
      congr 1 <;> apply List.map_congr_left <;> simp

theorem codesBelow_fuel {nodes : List Node} (ho : ArenaOk nodes) : ∀ (fuel n : Nat) (path : List Bool), n < fuel →
    codesBelow fuel nodes n path = codesBelow (n + 1) nodes n path := by
  intro fuel
  induction fuel using Nat.strong_induction_on with
  | _ fuel ih =>
    intro n path hn
    obtain ⟨fuel, rfl⟩ : ∃ g, fuel = g + 1 := ⟨fuel - 1, by omega⟩
    simp only [codesBelow]
    split
    · rfl
    · rfl
    · next left right w h =>
      obtain ⟨hl, hr⟩ := ho _ _ _ _ h
      rw [ih fuel (by omega) left _ (by omega), ih fuel (by omega) right _ (by omega)]
      by_cases e : n = fuel
      · subst e
        rw [ih n (by omega) left _ (by omega), ih n (by omega) right _ (by omega)]
      · rw [ih n (by omega) left _ (by omega), ih n (by omega) right _ (by omega)]

theorem codesAt_none {nodes : List Node} {n : Nat} (h : nodes[n]? = none) : codesAt nodes n = [] := by
  simp only [codesAt, codesBelow, h]

theorem codesAt_leaf {nodes : List Node} {n : Nat} {sym : Byte} {w : Nat} (h : nodes[n]? = some (.leaf sym w)) :
    codesAt nodes n = [(sym, [])] := by
  simp only [codesAt, codesBelow, h]

theorem codesAt_node {nodes : List Node} (ho : ArenaOk nodes) {n left right w : Nat}
    (h : nodes[n]? = some (.node left right w)) :
    codesAt nodes n =
      (codesAt nodes left).map (fun x => (x.1, false :: x.2)) ++ (codesAt nodes right).map fun x => (x.1, true :: x.2) := by
  obtain ⟨hl, hr⟩ := ho _ _ _ _ h
  simp only [codesAt, codesBelow, h, List.nil_append]
  rw [codesBelow_path nodes n left, codesBelow_path nodes n right, codesBelow_fuel ho n left _ hl,
    codesBelow_fuel ho n right _ hr]
  rfl

theorem mem_codesAt_node {nodes : List Node} (ho : ArenaOk nodes) {n left right w : Nat}
    (h : nodes[n]? = some (.node left right w)) (b : Byte) (code : List Bool) :
    (b, code) ∈ codesAt nodes n ↔
      ∃ rest, (code = false :: rest ∧ (b, rest) ∈ codesAt nodes left) ∨
        (code = true :: rest ∧ (b, rest) ∈ codesAt nodes right) := by
  rw [codesAt_node ho h]
  simp only [List.mem_append, List.mem_map, Prod.mk.injEq, Prod.exists]
  constructor
  · rintro (⟨b', r, hm, rfl, rfl⟩ | ⟨b', r, hm, rfl, rfl⟩)
    · exact ⟨r, .inl ⟨rfl, hm⟩⟩
    · exact ⟨r, .inr ⟨rfl, hm⟩⟩
  · rintro ⟨r, ⟨rfl, hm⟩ | ⟨rfl, hm⟩⟩
    · exact .inl ⟨b, r, hm, rfl, rfl⟩
    · exact .inr ⟨b, r, hm, rfl, rfl⟩

/-- A code that starts another code of the same tree is that code. -/
theorem codesAt_prefixFree {nodes : List Node} (ho : ArenaOk nodes) : ∀ (n : Nat) (b b' : Byte) (code code' : List Bool),
    (b, code) ∈ codesAt nodes n → (b', code') ∈ codesAt nodes n → code <+: code' → b = b' ∧ code = code' := by
  intro n
  induction n using Nat.strong_induction_on with
  | _ n ih =>
    intro b b' code code' h h' hp
    cases hn : nodes[n]? with
    | none => simp [codesAt_none hn] at h
    | some node =>
      cases node with
      | leaf sym w =>
        simp only [codesAt_leaf hn, List.mem_singleton, Prod.mk.injEq] at h h'
        exact ⟨h.1.trans h'.1.symm, h.2.trans h'.2.symm⟩
      | node left right w =>
        obtain ⟨hl, hr⟩ := ho _ _ _ _ hn
        rw [mem_codesAt_node ho hn] at h h'
        obtain ⟨r, ⟨rfl, h⟩ | ⟨rfl, h⟩⟩ := h <;> obtain ⟨r', ⟨rfl, h'⟩ | ⟨rfl, h'⟩⟩ := h' <;>
          simp only [List.cons_prefix_cons, reduceCtorEq, false_and, true_and] at hp
        · obtain ⟨rfl, rfl⟩ := ih left hl _ _ _ _ h h' hp
          exact ⟨rfl, rfl⟩
        · obtain ⟨rfl, rfl⟩ := ih right hr _ _ _ _ h h' hp
          exact ⟨rfl, rfl⟩

/-- The walk of a code from an internal node selects a byte exactly where the tree has that code for it. -/
theorem codeSym_iff {nodes : List Node} (ho : ArenaOk nodes) : ∀ (n left right w : Nat) (b : Byte) (code : List Bool),
    nodes[n]? = some (.node left right w) → (codeSym nodes n code = some b ↔ (b, code) ∈ codesAt nodes n) := by
  intro n
  induction n using Nat.strong_induction_on with
  | _ n ih =>
    intro left right w b code hn
    obtain ⟨hl, hr⟩ := ho _ _ _ _ hn
    rw [mem_codesAt_node ho hn]
    cases code with
    | nil => simp [codeSym]
    | cons bit bits =>
      have child : ∀ m < n, treeChild nodes n bit = some m →
          (codeSym nodes n (bit :: bits) = some b ↔ (b, bits) ∈ codesAt nodes m) := by
        intro m hm hc
        simp only [codeSym, hc]
        cases hmn : nodes[m]? with
        | none =>
          rw [codesAt_none hmn]
          cases bits <;> simp [leafSym, hmn, codeSym, treeChild]
        | some node =>
          cases node with
          | leaf sym w' =>
            rw [codesAt_leaf hmn]
            cases bits <;> simp [leafSym, hmn, eq_comm]
          | node l r w' =>
            simp only [leafSym, hmn]
            exact ih m hm l r w' b bits hmn
      cases bit
      · rw [child left hl (by simp [treeChild, hn])]
        exact ⟨fun h => ⟨bits, .inl ⟨rfl, h⟩⟩, by rintro ⟨_, ⟨e, h⟩ | ⟨e, -⟩⟩ <;> cases e; exact h⟩
      · rw [child right hr (by simp [treeChild, hn])]
        exact ⟨fun h => ⟨bits, .inr ⟨rfl, h⟩⟩, by rintro ⟨_, ⟨e, -⟩ | ⟨e, h⟩⟩ <;> cases e; exact h⟩

/-! ## Adding a node -/

theorem arenaOk_append {nodes : List Node} (ho : ArenaOk nodes) {left right : Nat} (w : Nat)
    (hl : left < nodes.length) (hr : right < nodes.length) : ArenaOk (nodes ++ [.node left right w]) := by
  intro n l r w' h
  by_cases hn : n < nodes.length
  · rw [List.getElem?_append_left hn] at h
    exact ho _ _ _ _ h
  · rw [List.getElem?_append_right (by omega)] at h
    by_cases e : n - nodes.length = 0
    · simp only [e, List.getElem?_cons_zero, Option.some.injEq, Node.node.injEq] at h
      omega
    · obtain ⟨m, hm⟩ : ∃ m, n - nodes.length = m + 1 := ⟨n - nodes.length - 1, by omega⟩
      simp [hm] at h

theorem codesAt_append {nodes more : List Node} (ho : ArenaOk nodes) (ho' : ArenaOk (nodes ++ more)) : ∀ n,
    n < nodes.length → codesAt (nodes ++ more) n = codesAt nodes n := by
  intro n
  induction n using Nat.strong_induction_on with
  | _ n ih =>
    intro hn
    have e : (nodes ++ more)[n]? = nodes[n]? := List.getElem?_append_left hn
    cases h : nodes[n]? with
    | none => simp at h; omega
    | some node =>
      cases node with
      | leaf sym w => rw [codesAt_leaf h, codesAt_leaf (e.trans h)]
      | node left right w =>
        obtain ⟨hl, hr⟩ := ho _ _ _ _ h
        rw [codesAt_node ho h, codesAt_node ho' (e.trans h), ih left hl (by omega), ih right hr (by omega)]

theorem weightAt_append {nodes more : List Node} {n : Nat} (hn : n < nodes.length) :
    weightAt (nodes ++ more) n = weightAt nodes n := by
  rw [weightAt, weightAt, List.getElem?_append_left hn]

/-! ## The merges -/

theorem lightest_mem (nodes : List Node) : ∀ (pool : List Nat) (best : Nat),
    lightest nodes best pool = best ∨ lightest nodes best pool ∈ pool
  | [], best => .inl rfl
  | i :: rest, best => by
    simp only [lightest]
    rcases lightest_mem nodes rest (if lighter nodes i best then i else best) with h | h
    · rw [h]
      split
      · exact .inr (List.mem_cons_self ..)
      · exact .inl rfl
    · exact .inr (List.mem_cons_of_mem _ h)

/-- The byte values below a node. -/
def symsAt (nodes : List Node) (n : Nat) : List Byte := (codesAt nodes n).map Prod.fst

/-- What the merges keep: the trees in the pool have the byte values `syms` between them and the weight `total`, none
is empty, no code is as long as its tree has leaves, and the last node of the arena is in the pool. -/
structure Forest (syms : List Byte) (total : Nat) (nodes : List Node) (pool : List Nat) : Prop where
  arena : ArenaOk nodes
  inArena : ∀ i ∈ pool, i < nodes.length
  values : (pool.flatMap (symsAt nodes)).Perm syms
  depth : ∀ i ∈ pool, ∀ x ∈ codesAt nodes i, x.2.length + 1 ≤ (codesAt nodes i).length
  nonempty : ∀ i ∈ pool, codesAt nodes i ≠ []
  weight : (pool.map (weightAt nodes)).sum = total
  size : nodes.length + pool.length = 2 * syms.length
  last : ∃ i ∈ pool, i + 1 = nodes.length

theorem Forest.merge {syms : List Byte} {total : Nat} {nodes : List Node} {pool rest : List Nat} {a b : Nat}
    (h : Forest syms total nodes pool) (hp : pool.Perm (a :: b :: rest)) :
    Forest syms total (nodes ++ [.node a b (weightAt nodes a + weightAt nodes b)]) (rest ++ [nodes.length]) := by
  have ha : a ∈ pool := hp.mem_iff.mpr (by simp)
  have hb : b ∈ pool := hp.mem_iff.mpr (by simp)
  have hr : ∀ i ∈ rest, i ∈ pool := fun i hi => hp.mem_iff.mpr (by simp [hi])
  have hal := h.inArena a ha
  have hbl := h.inArena b hb
  have ho := arenaOk_append h.arena (weightAt nodes a + weightAt nodes b) hal hbl
  have old : ∀ i < nodes.length, codesAt (nodes ++ [.node a b (weightAt nodes a + weightAt nodes b)]) i = codesAt nodes i :=
    codesAt_append h.arena ho
  have new := codesAt_node ho (n := nodes.length) (left := a) (right := b) (w := weightAt nodes a + weightAt nodes b)
    (by simp)
  rw [old a hal, old b hbl] at new
  generalize hN : nodes ++ [Node.node a b (weightAt nodes a + weightAt nodes b)] = nodes' at *
  have hlen : nodes'.length = nodes.length + 1 := by simp [← hN]
  refine ⟨ho, ?_, ?_, ?_, ?_, ?_, ?_, ⟨nodes.length, by simp, hlen.symm⟩⟩
  · intro i hi
    rw [List.mem_append, List.mem_singleton] at hi
    rcases hi with hi | rfl
    · have := h.inArena i (hr i hi); omega
    · omega
  · refine List.Perm.trans ?_ h.values
    refine List.Perm.trans ?_ (hp.flatMap_right (symsAt nodes)).symm
    rw [List.flatMap_append]
    have e1 : rest.flatMap (symsAt nodes') = rest.flatMap (symsAt nodes) := by
      apply List.flatMap_congr
      intro i hi
      simp only [symsAt, old i (h.inArena i (hr i hi))]
    have e2 : symsAt nodes' nodes.length = symsAt nodes a ++ symsAt nodes b := by
      simp only [symsAt, new, List.map_append, List.map_map]
      congr 1
    simp only [List.flatMap_cons, List.flatMap_nil, List.append_nil, e1, e2]
    exact List.perm_append_comm.trans (List.Perm.of_eq (List.append_assoc ..))
  · intro i hi x hx
    rw [List.mem_append, List.mem_singleton] at hi
    rcases hi with hi | rfl
    · rw [old i (h.inArena i (hr i hi))] at hx ⊢
      exact h.depth i (hr i hi) x hx
    · have na : 0 < (codesAt nodes a).length := List.length_pos_of_ne_nil (h.nonempty a ha)
      have nb : 0 < (codesAt nodes b).length := List.length_pos_of_ne_nil (h.nonempty b hb)
      rw [new] at hx ⊢
      simp only [List.mem_append, List.mem_map] at hx
      simp only [List.length_append, List.length_map]
      rcases hx with ⟨y, hy, rfl⟩ | ⟨y, hy, rfl⟩
      · have := h.depth a ha y hy
        simp only [List.length_cons]; omega
      · have := h.depth b hb y hy
        simp only [List.length_cons]; omega
  · intro i hi
    rw [List.mem_append, List.mem_singleton] at hi
    rcases hi with hi | rfl
    · rw [old i (h.inArena i (hr i hi))]
      exact h.nonempty i (hr i hi)
    · rw [new]
      simp [h.nonempty a ha]
  · rw [← h.weight, (hp.map (weightAt nodes)).sum_eq]
    have e1 : rest.map (weightAt nodes') = rest.map (weightAt nodes) := by
      apply List.map_congr_left
      intro i hi
      rw [← hN]
      exact weightAt_append (h.inArena i (hr i hi))
    have e2 : weightAt nodes' nodes.length = weightAt nodes a + weightAt nodes b := by
      simp [← hN, weightAt, Node.weight]
    simp only [List.map_append, List.sum_append, e1, List.map_cons, List.map_nil, List.sum_cons, List.sum_nil, e2]
    omega
  · have := h.size
    have := hp.length_eq
    simp only [List.length_cons] at this
    simp only [List.length_append, List.length_singleton]
    omega

/-- The merges end with one tree, whose root is the last node of the arena. -/
theorem mergeAll_forest {syms : List Byte} {total : Nat} : ∀ (fuel : Nat) (nodes : List Node) (pool : List Nat),
    Forest syms total nodes pool → pool.length ≤ fuel + 1 →
    ∃ nodes', mergeAll fuel nodes pool = (nodes', [nodes'.length - 1]) ∧ Forest syms total nodes' [nodes'.length - 1] := by
  intro fuel
  have one : ∀ nodes root, Forest syms total nodes [root] → root = nodes.length - 1 := by
    intro nodes root h
    obtain ⟨i, hi, he⟩ := h.last
    simp only [List.mem_singleton] at hi
    omega
  have zero : ∀ nodes, ¬ Forest syms total nodes [] := by
    intro nodes h
    obtain ⟨i, hi, -⟩ := h.last
    simp at hi
  induction fuel with
  | zero =>
    intro nodes pool h hl
    match pool, h with
    | [], h => exact absurd h (zero _)
    | [root], h => obtain rfl := one _ _ h; exact ⟨nodes, rfl, h⟩
    | _ :: _ :: _, _ => simp at hl
  | succ fuel ih =>
    intro nodes pool h hl
    match pool, h with
    | [], h => exact absurd h (zero _)
    | [root], h => obtain rfl := one _ _ h; exact ⟨nodes, rfl, h⟩
    | i :: j :: rest, h =>
      simp only [mergeAll]
      have ha : lightest nodes i (j :: rest) ∈ i :: j :: rest := by
        rcases lightest_mem nodes (j :: rest) i with e | e
        · rw [e]; exact List.mem_cons_self ..
        · exact List.mem_cons_of_mem _ e
      generalize lightest nodes i (j :: rest) = a at ha
      have hpa := List.perm_cons_erase ha
      have hla := hpa.length_eq
      cases he : (i :: j :: rest).erase a with
      | nil => rw [he] at hla; simp at hla
      | cons i' rest' =>
        simp only
        have hc : lightest nodes i' rest' ∈ i' :: rest' := by
          rcases lightest_mem nodes rest' i' with e | e
          · rw [e]; exact List.mem_cons_self ..
          · exact List.mem_cons_of_mem _ e
        generalize lightest nodes i' rest' = b at hc
        have hpb := List.perm_cons_erase hc
        have hp : (i :: j :: rest).Perm (a :: b :: (i' :: rest').erase b) := by
          rw [he] at hpa
          exact hpa.trans (hpb.cons a)
        refine ih _ _ (h.merge hp) ?_
        have := hp.length_eq
        simp only [List.length_cons] at this hl
        simp only [List.length_append, List.length_singleton]
        omega

/-! ## The leaves -/

/-- The byte value a leaf carries. -/
def Node.syms : Node → List Byte
  | .leaf sym _ => [sym]
  | .node _ _ _ => []

theorem mem_leaves (f : List Nat) (b : Nat) (node : Node) (h : node ∈ leaves b f) :
    ∃ i, i < f.length ∧ 0 < f.getD i 0 ∧ node = .leaf (BitVec.ofNat 8 (b + i)) (f.getD i 0) := by
  induction f generalizing b with
  | nil => simp [leaves] at h
  | cons w f ih =>
    simp only [leaves] at h
    have later : node ∈ leaves (b + 1) f → ∃ i, i < (w :: f).length ∧ 0 < (w :: f).getD i 0 ∧
        node = .leaf (BitVec.ofNat 8 (b + i)) ((w :: f).getD i 0) := by
      intro h
      obtain ⟨i, hi, hw, rfl⟩ := ih (b + 1) h
      refine ⟨i + 1, by simp only [List.length_cons]; omega, by simpa using hw, ?_⟩
      rw [show b + (i + 1) = b + 1 + i by omega]
      simp
    split at h
    · next hw =>
      rcases List.mem_cons.mp h with rfl | h
      · exact ⟨0, by simp, by simpa using hw, by simp⟩
      · exact later h
    · exact later h

theorem leaves_mem (f : List Nat) (b i : Nat) (h : 0 < f.getD i 0) :
    Node.leaf (BitVec.ofNat 8 (b + i)) (f.getD i 0) ∈ leaves b f := by
  induction f generalizing b i with
  | nil => simp at h
  | cons w f ih =>
    simp only [leaves]
    cases i with
    | zero => simp only [List.getD_cons_zero] at h; simp [h]
    | succ i =>
      have := ih (b + 1) i (by simpa using h)
      rw [show b + (i + 1) = b + 1 + i by omega]
      split
      · exact List.mem_cons_of_mem _ (by simpa using this)
      · simpa using this

/-- The byte values present. -/
def present (f : List Nat) : List Byte := (leaves 0 f).flatMap Node.syms

theorem leaves_syms_nodup (f : List Nat) (b : Nat) (h : b + f.length ≤ 256) : ((leaves b f).flatMap Node.syms).Nodup := by
  induction f generalizing b with
  | nil => simp [leaves]
  | cons w f ih =>
    simp only [List.length_cons] at h
    simp only [leaves]
    split
    · rw [List.flatMap_cons, Node.syms, List.singleton_append, List.nodup_cons]
      refine ⟨?_, ih (b + 1) (by omega)⟩
      intro hm
      obtain ⟨node, hn, hm⟩ := List.mem_flatMap.mp hm
      obtain ⟨i, hi, -, rfl⟩ := mem_leaves f (b + 1) node hn
      simp only [Node.syms, List.mem_singleton] at hm
      have := congrArg BitVec.toNat hm
      simp only [BitVec.toNat_ofNat] at this
      omega
    · exact ih (b + 1) (by omega)

theorem mem_present {f : List Nat} (h : f.length = 256) (b : Byte) : b ∈ present f ↔ 0 < f.getD b.toNat 0 := by
  simp only [present, List.mem_flatMap]
  constructor
  · rintro ⟨node, hn, hb⟩
    obtain ⟨i, hi, hw, rfl⟩ := mem_leaves f 0 node hn
    simp only [Node.syms, List.mem_singleton] at hb
    subst hb
    simp only [Nat.zero_add, BitVec.toNat_ofNat]
    rwa [Nat.mod_eq_of_lt (by omega)]
  · intro hw
    refine ⟨_, leaves_mem f 0 b.toNat hw, ?_⟩
    simp [Node.syms]

theorem leaves_isLeaf {f : List Nat} {b n : Nat} {node : Node} (h : (leaves b f)[n]? = some node) :
    ∃ sym w, node = .leaf sym w := by
  obtain ⟨i, -, -, rfl⟩ := mem_leaves f b node (List.mem_of_getElem? h)
  exact ⟨_, _, rfl⟩

theorem leaves_weight (f : List Nat) (b : Nat) : ((leaves b f).map Node.weight).sum = f.sum := by
  induction f generalizing b with
  | nil => rfl
  | cons w f ih =>
    simp only [leaves]
    split
    · simp [Node.weight, ih]
    · simp [ih]; omega

theorem leaves_arenaOk (f : List Nat) (b : Nat) : ArenaOk (leaves b f) := by
  intro n left right w h
  obtain ⟨_, _, e⟩ := leaves_isLeaf h
  cases e

theorem range_flatMap_getElem {α β : Type} (l : List α) (g : Nat → List β) (g' : α → List β)
    (h : ∀ n a, l[n]? = some a → g n = g' a) : (List.range l.length).flatMap g = l.flatMap g' := by
  induction l generalizing g with
  | nil => rfl
  | cons a l ih =>
    rw [List.length_cons, List.range_succ_eq_map, List.flatMap_cons, List.flatMap_cons, h 0 a rfl, List.flatMap_map]
    rw [ih (fun n => g (n + 1)) fun n x hx => h (n + 1) x (by simpa using hx)]

theorem leaves_forest {f : List Nat} (hk : 1 ≤ distinct f) :
    Forest (present f) f.sum (leaves 0 f) (List.range (leaves 0 f).length) := by
  have hlen : (present f).length = (leaves 0 f).length := by
    have : ∀ ns : List Node, (∀ n ∈ ns, ∃ sym w, n = Node.leaf sym w) → (ns.flatMap Node.syms).length = ns.length := by
      intro ns
      induction ns with
      | nil => intro _; rfl
      | cons n ns ih =>
        intro h
        obtain ⟨sym, w, rfl⟩ := h n (by simp)
        rw [List.flatMap_cons, List.length_append, ih fun m hm => h m (by simp [hm])]
        simp [Node.syms]; omega
    refine this _ fun n hn => ?_
    obtain ⟨i, -, -, rfl⟩ := mem_leaves f 0 n hn
    exact ⟨_, _, rfl⟩
  have codes : ∀ i ∈ List.range (leaves 0 f).length, ∃ sym, codesAt (leaves 0 f) i = [(sym, [])] := by
    intro i hi
    have hi := List.mem_range.mp hi
    obtain ⟨sym, w, e⟩ := leaves_isLeaf (List.getElem?_eq_getElem hi)
    exact ⟨sym, codesAt_leaf (by rw [List.getElem?_eq_getElem hi, e])⟩
  refine ⟨leaves_arenaOk f 0, fun i hi => List.mem_range.mp hi, ?_, ?_, ?_, ?_, ?_, ?_⟩
  · refine List.Perm.of_eq (range_flatMap_getElem _ _ _ ?_)
    intro n node h
    obtain ⟨sym, w, rfl⟩ := leaves_isLeaf h
    simp [symsAt, codesAt_leaf h, Node.syms]
  · intro i hi x hx
    obtain ⟨sym, e⟩ := codes i hi
    rw [e] at hx ⊢
    simp only [List.mem_singleton] at hx
    subst hx
    simp
  · intro i hi
    obtain ⟨sym, e⟩ := codes i hi
    simp [e]
  · rw [← leaves_weight f 0]
    congr 1
    apply List.ext_getElem?
    intro i
    by_cases hi : i < (leaves 0 f).length
    · simp [List.getElem?_range hi, weightAt, List.getElem?_eq_getElem hi]
    · rw [List.getElem?_eq_none (by simp; omega), List.getElem?_eq_none (by simp; omega)]
  · rw [hlen]; simp; omega
  · rw [leaves_length]
    exact ⟨distinct f - 1, List.mem_range.mpr (by omega), by omega⟩

theorem present_length {f : List Nat} (hk : 1 ≤ distinct f) : (present f).length = distinct f := by
  have := (leaves_forest hk).size
  rw [List.length_range, leaves_length] at this
  omega

/-- The tree of a table with a byte value present is one tree with every value present as a leaf. -/
theorem buildTree_forest {f : List Nat} (hk : 1 ≤ distinct f) :
    Forest (present f) f.sum (buildTree f).nodes [(buildTree f).nodes.length - 1] ∧
      (buildTree f).root = some ((buildTree f).nodes.length - 1) ∧
      (buildTree f).nodes.length = 2 * distinct f - 1 := by
  obtain ⟨nodes, he, hf⟩ := mergeAll_forest (leaves 0 f).length _ _ (leaves_forest hk) (by simp)
  have hn : (buildTree f).nodes = nodes := by simp only [buildTree, he]
  have hr : (buildTree f).root = some (nodes.length - 1) := by simp only [buildTree, he]; rfl
  rw [hn, hr]
  refine ⟨hf, rfl, ?_⟩
  have := hf.size
  rw [present_length hk, List.length_singleton] at this
  omega

end Sys2Proof.Machine
end

