-- ==== Sys2Proof/Laws/State.lean ====
section
/-!
SUPPORT. Every named update of the state, field by field: what it sets and what it leaves. All are true by unfolding
the update once, so that no later proof unfolds a record update.
-/

namespace Sys2Proof.Machine

variable (s : State)

/-! ## State.spend -/

@[simp] theorem State.spend_ctrlIE (n : Nat) : (s.spend n).ctrlIE = s.ctrlIE := rfl
@[simp] theorem State.spend_status (n : Nat) : (s.spend n).status = s.status := rfl
@[simp] theorem State.spend_params (n : Nat) : (s.spend n).params = s.params := rfl
@[simp] theorem State.spend_outLen (n : Nat) : (s.spend n).outLen = s.outLen := rfl
@[simp] theorem State.spend_metaLen (n : Nat) : (s.spend n).metaLen = s.metaLen := rfl
@[simp] theorem State.spend_phase (n : Nat) : (s.spend n).phase = s.phase := rfl
@[simp] theorem State.spend_latched (n : Nat) : (s.spend n).latched = s.latched := rfl
@[simp] theorem State.spend_tables (n : Nat) : (s.spend n).tables = s.tables := rfl
@[simp] theorem State.spend_expansion (n : Nat) : (s.spend n).expansion = s.expansion := rfl
@[simp] theorem State.spend_mem (n : Nat) : (s.spend n).mem = s.mem := rfl
@[simp] theorem State.spend_memOk (n : Nat) : (s.spend n).memOk = s.memOk := rfl
@[simp] theorem State.spend_pending (n : Nat) : (s.spend n).pending = s.pending := rfl
@[simp] theorem State.spend_responses (n : Nat) : (s.spend n).responses = s.responses := rfl
@[simp] theorem State.spend_unobserved (n : Nat) : (s.spend n).unobserved = s.unobserved := rfl
@[simp] theorem State.spend_draws (n : Nat) : (s.spend n).draws = s.draws.drop n := rfl
@[simp] theorem State.spend_drawCount (n : Nat) : (s.spend n).drawCount = s.drawCount + n := rfl

/-! ## State.damage -/

@[simp] theorem State.damage_ctrlIE (zs : List Span) : (s.damage zs).ctrlIE = s.ctrlIE := rfl
@[simp] theorem State.damage_status (zs : List Span) : (s.damage zs).status = s.status := rfl
@[simp] theorem State.damage_params (zs : List Span) : (s.damage zs).params = s.params := rfl
@[simp] theorem State.damage_outLen (zs : List Span) : (s.damage zs).outLen = s.outLen := rfl
@[simp] theorem State.damage_metaLen (zs : List Span) : (s.damage zs).metaLen = s.metaLen := rfl
@[simp] theorem State.damage_phase (zs : List Span) : (s.damage zs).phase = s.phase := rfl
@[simp] theorem State.damage_latched (zs : List Span) : (s.damage zs).latched = s.latched := rfl
@[simp] theorem State.damage_tables (zs : List Span) : (s.damage zs).tables = s.tables := rfl
@[simp] theorem State.damage_expansion (zs : List Span) : (s.damage zs).expansion = s.expansion := rfl
@[simp] theorem State.damage_mem (zs : List Span) :
    (s.damage zs).mem = writeCells s.mem ((rangeAddrs zs).zip (s.freeBytes (rangeAddrs zs).length)) := rfl
@[simp] theorem State.damage_memOk (zs : List Span) : (s.damage zs).memOk = s.memOk := rfl
@[simp] theorem State.damage_pending (zs : List Span) : (s.damage zs).pending = s.pending := rfl
@[simp] theorem State.damage_responses (zs : List Span) : (s.damage zs).responses = s.responses := rfl
@[simp] theorem State.damage_unobserved (zs : List Span) : (s.damage zs).unobserved = s.unobserved := rfl
@[simp] theorem State.damage_draws (zs : List Span) : (s.damage zs).draws = s.draws.drop (rangeAddrs zs).length := rfl
@[simp] theorem State.damage_drawCount (zs : List Span) :
    (s.damage zs).drawCount = s.drawCount + (rangeAddrs zs).length := rfl

/-! ## State.accept -/

@[simp] theorem State.accept_ctrlIE (w : Word) : (s.accept w).ctrlIE = s.ctrlIE := rfl
@[simp] theorem State.accept_status (w : Word) : (s.accept w).status = s.status.accepted := rfl
@[simp] theorem State.accept_params (w : Word) : (s.accept w).params = s.params := rfl
@[simp] theorem State.accept_outLen (w : Word) : (s.accept w).outLen = 0#32 := rfl
@[simp] theorem State.accept_metaLen (w : Word) : (s.accept w).metaLen = 0#32 := rfl
@[simp] theorem State.accept_phase (w : Word) : (s.accept w).phase = .busy := rfl
@[simp] theorem State.accept_latched (w : Word) : (s.accept w).latched = some ⟨w, s.params⟩ := rfl
@[simp] theorem State.accept_tables (w : Word) : (s.accept w).tables = s.tables := rfl
@[simp] theorem State.accept_expansion (w : Word) : (s.accept w).expansion = none := rfl
@[simp] theorem State.accept_mem (w : Word) : (s.accept w).mem = s.mem := rfl
@[simp] theorem State.accept_memOk (w : Word) : (s.accept w).memOk = s.memOk := rfl
@[simp] theorem State.accept_pending (w : Word) : (s.accept w).pending = s.pending := rfl
@[simp] theorem State.accept_responses (w : Word) : (s.accept w).responses = s.responses := rfl
@[simp] theorem State.accept_unobserved (w : Word) : (s.accept w).unobserved = s.unobserved ++ [s.params] := rfl
@[simp] theorem State.accept_draws (w : Word) : (s.accept w).draws = s.draws := rfl
@[simp] theorem State.accept_drawCount (w : Word) : (s.accept w).drawCount = s.drawCount := rfl

/-! ## State.release -/

@[simp] theorem State.release_ctrlIE : (s.release).ctrlIE = s.ctrlIE := rfl
@[simp] theorem State.release_status : (s.release).status = s.status := rfl
@[simp] theorem State.release_params : (s.release).params = s.params := rfl
@[simp] theorem State.release_outLen : (s.release).outLen = s.outLen := rfl
@[simp] theorem State.release_metaLen : (s.release).metaLen = s.metaLen := rfl
@[simp] theorem State.release_phase : (s.release).phase = .idle := rfl
@[simp] theorem State.release_latched : (s.release).latched = none := rfl
@[simp] theorem State.release_tables : (s.release).tables = (Config.freeTables s.drawCount).fit := rfl
@[simp] theorem State.release_expansion : (s.release).expansion = none := rfl
@[simp] theorem State.release_mem : (s.release).mem = s.mem := rfl
@[simp] theorem State.release_memOk : (s.release).memOk = s.memOk := rfl
@[simp] theorem State.release_pending : (s.release).pending = s.pending := rfl
@[simp] theorem State.release_responses : (s.release).responses = s.responses := rfl
@[simp] theorem State.release_unobserved : (s.release).unobserved = s.unobserved := rfl
@[simp] theorem State.release_draws : (s.release).draws = s.draws := rfl
@[simp] theorem State.release_drawCount : (s.release).drawCount = s.drawCount + 1 := rfl

/-! ## State.completeOk -/

@[simp] theorem State.completeOk_ctrlIE (ws : List (Nat × List Byte)) (n q : Nat) :
    (s.completeOk ws n q).ctrlIE = s.ctrlIE := rfl
@[simp] theorem State.completeOk_status (ws : List (Nat × List Byte)) (n q : Nat) :
    (s.completeOk ws n q).status = s.status.completed := rfl
@[simp] theorem State.completeOk_params (ws : List (Nat × List Byte)) (n q : Nat) :
    (s.completeOk ws n q).params = s.params := rfl
@[simp] theorem State.completeOk_outLen (ws : List (Nat × List Byte)) (n q : Nat) :
    (s.completeOk ws n q).outLen = BitVec.ofNat 32 n := rfl
@[simp] theorem State.completeOk_metaLen (ws : List (Nat × List Byte)) (n q : Nat) :
    (s.completeOk ws n q).metaLen = BitVec.ofNat 32 q := rfl
@[simp] theorem State.completeOk_phase (ws : List (Nat × List Byte)) (n q : Nat) :
    (s.completeOk ws n q).phase = .idle := rfl
@[simp] theorem State.completeOk_latched (ws : List (Nat × List Byte)) (n q : Nat) :
    (s.completeOk ws n q).latched = none := rfl
@[simp] theorem State.completeOk_tables (ws : List (Nat × List Byte)) (n q : Nat) :
    (s.completeOk ws n q).tables = (Config.freeTables s.drawCount).fit := rfl
@[simp] theorem State.completeOk_expansion (ws : List (Nat × List Byte)) (n q : Nat) :
    (s.completeOk ws n q).expansion = none := rfl
@[simp] theorem State.completeOk_mem (ws : List (Nat × List Byte)) (n q : Nat) :
    (s.completeOk ws n q).mem = ws.foldl (fun m w => memWrite m w.1 w.2) s.mem := rfl
@[simp] theorem State.completeOk_memOk (ws : List (Nat × List Byte)) (n q : Nat) :
    (s.completeOk ws n q).memOk = s.memOk := rfl
@[simp] theorem State.completeOk_pending (ws : List (Nat × List Byte)) (n q : Nat) :
    (s.completeOk ws n q).pending = s.pending := rfl
@[simp] theorem State.completeOk_responses (ws : List (Nat × List Byte)) (n q : Nat) :
    (s.completeOk ws n q).responses = s.responses := rfl
@[simp] theorem State.completeOk_unobserved (ws : List (Nat × List Byte)) (n q : Nat) :
    (s.completeOk ws n q).unobserved = s.unobserved := rfl
@[simp] theorem State.completeOk_draws (ws : List (Nat × List Byte)) (n q : Nat) :
    (s.completeOk ws n q).draws = s.draws := rfl
@[simp] theorem State.completeOk_drawCount (ws : List (Nat × List Byte)) (n q : Nat) :
    (s.completeOk ws n q).drawCount = s.drawCount + 1 := rfl

/-! ## State.raise -/

@[simp] theorem State.raise_ctrlIE (e : CodecError) (zs : List Span) : (s.raise e zs).ctrlIE = s.ctrlIE := rfl
@[simp] theorem State.raise_status (e : CodecError) (zs : List Span) :
    (s.raise e zs).status = s.status.failed e := rfl
@[simp] theorem State.raise_params (e : CodecError) (zs : List Span) : (s.raise e zs).params = s.params := rfl
@[simp] theorem State.raise_outLen (e : CodecError) (zs : List Span) : (s.raise e zs).outLen = 0#32 := rfl
@[simp] theorem State.raise_metaLen (e : CodecError) (zs : List Span) : (s.raise e zs).metaLen = 0#32 := rfl
@[simp] theorem State.raise_phase (e : CodecError) (zs : List Span) : (s.raise e zs).phase = .idle := rfl
@[simp] theorem State.raise_latched (e : CodecError) (zs : List Span) : (s.raise e zs).latched = none := rfl
@[simp] theorem State.raise_tables (e : CodecError) (zs : List Span) :
    (s.raise e zs).tables = (Config.freeTables (s.drawCount + (rangeAddrs zs).length)).fit := rfl
@[simp] theorem State.raise_expansion (e : CodecError) (zs : List Span) : (s.raise e zs).expansion = none := rfl
@[simp] theorem State.raise_mem (e : CodecError) (zs : List Span) : (s.raise e zs).mem = (s.damage zs).mem := rfl
@[simp] theorem State.raise_memOk (e : CodecError) (zs : List Span) : (s.raise e zs).memOk = s.memOk := rfl
@[simp] theorem State.raise_pending (e : CodecError) (zs : List Span) : (s.raise e zs).pending = s.pending := rfl
@[simp] theorem State.raise_responses (e : CodecError) (zs : List Span) :
    (s.raise e zs).responses = s.responses := rfl
@[simp] theorem State.raise_unobserved (e : CodecError) (zs : List Span) :
    (s.raise e zs).unobserved = s.unobserved := rfl
@[simp] theorem State.raise_draws (e : CodecError) (zs : List Span) :
    (s.raise e zs).draws = s.draws.drop (rangeAddrs zs).length := rfl
@[simp] theorem State.raise_drawCount (e : CodecError) (zs : List Span) :
    (s.raise e zs).drawCount = s.drawCount + (rangeAddrs zs).length + 1 := rfl

/-! ## State.acknowledge -/

@[simp] theorem State.acknowledge_ctrlIE : (s.acknowledge).ctrlIE = s.ctrlIE := rfl
@[simp] theorem State.acknowledge_status : (s.acknowledge).status = s.status.clear ackWord := rfl
@[simp] theorem State.acknowledge_params : (s.acknowledge).params = s.params := rfl
@[simp] theorem State.acknowledge_outLen : (s.acknowledge).outLen = s.outLen := rfl
@[simp] theorem State.acknowledge_metaLen : (s.acknowledge).metaLen = s.metaLen := rfl
@[simp] theorem State.acknowledge_phase : (s.acknowledge).phase = s.phase := rfl
@[simp] theorem State.acknowledge_latched : (s.acknowledge).latched = s.latched := rfl
@[simp] theorem State.acknowledge_tables : (s.acknowledge).tables = s.tables := rfl
@[simp] theorem State.acknowledge_expansion : (s.acknowledge).expansion = s.expansion := rfl
@[simp] theorem State.acknowledge_mem : (s.acknowledge).mem = s.mem := rfl
@[simp] theorem State.acknowledge_memOk : (s.acknowledge).memOk = s.memOk := rfl
@[simp] theorem State.acknowledge_pending : (s.acknowledge).pending = s.pending := rfl
@[simp] theorem State.acknowledge_responses : (s.acknowledge).responses = s.responses := rfl
@[simp] theorem State.acknowledge_unobserved : (s.acknowledge).unobserved = s.unobserved := rfl
@[simp] theorem State.acknowledge_draws : (s.acknowledge).draws = s.draws := rfl
@[simp] theorem State.acknowledge_drawCount : (s.acknowledge).drawCount = s.drawCount := rfl

/-! ## State.work -/

@[simp] theorem State.work_ctrlIE (t : Tables) : (s.work t).ctrlIE = s.ctrlIE := rfl
@[simp] theorem State.work_status (t : Tables) : (s.work t).status = s.status := rfl
@[simp] theorem State.work_params (t : Tables) : (s.work t).params = s.params := rfl
@[simp] theorem State.work_outLen (t : Tables) : (s.work t).outLen = s.outLen := rfl
@[simp] theorem State.work_metaLen (t : Tables) : (s.work t).metaLen = s.metaLen := rfl
@[simp] theorem State.work_phase (t : Tables) : (s.work t).phase = s.phase := rfl
@[simp] theorem State.work_latched (t : Tables) : (s.work t).latched = s.latched := rfl
@[simp] theorem State.work_tables (t : Tables) : (s.work t).tables = t := rfl
@[simp] theorem State.work_expansion (t : Tables) : (s.work t).expansion = s.expansion := rfl
@[simp] theorem State.work_mem (t : Tables) : (s.work t).mem = s.mem := rfl
@[simp] theorem State.work_memOk (t : Tables) : (s.work t).memOk = s.memOk := rfl
@[simp] theorem State.work_pending (t : Tables) : (s.work t).pending = s.pending := rfl
@[simp] theorem State.work_responses (t : Tables) : (s.work t).responses = s.responses := rfl
@[simp] theorem State.work_unobserved (t : Tables) : (s.work t).unobserved = s.unobserved := rfl
@[simp] theorem State.work_draws (t : Tables) : (s.work t).draws = s.draws := rfl
@[simp] theorem State.work_drawCount (t : Tables) : (s.work t).drawCount = s.drawCount := rfl

/-! ## Tables -/

@[simp] theorem Tables.emitted_freq (t : Tables) (n : Nat) : (t.emitted n).freq = t.freq := rfl
@[simp] theorem Tables.emitted_tree (t : Tables) (n : Nat) : (t.emitted n).tree = t.tree := rfl
@[simp] theorem Tables.emitted_codes (t : Tables) (n : Nat) : (t.emitted n).codes = t.codes := rfl
@[simp] theorem Tables.emitted_search (t : Tables) (n : Nat) : (t.emitted n).search = t.search := rfl
@[simp] theorem Tables.emitted_cursor (t : Tables) (n : Nat) : (t.emitted n).cursor = BitVec.ofNat 32 n := rfl
@[simp] theorem Tables.emitted_run (t : Tables) (n : Nat) : (t.emitted n).run = t.run := rfl

/-! ## State.advance -/

@[simp] theorem State.advance_ctrlIE (x : Expansion) (out : List Byte) : (s.advance x out).ctrlIE = s.ctrlIE := rfl
@[simp] theorem State.advance_status (x : Expansion) (out : List Byte) : (s.advance x out).status = s.status := rfl
@[simp] theorem State.advance_params (x : Expansion) (out : List Byte) : (s.advance x out).params = s.params := rfl
@[simp] theorem State.advance_outLen (x : Expansion) (out : List Byte) : (s.advance x out).outLen = s.outLen := rfl
@[simp] theorem State.advance_metaLen (x : Expansion) (out : List Byte) : (s.advance x out).metaLen = s.metaLen := rfl
@[simp] theorem State.advance_phase (x : Expansion) (out : List Byte) : (s.advance x out).phase = s.phase := rfl
@[simp] theorem State.advance_latched (x : Expansion) (out : List Byte) : (s.advance x out).latched = s.latched := rfl
@[simp] theorem State.advance_tables (x : Expansion) (out : List Byte) :
    (s.advance x out).tables = s.tables.emitted out.length := rfl
@[simp] theorem State.advance_expansion (x : Expansion) (out : List Byte) :
    (s.advance x out).expansion = some { x with out := out } := rfl
@[simp] theorem State.advance_mem (x : Expansion) (out : List Byte) : (s.advance x out).mem = s.mem := rfl
@[simp] theorem State.advance_memOk (x : Expansion) (out : List Byte) : (s.advance x out).memOk = s.memOk := rfl
@[simp] theorem State.advance_pending (x : Expansion) (out : List Byte) : (s.advance x out).pending = s.pending := rfl
@[simp] theorem State.advance_responses (x : Expansion) (out : List Byte) :
    (s.advance x out).responses = s.responses := rfl
@[simp] theorem State.advance_unobserved (x : Expansion) (out : List Byte) :
    (s.advance x out).unobserved = s.unobserved := rfl
@[simp] theorem State.advance_draws (x : Expansion) (out : List Byte) : (s.advance x out).draws = s.draws := rfl
@[simp] theorem State.advance_drawCount (x : Expansion) (out : List Byte) :
    (s.advance x out).drawCount = s.drawCount := rfl

/-! ## State.consume -/

@[simp] theorem State.consume_ctrlIE (x : Expansion) (rest : Feed) : (s.consume x rest).ctrlIE = s.ctrlIE := rfl
@[simp] theorem State.consume_status (x : Expansion) (rest : Feed) : (s.consume x rest).status = s.status := rfl
@[simp] theorem State.consume_params (x : Expansion) (rest : Feed) : (s.consume x rest).params = s.params := rfl
@[simp] theorem State.consume_outLen (x : Expansion) (rest : Feed) : (s.consume x rest).outLen = s.outLen := rfl
@[simp] theorem State.consume_metaLen (x : Expansion) (rest : Feed) : (s.consume x rest).metaLen = s.metaLen := rfl
@[simp] theorem State.consume_phase (x : Expansion) (rest : Feed) : (s.consume x rest).phase = s.phase := rfl
@[simp] theorem State.consume_latched (x : Expansion) (rest : Feed) : (s.consume x rest).latched = s.latched := rfl
@[simp] theorem State.consume_tables (x : Expansion) (rest : Feed) : (s.consume x rest).tables = s.tables := rfl
@[simp] theorem State.consume_expansion (x : Expansion) (rest : Feed) :
    (s.consume x rest).expansion = some { x with feed := rest } := rfl
@[simp] theorem State.consume_mem (x : Expansion) (rest : Feed) : (s.consume x rest).mem = s.mem := rfl
@[simp] theorem State.consume_memOk (x : Expansion) (rest : Feed) : (s.consume x rest).memOk = s.memOk := rfl
@[simp] theorem State.consume_pending (x : Expansion) (rest : Feed) : (s.consume x rest).pending = s.pending := rfl
@[simp] theorem State.consume_responses (x : Expansion) (rest : Feed) :
    (s.consume x rest).responses = s.responses := rfl
@[simp] theorem State.consume_unobserved (x : Expansion) (rest : Feed) :
    (s.consume x rest).unobserved = s.unobserved := rfl
@[simp] theorem State.consume_draws (x : Expansion) (rest : Feed) : (s.consume x rest).draws = s.draws := rfl
@[simp] theorem State.consume_drawCount (x : Expansion) (rest : Feed) :
    (s.consume x rest).drawCount = s.drawCount := rfl

/-! ## State.expand -/

@[simp] theorem State.expand_ctrlIE (x : Expansion) : (s.expand x).ctrlIE = s.ctrlIE := rfl
@[simp] theorem State.expand_status (x : Expansion) : (s.expand x).status = s.status := rfl
@[simp] theorem State.expand_params (x : Expansion) : (s.expand x).params = s.params := rfl
@[simp] theorem State.expand_outLen (x : Expansion) : (s.expand x).outLen = s.outLen := rfl
@[simp] theorem State.expand_metaLen (x : Expansion) : (s.expand x).metaLen = s.metaLen := rfl
@[simp] theorem State.expand_phase (x : Expansion) : (s.expand x).phase = s.phase := rfl
@[simp] theorem State.expand_latched (x : Expansion) : (s.expand x).latched = s.latched := rfl
@[simp] theorem State.expand_tables (x : Expansion) : (s.expand x).tables = s.tables.emitted x.out.length := rfl
@[simp] theorem State.expand_expansion (x : Expansion) : (s.expand x).expansion = some x := rfl
@[simp] theorem State.expand_mem (x : Expansion) : (s.expand x).mem = s.mem := rfl
@[simp] theorem State.expand_memOk (x : Expansion) : (s.expand x).memOk = s.memOk := rfl
@[simp] theorem State.expand_pending (x : Expansion) : (s.expand x).pending = s.pending := rfl
@[simp] theorem State.expand_responses (x : Expansion) : (s.expand x).responses = s.responses := rfl
@[simp] theorem State.expand_unobserved (x : Expansion) : (s.expand x).unobserved = s.unobserved := rfl
@[simp] theorem State.expand_draws (x : Expansion) : (s.expand x).draws = s.draws := rfl
@[simp] theorem State.expand_drawCount (x : Expansion) : (s.expand x).drawCount = s.drawCount := rfl

/-! ## State.answerMmio -/

@[simp] theorem State.answerMmio_ctrlIE (o : Nat) : (s.answerMmio o).ctrlIE = s.ctrlIE := rfl
@[simp] theorem State.answerMmio_status (o : Nat) : (s.answerMmio o).status = s.status := rfl
@[simp] theorem State.answerMmio_params (o : Nat) : (s.answerMmio o).params = s.params := rfl
@[simp] theorem State.answerMmio_outLen (o : Nat) : (s.answerMmio o).outLen = s.outLen := rfl
@[simp] theorem State.answerMmio_metaLen (o : Nat) : (s.answerMmio o).metaLen = s.metaLen := rfl
@[simp] theorem State.answerMmio_phase (o : Nat) : (s.answerMmio o).phase = s.phase := rfl
@[simp] theorem State.answerMmio_latched (o : Nat) : (s.answerMmio o).latched = s.latched := rfl
@[simp] theorem State.answerMmio_tables (o : Nat) : (s.answerMmio o).tables = s.tables := rfl
@[simp] theorem State.answerMmio_expansion (o : Nat) : (s.answerMmio o).expansion = s.expansion := rfl
@[simp] theorem State.answerMmio_mem (o : Nat) : (s.answerMmio o).mem = s.mem := rfl
@[simp] theorem State.answerMmio_memOk (o : Nat) : (s.answerMmio o).memOk = s.memOk := rfl
@[simp] theorem State.answerMmio_pending (o : Nat) : (s.answerMmio o).pending = s.pending := rfl
@[simp] theorem State.answerMmio_responses (o : Nat) :
    (s.answerMmio o).responses = s.responses ++ [.mmio o (mmioRead o s)] := rfl
@[simp] theorem State.answerMmio_unobserved (o : Nat) :
    (s.answerMmio o).unobserved = if o = regOffset .status ∧ s.status.busy = false then [] else s.unobserved := rfl
@[simp] theorem State.answerMmio_draws (o : Nat) : (s.answerMmio o).draws = s.draws := rfl
@[simp] theorem State.answerMmio_drawCount (o : Nat) : (s.answerMmio o).drawCount = s.drawCount := rfl

end Sys2Proof.Machine
end

