-- ==== Sys2Proof/Laws/Ops.lean ====
section
/-!
SUPPORT. What each shared operation can do, said once: accept, completion with and without error, the region check
before a command's body, and the shapes of the compress, decompress and element meanings.
-/

namespace Sys2Proof.Machine

/-! ## Free bytes and damage -/

@[simp] theorem freeBytes_length (s : State) (n : Nat) : (s.freeBytes n).length = n := by simp [State.freeBytes]

theorem mem_rangeAddrs (zs : List Span) (a : Nat) : a ∈ rangeAddrs zs ↔ ∃ z ∈ zs, z.has a = true := by
  simp [rangeAddrs, Span.mem_addrs, Span.has_iff]

@[simp] theorem rangeAddrs_nil : rangeAddrs [] = [] := rfl

/-- Damage changes no byte outside its ranges. -/
theorem read_damage_outside (s : State) (zs : List Span) (a : Nat) (h : ∀ z ∈ zs, z.has a = false) :
    Memory.read (s.damage zs).mem a = Memory.read s.mem a := by
  apply read_writeCells_outside
  rintro ⟨b, v⟩ hc rfl
  obtain ⟨z, hz, ha⟩ := (mem_rangeAddrs zs b).mp (List.of_mem_zip hc).1
  simp [h z hz] at ha

theorem damage_wf (s : State) (zs : List Span) (h : Memory.wf s.mem) : Memory.wf (s.damage zs).mem :=
  writeCells_wf _ _ h

/-! ## Completion -/

/-- Every error completion is what 43_dispatch.md R188 says. -/
theorem raise_completedErr (s : State) (e : CodecError) (zs : List Span) :
    CompletedErr s (s.raise e zs) e.code zs :=
  ⟨rfl, rfl, rfl, ⟨rfl, rfl, rfl⟩, ⟨rfl, rfl, rfl, rfl, rfl, rfl⟩, fun a h => read_damage_outside s zs a h⟩

theorem overlay_congr (m n : Memory) (a : Nat) (ws : List (Nat × List Byte))
    (h : Memory.read m a = Memory.read n a) : overlay m a ws = overlay n a ws := by
  induction ws with
  | nil => exact h
  | cons w ws ih => simp only [overlay]; cases bytesAt w.1 w.2 a <;> simp [ih]

/-- One sequence stored is an overlay of one. -/
theorem read_memWrite (m : Memory) (base : Nat) (bs : List Byte) (h : base + bs.length ≤ Config.memorySize) (a : Nat) :
    Memory.read (memWrite m base bs) a = overlay m a [(base, bs)] := by
  simp only [overlay, bytesAt]
  by_cases h1 : base ≤ a
  · by_cases h2 : a - base < bs.length
    · have := read_memWrite_inside bs m base (a - base) h2 h
      rw [show base + (a - base) = a by omega] at this
      simp [h1, List.getElem?_eq_getElem h2, this, List.getD_eq_getElem?_getD]
    · rw [read_memWrite_outside _ _ _ _ (by omega)]
      simp [h1, List.getElem?_eq_none (Nat.le_of_not_lt h2)]
  · rw [read_memWrite_outside _ _ _ _ (by omega)]
    simp [h1]

/-- Two sequences stored at places that do not meet. -/
theorem read_memWrite_two (m : Memory) (b1 b2 : Nat) (s1 s2 : List Byte) (h1 : b1 + s1.length ≤ Config.memorySize)
    (h2 : b2 + s2.length ≤ Config.memorySize)
    (hd : s1.length = 0 ∨ s2.length = 0 ∨ b1 + s1.length ≤ b2 ∨ b2 + s2.length ≤ b1) (a : Nat) :
    Memory.read (memWrite (memWrite m b1 s1) b2 s2) a = overlay m a [(b1, s1), (b2, s2)] := by
  rw [read_memWrite _ _ _ h2]
  simp only [overlay]
  have hb : ∀ (b : Nat) (s : List Byte), bytesAt b s a = none ∨ (b ≤ a ∧ a < b + s.length) := by
    intro b s
    simp only [bytesAt]
    by_cases hb : b ≤ a
    · by_cases hl : a - b < s.length
      · exact .inr ⟨hb, by omega⟩
      · exact .inl (by simp [hb, List.getElem?_eq_none (Nat.le_of_not_lt hl)])
    · exact .inl (by simp [hb])
  rcases hb b2 s2 with e2 | e2
  · simp only [e2]
    rw [read_memWrite _ _ _ h1]
    simp [overlay]
  · rcases hb b1 s1 with e1 | e1
    · simp only [e1]
      cases bytesAt b2 s2 a with
      | some v => rfl
      | none => simp [read_memWrite _ _ _ h1, overlay, e1]
    · omega

/-- The end of a decompress that has its output. -/
theorem completeOk_one (s : State) (base n : Nat) (bs : List Byte) (hn : n < 4294967296)
    (h : base + bs.length ≤ Config.memorySize) : CompletedOk s (s.completeOk [(base, bs)] n 0) n 0 [(base, bs)] :=
  ⟨rfl, Nat.mod_eq_of_lt hn, rfl, ⟨rfl, rfl, rfl⟩, ⟨rfl, rfl, rfl, rfl, rfl, rfl⟩, read_memWrite _ _ _ h⟩

/-- The end of a compress: the payload and the record. -/
theorem completeOk_two (s : State) (b1 b2 n q : Nat) (s1 s2 : List Byte) (hn : n < 4294967296) (hq : q < 4294967296)
    (h1 : b1 + s1.length ≤ Config.memorySize) (h2 : b2 + s2.length ≤ Config.memorySize)
    (hd : s1.length = 0 ∨ s2.length = 0 ∨ b1 + s1.length ≤ b2 ∨ b2 + s2.length ≤ b1) :
    CompletedOk s (s.completeOk [(b1, s1), (b2, s2)] n q) n q [(b1, s1), (b2, s2)] :=
  ⟨rfl, Nat.mod_eq_of_lt hn, Nat.mod_eq_of_lt hq, ⟨rfl, rfl, rfl⟩, ⟨rfl, rfl, rfl, rfl, rfl, rfl⟩,
    read_memWrite_two _ _ _ _ _ h1 h2 hd⟩

/-! ## The region check -/

theorem Span.admitted_fits {ranges : List Span} {r : Span} (h : r.admitted ranges = true) :
    r.len = 0 ∨ r.base + r.len ≤ Config.memorySize := by
  simp only [Span.admitted, Bool.or_eq_true, Bool.and_eq_true, decide_eq_true_eq] at h
  omega

theorem Span.apart {r q : Span} (h : r.touches q = false) :
    r.len = 0 ∨ q.len = 0 ∨ r.base + r.len ≤ q.base ∨ q.base + q.len ≤ r.base := by
  simp only [Span.touches, Bool.and_eq_false_iff, decide_eq_false_iff_not] at h
  omega

/-- What a passed region check says of the regions' places. -/
theorem regionOk_places {ranges : List Span} {p : Params} (h : regionOk ranges p = true) :
    (p.srcRegion.len = 0 ∨ p.srcRegion.base + p.srcRegion.len ≤ Config.memorySize) ∧
    (p.dstRegion.len = 0 ∨ p.dstRegion.base + p.dstRegion.len ≤ Config.memorySize) ∧
    (p.metaRegion.len = 0 ∨ p.metaRegion.base + p.metaRegion.len ≤ Config.memorySize) ∧
    p.srcRegion.touches p.dstRegion = false ∧ p.srcRegion.touches p.metaRegion = false ∧
    p.dstRegion.touches p.metaRegion = false := by
  simp only [regionOk, Bool.and_eq_true, Bool.not_eq_true'] at h
  exact ⟨Span.admitted_fits h.1.1.1.1.1, Span.admitted_fits h.1.1.1.1.2, Span.admitted_fits h.1.1.1.2, h.1.1.2, h.1.2,
    h.2⟩

/-! ## The shapes of meanings -/

@[simp] theorem withSnapshot_latched {s : State} {l : Latched} (h : s.latched = some l) (body : Params → State) :
    withSnapshot s body = .next (body l.snap) := by simp [withSnapshot, h]

/-- A valid command with a latched snapshot answers a next state: REGION_ERROR, or its body. -/
theorem runCommand_latched {s : State} {l : Latched} (h : s.latched = some l) (body : Params → State) :
    runCommand s body =
      .next (if regionOk s.memOk l.snap then body l.snap else s.raise .regionError []) := by
  simp [runCommand, h]

/-- An error completion leaves the internal tables free, whatever was worked out in them (10_state.md R40). -/
@[simp] theorem raise_work (s : State) (t : Tables) (e : CodecError) (zs : List Span) :
    (s.work t).raise e zs = s.raise e zs := rfl

/-- So does a successful one. -/
@[simp] theorem completeOk_work (s : State) (t : Tables) (ws : List (Nat × List Byte)) (n q : Nat) :
    (s.work t).completeOk ws n q = s.completeOk ws n q := rfl

/-- The three ends of a compress whose engine makes `payload` and the record `rec`. -/
def compressEnd (size : Nat) (payload rec : List Byte) (s : State) (p : Params) : State :=
  if p.metaCap.toNat < size then s.raise .overflow []
  else if p.dstCap.toNat < payload.length then s.raise .overflow [p.dstRegion, ⟨p.metaAddr.toNat, size⟩]
  else s.completeOk [(p.dstAddr.toNat, payload), (p.metaAddr.toNat, rec)] payload.length size

/-- A compress is one of them: the internal tables it worked on are free again at its end. -/
theorem compressBody_eq (size : Nat) (make : List Byte → Tables → Tables × List Byte)
    (record : List Byte → Tables → List Byte) (s : State) (p : Params) :
    compressBody size make record s p =
      compressEnd size (make (srcData p s.mem) s.tables).2
        (record (srcData p s.mem)
          ((make (srcData p s.mem) s.tables).1.emitted (make (srcData p s.mem) s.tables).2.length)) s p := rfl

/-- When each of them happens. -/
theorem compressEnd_cases (size : Nat) (payload rec : List Byte) (s : State) (p : Params) :
    (p.metaCap.toNat < size ∧ compressEnd size payload rec s p = s.raise .overflow []) ∨
    (size ≤ p.metaCap.toNat ∧ p.dstCap.toNat < payload.length ∧
      compressEnd size payload rec s p = s.raise .overflow [p.dstRegion, ⟨p.metaAddr.toNat, size⟩]) ∨
    (size ≤ p.metaCap.toNat ∧ payload.length ≤ p.dstCap.toNat ∧
      compressEnd size payload rec s p =
        s.completeOk [(p.dstAddr.toNat, payload), (p.metaAddr.toNat, rec)] payload.length size) := by
  unfold compressEnd
  by_cases h1 : p.metaCap.toNat < size
  · exact .inl ⟨h1, if_pos h1⟩
  · rw [if_neg h1]
    by_cases h2 : p.dstCap.toNat < payload.length
    · exact .inr (.inl ⟨by omega, h2, if_pos h2⟩)
    · exact .inr (.inr ⟨by omega, by omega, if_neg h2⟩)

/-- The end of a decompress leaves nothing of the internal tables it worked on. -/
@[simp] theorem deliver_work (n : Nat) (out : Option (List Byte)) (t : Tables) (s : State) (p : Params) :
    deliver n out (s.work t) p = deliver n out s p := by cases out <;> rfl

/-- The two ends of a decompress that has its output or has found its payload corrupt. -/
theorem deliver_eq (n : Nat) (out : Option (List Byte)) (s : State) (p : Params) :
    deliver n out s p = match out with
      | none => s.raise .corruptPayload [⟨p.dstAddr.toNat, n⟩]
      | some bytes => s.completeOk [(p.dstAddr.toNat, bytes)] n 0 := by
  cases out <;> rfl

/-- A decompress whose ORIG_LEN has been read: OVERFLOW, or the end of one that decodes to this output. -/
theorem decompressBody_eq (n : Nat) (build : Tables → Tables) (decode : Tables → List Byte → Option (List Byte))
    (s : State) (p : Params) :
    decompressBody n build decode s p =
      if p.dstCap.toNat < n then s.raise .overflow []
      else deliver n (decode (build s.tables) (srcData p s.mem)) s p := by
  unfold decompressBody
  split
  · rfl
  · exact deliver_work ..

/-- The three ends of a decompress whose ORIG_LEN has been read. -/
theorem decompressBody_cases (n : Nat) (build : Tables → Tables) (decode : Tables → List Byte → Option (List Byte))
    (s : State) (p : Params) :
    (p.dstCap.toNat < n ∧ decompressBody n build decode s p = s.raise .overflow []) ∨
    (n ≤ p.dstCap.toNat ∧ decode (build s.tables) (srcData p s.mem) = none ∧
      decompressBody n build decode s p = s.raise .corruptPayload [⟨p.dstAddr.toNat, n⟩]) ∨
    (∃ out, n ≤ p.dstCap.toNat ∧ decode (build s.tables) (srcData p s.mem) = some out ∧
      decompressBody n build decode s p = s.completeOk [(p.dstAddr.toNat, out)] n 0) := by
  rw [decompressBody_eq]
  by_cases h1 : p.dstCap.toNat < n
  · exact .inl ⟨h1, if_pos h1⟩
  · rw [if_neg h1]
    cases decode (build s.tables) (srcData p s.mem) with
    | none => exact .inr (.inl ⟨by omega, rfl, rfl⟩)
    | some out => exact .inr (.inr ⟨out, by omega, rfl, rfl⟩)

/-- A payload element of a decompress in progress answers a next state: its output, or CORRUPT_PAYLOAD. -/
theorem runElement_running {s : State} {l : Latched} {x : Expansion} (hl : s.latched = some l)
    (hx : s.expansion = some x) (effect : Params → Expansion → Option (List Byte)) :
    runElement s effect =
      .next (match effect l.snap x with
        | none => s.raise .corruptPayload [⟨l.snap.dstAddr.toNat, x.origLen⟩]
        | some out => s.advance x out) := by
  simp only [runElement, hl, hx]
  cases effect l.snap x <;> rfl

/-- Everything an element can do. -/
theorem runElement_next {s t : State} {effect : Params → Expansion → Option (List Byte)}
    (h : runElement s effect = .next t) :
    ∃ l x, s.latched = some l ∧ s.expansion = some x ∧
      ((effect l.snap x = none ∧ t = s.raise .corruptPayload [⟨l.snap.dstAddr.toNat, x.origLen⟩]) ∨
        ∃ out, effect l.snap x = some out ∧ t = s.advance x out) := by
  unfold runElement at h
  split at h
  · cases h
  · cases h
  · next l x hl hx =>
    refine ⟨l, x, hl, hx, ?_⟩
    split at h
    · next he => exact .inl ⟨he, by cases h; rfl⟩
    · next out he => exact .inr ⟨out, he, by cases h; rfl⟩

/-- A decompress whose payload is used up answers a next state. -/
theorem finishExpansion_running {s : State} {l : Latched} {x : Expansion} (hl : s.latched = some l)
    (hx : s.expansion = some x) :
    finishExpansion s =
      .next (deliver x.origLen (if x.out.length = x.origLen then some x.out else none) s l.snap) := by
  simp only [finishExpansion, hl, hx]

end Sys2Proof.Machine
end

