-- ==== Sys2Proof/Laws/Elements.lean ====
section
/-!
SUPPORT. Payload elements: tokens and their fields (30_encoding.md R89), what a token of any class does, and codes of
a bit sequence (R92).
-/

namespace Sys2Proof.Machine

/-! ## LZ77 tokens -/

theorem tokenDist_toNat (a b : Byte) : (tokenDist a b).toNat = 256 * a.toNat + b.toNat := by
  rw [tokenDist, BitVec.toNat_append, ← Nat.shiftLeft_add_eq_or_of_lt (by exact b.isLt), Nat.shiftLeft_eq]
  omega

theorem tokenDist_high (a b : Byte) : (tokenDist a b).extractLsb' 8 8 = a := by
  apply BitVec.eq_of_getLsbD_eq
  intro i hi
  rw [BitVec.getLsbD_extractLsb', tokenDist, BitVec.getLsbD_append]
  simp [hi]

theorem tokenDist_low (a b : Byte) : (tokenDist a b).extractLsb' 0 8 = b := by
  apply BitVec.eq_of_getLsbD_eq
  intro i hi
  rw [BitVec.getLsbD_extractLsb', tokenDist, BitVec.getLsbD_append]
  simp [hi]

theorem tokenDist_eta (d : BitVec 16) : tokenDist (d.extractLsb' 8 8) (d.extractLsb' 0 8) = d := by
  apply BitVec.eq_of_toNat_eq
  rw [tokenDist_toNat]
  simp only [BitVec.extractLsb'_toNat, Nat.shiftRight_eq_div_pow]
  omega

/-- A token of any class runs `lzExpand` on its fields (41_lz77.md R149). -/
theorem exec_token {s : State} {l : Latched} {x : Expansion} (hl : s.latched = some l) (hx : s.expansion = some x)
    (dist : BitVec 16) (len lit : Byte) :
    exec (classifyToken dist len lit) s =
      .next (match lzExpand l.snap.window.toNat x.origLen x.out dist.toNat len.toNat lit with
        | none => s.raise .corruptPayload [⟨l.snap.dstAddr.toNat, x.origLen⟩]
        | some out => s.advance x out) := by
  unfold classifyToken
  split_ifs with h1 h2 h2
  · subst h1 h2; simp only [exec, execLzLit, runElement_running hl hx] <;> rfl
  · subst h1; simp only [exec, execLzRef0, runElement_running hl hx] <;> rfl
  · subst h2; simp only [exec, execLzIllegal, runElement_running hl hx] <;> rfl
  · simp only [exec, execLzMatch, runElement_running hl hx] <;> rfl

/-- What an element that completes keeps. -/
theorem advance_frame (s : State) (x : Expansion) (out : List Byte) : ElementFrame s (s.advance x out) :=
  ⟨rfl, rfl, rfl, rfl, rfl, rfl, rfl, rfl, ⟨rfl, rfl, rfl, rfl, rfl, rfl⟩, rfl⟩

theorem advance_appended (s : State) (x : Expansion) (bytes : List Byte) :
    Appended x bytes (s.advance x (x.out ++ bytes)) := ⟨rfl, by simp⟩

/-! ## Huffman codes -/

/-- A code followed by anything is taken whole. -/
theorem takeCode_of_codeSym (nodes : List Node) (b : Byte) (rest : List Bool) : ∀ (code : List Bool) (cur : Nat),
    codeSym nodes cur code = some b → takeCode nodes cur (code ++ rest) = (code, rest) := by
  intro code
  induction code with
  | nil => intro cur h; simp [codeSym] at h
  | cons x bits ih =>
    intro cur h
    simp only [codeSym] at h
    simp only [List.cons_append, takeCode]
    split at h
    · cases h
    · next c hc =>
      try simp only [hc]
      split at h
      · next hsym => simp only [hsym, List.nil_append]
      · cases h
      · next hsym => simp only [hsym, ih c h]

/-- Taking a code loses no bit, and takes at least one where there is one. -/
theorem takeCode_append (nodes : List Node) : ∀ (bits : List Bool) (cur : Nat),
    (takeCode nodes cur bits).1 ++ (takeCode nodes cur bits).2 = bits ∧
      (bits ≠ [] → (takeCode nodes cur bits).1 ≠ []) := by
  intro bits
  induction bits with
  | nil => intro cur; simp [takeCode]
  | cons b bits ih =>
    intro cur
    simp only [takeCode]
    split
    · simp
    · split
      · simp
      · next c _ _ _ => simp [(ih c).1]

/-- The walk of a whole code emits its byte and is at the root again (40_huffman.md R119). -/
theorem hufWalk_code {nodes : List Node} {root origLen : Nat} (out : List Byte) (rest : List Bool) (b : Byte)
    (hL : out.length < origLen) : ∀ (code : List Bool) (cur : Nat), codeSym nodes cur code = some b →
    hufWalk nodes root origLen cur out (code ++ rest) = hufWalk nodes root origLen root (out ++ [b]) rest := by
  intro code
  induction code with
  | nil => intro cur h; simp [codeSym] at h
  | cons x bits ih =>
    intro cur h
    simp only [codeSym] at h
    simp only [List.cons_append, hufWalk]
    split at h
    · cases h
    · next c hc =>
      split at h
      · next hsym =>
        cases h
        rw [hsym]
        simp only [hufEmit]
        rw [if_neg (by omega)]
        rfl
      · cases h
      · next hsym =>
        rw [hsym]
        simp only
        rw [ih c h]

/-- A byte with a code in the table has the code the table gives it. -/
theorem codeOf_mem (b : Byte) : ∀ codes : List (Byte × List Bool), (∃ code, (b, code) ∈ codes) →
    (b, codeOf codes b) ∈ codes := by
  intro codes
  induction codes with
  | nil => simp
  | cons x codes ih =>
    rintro ⟨code, hc⟩
    simp only [codeOf, List.lookup]
    by_cases h : b = x.1
    · subst h; simp
    · have : (b == x.1) = false := by simpa using h
      rw [this]
      simp only
      rcases List.mem_cons.mp hc with rfl | hc
      · exact absurd rfl h
      · exact List.mem_cons_of_mem _ (ih ⟨code, hc⟩)

/-- A packed byte holds its eight bits, the first in bit 7 (40_huffman.md R115). -/
theorem byteBits_sum (f : Nat → Bool) :
    byteBits (BitVec.ofNat 8 (((List.range 8).map fun t => (f t).toNat * 2 ^ (7 - t)).sum)) = (List.range 8).map f := by
  simp only [List.range_succ, List.range_zero, List.map_append, List.map_cons, List.map_nil, List.nil_append,
    List.sum_append, List.sum_cons, List.sum_nil, byteBits]
  generalize f 0 = a0
  generalize f 1 = a1
  generalize f 2 = a2
  generalize f 3 = a3
  generalize f 4 = a4
  generalize f 5 = a5
  generalize f 6 = a6
  generalize f 7 = a7
  revert a0 a1 a2 a3 a4 a5 a6 a7
  decide

end Sys2Proof.Machine
end

