-- ==== Sys2Proof/Laws/Lz77.lean ====
section
/-!
SUPPORT. The LZ77 search and copy (41_lz77.md R141, R147): what a match length says, what the search keeps as its
best, and that copying a match rebuilds the data.
-/

namespace Sys2Proof.Machine

/-- `agreeing` is the length of the longest common beginning, up to the fuel. -/
theorem agreeing_spec : ∀ (fuel : Nat) (as bs : List Byte),
    agreeing fuel as bs ≤ fuel ∧ (∀ j < agreeing fuel as bs, as[j]? = bs[j]?) ∧
      ∀ l ≤ fuel, l ≤ as.length → l ≤ bs.length → (∀ j < l, as[j]? = bs[j]?) → l ≤ agreeing fuel as bs := by
  intro fuel
  induction fuel with
  | zero => intro as bs; simp [agreeing]
  | succ fuel ih =>
    intro as bs
    match as, bs with
    | [], bs => simp [agreeing]; intros; omega
    | a :: as, [] => simp [agreeing]; intros; omega
    | a :: as, b :: bs =>
      simp only [agreeing]
      obtain ⟨h1, h2, h3⟩ := ih as bs
      split
      · next hab =>
        subst hab
        refine ⟨by omega, ?_, ?_⟩
        · intro j hj
          cases j with
          | zero => rfl
          | succ j => simp only [List.getElem?_cons_succ]; exact h2 j (by omega)
        · intro l hl hl2 hl3 h
          cases l with
          | zero => omega
          | succ l =>
            have := h3 l (by omega) (by simpa using hl2) (by simpa using hl3)
              (fun j hj => by simpa using h (j + 1) (by omega))
            omega
      · next hab =>
        refine ⟨by omega, by simp, ?_⟩
        intro l hl hl2 hl3 h
        cases l with
        | zero => omega
        | succ l => have := h 0 (by omega); simp at this; exact absurd this hab

/-- A match length is the largest within the cap at which the bytes agree (41_lz77.md R141). -/
theorem matchLength_spec (d : List Byte) (pos dist : Nat) (hp : pos < d.length) :
    matchLength d pos dist ≤ min 255 (d.length - pos - 1) ∧
      (∀ j < matchLength d pos dist, d[pos - dist + j]? = d[pos + j]?) ∧
      ∀ l ≤ min 255 (d.length - pos - 1), (∀ j < l, d[pos - dist + j]? = d[pos + j]?) → l ≤ matchLength d pos dist := by
  obtain ⟨h1, h2, h3⟩ := agreeing_spec (lzMaxMatch d pos) (d.drop (pos - dist)) (d.drop pos)
  simp only [List.getElem?_drop] at h2 h3
  exact ⟨h1, h2, fun l hl h => h3 l hl (by simp; omega) (by simp; omega) h⟩

/-- The search ends with its first best, or with the nearest of the longest of the candidates it tried. -/
theorem searchFrom_spec (d : List Byte) (pos : Nat) : ∀ (n dist : Nat) (best : Nat × Nat),
    (searchFrom d pos n dist best = best ∨
      (best.1 < (searchFrom d pos n dist best).1 ∧ dist ≤ (searchFrom d pos n dist best).2 ∧
        (searchFrom d pos n dist best).2 < dist + n ∧
        (searchFrom d pos n dist best).1 = matchLength d pos (searchFrom d pos n dist best).2)) ∧
    best.1 ≤ (searchFrom d pos n dist best).1 ∧
    ∀ q, dist ≤ q → q < dist + n → matchLength d pos q ≤ (searchFrom d pos n dist best).1 ∧
      (q < (searchFrom d pos n dist best).2 → searchFrom d pos n dist best ≠ best →
        matchLength d pos q < (searchFrom d pos n dist best).1) := by
  intro n
  induction n with
  | zero => intro dist best; exact ⟨.inl rfl, Nat.le_refl _, by intros; omega⟩
  | succ n ih =>
    intro dist best
    simp only [searchFrom]
    have h := ih (dist + 1) (if best.1 < matchLength d pos dist then (matchLength d pos dist, dist) else best)
    generalize searchFrom d pos n (dist + 1)
      (if best.1 < matchLength d pos dist then (matchLength d pos dist, dist) else best) = r at *
    obtain ⟨h1, h2, h3⟩ := h
    by_cases hb : best.1 < matchLength d pos dist
    · rw [if_pos hb] at h1 h2 h3
      refine ⟨.inr ?_, by omega, ?_⟩
      · rcases h1 with rfl | h1
        · simp; exact hb
        · exact ⟨by omega, by omega, by omega, h1.2.2.2⟩
      · intro q hq1 hq2
        by_cases hqd : q = dist
        · subst hqd
          refine ⟨h2, fun hlt hne => ?_⟩
          rcases h1 with rfl | h1
          · simp at hlt
          · exact h1.1
        · have := h3 q (by omega) (by omega)
          refine ⟨this.1, fun hlt hne => ?_⟩
          rcases h1 with rfl | h1
          · simp at hlt; omega
          · apply this.2 hlt
            rintro rfl
            simp at h1
    · rw [if_neg hb] at h1 h2 h3
      refine ⟨?_, h2, ?_⟩
      · rcases h1 with rfl | h1
        · exact .inl rfl
        · exact .inr ⟨h1.1, by omega, by omega, h1.2.2.2⟩
      · intro q hq1 hq2
        by_cases hqd : q = dist
        · subst hqd
          refine ⟨by omega, fun hlt hne => ?_⟩
          rcases h1 with rfl | h1
          · exact absurd rfl hne
          · omega
        · exact h3 q (by omega) (by omega)

/-- Copying bytes that agree with the data behind them rebuilds the data. -/
theorem lzCopy_take (d : List Byte) (pos dist n : Nat) (h1 : 1 ≤ dist) (h2 : dist ≤ pos)
    (h : ∀ j < n, d[pos - dist + j]? = d[pos + j]?) (hl : pos + n ≤ d.length) :
    lzCopy dist n (d.take pos) = d.take (pos + n) := by
  induction n generalizing pos with
  | zero => rfl
  | succ n ih =>
    have e : (d.take pos).length = pos := by simp; omega
    have h0 := h 0 (by omega)
    simp only [Nat.add_zero] at h0
    have step : d.take pos ++ [(d.take pos).getD (pos - dist) 0#8] = d.take (pos + 1) := by
      rw [List.take_add_one]
      congr 1
      rw [List.getD_eq_getElem?_getD, List.getElem?_take_of_lt (by omega), h0]
      have : pos < d.length := by omega
      simp [List.getElem?_eq_getElem this]
    rw [lzCopy, e, step, ih (pos + 1) (by omega) _ (by omega)]
    · rw [show pos + (n + 1) = pos + 1 + n by omega]
    · intro j hj
      have := h (j + 1) (by omega)
      rw [show pos + 1 - dist + j = pos - dist + (j + 1) by omega, this, show pos + 1 + j = pos + (j + 1) by omega]

end Sys2Proof.Machine
end

