-- ==== Sys2Proof/Laws/Rle.lean ====
section
/-!
SUPPORT. The RLE encoder's runs and what the decoder makes of one (42_rle.md R160, R161, R166).
-/

namespace Sys2Proof.Machine

/-- `repeats` counts bytes that are all the same, within the room and the sequence. -/
theorem repeats_spec (v : Byte) : ∀ (room : Nat) (rest : List Byte),
    repeats v room rest ≤ room ∧ repeats v room rest ≤ rest.length ∧
      rest.take (repeats v room rest) = List.replicate (repeats v room rest) v := by
  intro room
  induction room with
  | zero => intro rest; simp [repeats]
  | succ room ih =>
    intro rest
    cases rest with
    | nil => simp [repeats]
    | cons b rest =>
      simp only [repeats]
      split
      · next h => subst h; have := ih rest; simp [List.replicate_succ, this]
      · simp

/-- A literal byte of a payload. -/
theorem rleExpandAll_lit {v : Byte} (hv : v ≠ Config.rleMarker) (origLen fuel : Nat) (out rest : List Byte) :
    rleExpandAll origLen (fuel + 1) out (v :: rest) =
      match rleExpand origLen out 1 v with
      | none => none
      | some out' => rleExpandAll origLen fuel out' rest := by
  rw [rleExpandAll.eq_def]
  simp only [if_neg hv] <;> rfl

/-- A run of a payload. -/
theorem rleExpandAll_run (origLen fuel : Nat) (out rest : List Byte) (c v : Byte) :
    rleExpandAll origLen (fuel + 1) out (Config.rleMarker :: c :: v :: rest) =
      match rleExpand origLen out c.toNat v with
      | none => none
      | some out' => rleExpandAll origLen fuel out' rest := by
  rw [rleExpandAll, if_pos rfl] <;> rfl

/-- The decoder turns what the encoder makes of one run back into the run. -/
theorem rleEmit_expand (origLen c : Nat) (v : Byte) (out rest : List Byte) (hc : 1 ≤ c) (hc2 : c ≤ 255)
    (hf : out.length + c ≤ origLen) :
    ∃ k, 1 ≤ k ∧ k ≤ (rleEmit c v).length ∧ ∀ fuel,
      rleExpandAll origLen (fuel + k) out (rleEmit c v ++ rest) =
        rleExpandAll origLen fuel (out ++ List.replicate c v) rest := by
  unfold rleEmit
  split
  · refine ⟨1, by omega, by simp, fun fuel => ?_⟩
    have : (BitVec.ofNat 8 c).toNat = c := by simp; omega
    simp [rleExpandAll, rleExpand, this, show ¬ origLen < out.length + c by omega]
  · split
    · next hv =>
      subst hv
      refine ⟨c, hc, by simp; omega, fun fuel => ?_⟩
      clear hc
      induction c generalizing out with
      | zero => simp
      | succ c ih =>
        simp only [List.replicate_succ, List.flatten_cons, List.cons_append, List.nil_append]
        rw [← Nat.add_assoc, rleExpandAll_run]
        have e1 : (1#8 : Byte).toNat = 1 := rfl
        simp only [e1, rleExpand]
        rw [if_neg (by omega)]
        simp only
        rw [ih (out ++ List.replicate 1 Config.rleMarker) (by omega) (by simp; omega) (by omega)]
        simp [List.replicate_succ]
    · next hv =>
      refine ⟨c, hc, by simp, fun fuel => ?_⟩
      clear hc
      induction c generalizing out with
      | zero => simp
      | succ c ih =>
        simp only [List.replicate_succ, List.cons_append]
        rw [← Nat.add_assoc, rleExpandAll_lit hv]
        simp only [rleExpand]
        rw [if_neg (by omega)]
        simp only
        rw [ih (out ++ List.replicate 1 v) (by omega) (by simp; omega) (by omega)]
        simp [List.replicate_succ]

end Sys2Proof.Machine
end

