-- ==== Sys2Proof/Laws/Tables.lean ====
section
/-!
SUPPORT. The engine's work on its internal tables (10_state.md R39): what the encoders leave in them, and that their
output is that of the pure functions of 00_scope.md R15.
-/

namespace Sys2Proof.Machine

/-! ## Sizes -/

/-- Tables cut to their sizes have them. -/
theorem Tables.fit_sized (t : Tables) : t.fit.Sized := by
  refine ⟨by simp [Tables.fit], ?_⟩
  simp only [Tables.fit, Vector.toList_map, List.mem_map]
  rintro code ⟨c, -, rfl⟩
  simp

@[simp] theorem Tables.emitted_sized (t : Tables) (n : Nat) : (t.emitted n).Sized ↔ t.Sized := Iff.rfl

/-! ## Huffman -/

@[simp] theorem byteTable_toList {α : Type} (entry : Nat → α) :
    (byteTable entry).toList = (List.range 256).map entry := by
  simp [byteTable, Vector.toList]

@[simp] theorem counts_length (t : Tables) : t.counts.length = 256 := by simp [Tables.counts]

/-- The engine's record has 256 counts. -/
theorem hufMade_freq_length (d : List Byte) (t : Tables) : (t.hufMade d).freq.length = 256 := by
  unfold Tables.hufMade hufEncode
  split <;> simp

/-- Counts of 32 bits stand in the frequency table as they are. -/
theorem buildTree_counts {f : List Nat} (hl : f.length = 256) (hf : ∀ v ∈ f, v < 4294967296) (t : Tables) :
    (t.buildTree f).counts = f := by
  apply List.ext_getElem
  · simp [hl]
  · intro i h1 h2
    have := hf _ (List.getElem_mem h2)
    simp only [Tables.counts, Tables.buildTree, byteTable_toList, List.map_map, List.getElem_map, List.getElem_range,
      Function.comp_apply, List.getD_eq_getElem?_getD, List.getElem?_eq_getElem h2, Option.getD_some,
      BitVec.toNat_ofNat]
    omega

@[simp] theorem buildTree_tree (f : List Nat) (t : Tables) : (t.buildTree f).tree = buildTree f := rfl

@[simp] theorem buildCodes_tree (t : Tables) : t.buildCodes.tree = t.tree := by
  unfold Tables.buildCodes; split <;> rfl

@[simp] theorem buildCodes_counts (t : Tables) : t.buildCodes.counts = t.counts := by
  unfold Tables.buildCodes; split <;> rfl

/-- With two byte values or more, the code table's entry is the code of the tree. -/
theorem buildCodes_codeAt {t : Tables} (hk : ¬ t.tree.k ≤ 1) (b : Byte) :
    t.buildCodes.codeAt b = codeOf (codeTable t.tree) b := by
  have : b.toNat < 256 := b.isLt
  unfold Tables.buildCodes
  rw [if_neg hk]
  simp [Tables.codeAt, List.getD_eq_getElem?_getD, this]

/-- The encoder at work on its tables is `huf_compress` (40_huffman.md R116); the output cursor plays no part in it. -/
theorem hufMade_eq {d : List Byte} (hd : d.length < 4294967296) (t : Tables) (n : Nat) :
    ((hufMake d t).1.emitted n).hufMade d = hufCompress d := by
  have hf : ∀ v ∈ freq d, v < 4294967296 := by
    intro v hv
    simp only [freq, List.mem_map] at hv
    obtain ⟨b, -, rfl⟩ := hv
    exact Nat.lt_of_le_of_lt List.count_le_length hd
  show hufEncode ((t.buildTree (freq d)).buildCodes).counts ((t.buildTree (freq d)).buildCodes).tree
    ((t.buildTree (freq d)).buildCodes).codeAt d = _
  rw [buildCodes_counts, buildCodes_tree, buildTree_counts (freq_length d) hf, buildTree_tree]
  unfold hufCompress hufEncode
  by_cases hk : (buildTree (freq d)).k ≤ 1
  · rw [if_pos hk, if_pos hk]
  · rw [if_neg hk, if_neg hk]
    simp only [funext (buildCodes_codeAt (t := t.buildTree (freq d)) hk), buildTree_tree]

/-- Its payload is that of `huf_compress`. -/
theorem hufMake_eq {d : List Byte} (hd : d.length < 4294967296) (t : Tables) :
    (hufMake d t).2 = (hufCompress d).payload := congrArg HufEncoded.payload (hufMade_eq hd t 0)

/-! ## RLE -/

theorem runAt_bounds (v : Byte) (rest : List Byte) : 1 ≤ runAt v rest ∧ runAt v rest ≤ 255 := by
  have := (repeats_spec v (Config.rleMaxRun - 1) rest).1
  have e : Config.rleMaxRun - 1 = 254 := rfl
  unfold runAt
  omega

/-- The run counter holds every run's length exactly, so the elements are those of R162. -/
theorem rleRuns_eq : ∀ (fuel : Nat) (d : List Byte) (run : Byte), (rleRuns fuel d run).2 = rleElements fuel d := by
  intro fuel
  induction fuel with
  | zero => intro d run; rfl
  | succ fuel ih =>
    intro d run
    match d with
    | [] => rfl
    | v :: rest =>
      have hc : (BitVec.ofNat 8 (runAt v rest)).toNat = runAt v rest := by
        have := runAt_bounds v rest
        rw [BitVec.toNat_ofNat]
        omega
      simp only [rleRuns, rleElements, ih, hc]

/-- The encoder at work is `rle_compress`. -/
theorem rleMake_eq (d : List Byte) (t : Tables) : (rleMake d t).2 = rleCompress d := rleRuns_eq d.length d t.run

/-! ## LZ77 -/

/-- The best so far of a search that stands at a candidate is the pure search's pair. -/
def Search.best (s : Search) : Nat × Nat := (s.bestLen.toNat, s.bestDist.toNat)

theorem matchLength_le (d : List Byte) (pos dist : Nat) : matchLength d pos dist ≤ 255 := by
  have := (agreeing_spec (lzMaxMatch d pos) (d.drop (pos - dist)) (d.drop pos)).1
  have e : lzMaxMatch d pos ≤ 255 := Nat.min_le_left ..
  unfold matchLength
  omega

theorem Search.probe_eq (d : List Byte) : ∀ (n : Nat) (s : Search), s.cand.toNat + n < 65536 →
    (Search.probe d n s).best = searchFrom d s.pos.toNat n (s.cand.toNat + 1) s.best ∧ (Search.probe d n s).pos = s.pos := by
  intro n
  induction n with
  | zero => intro s _; exact ⟨rfl, rfl⟩
  | succ n ih =>
    intro s hn
    have hc : (s.cand + 1#16).toNat = s.cand.toNat + 1 := by
      rw [BitVec.toNat_add]
      show (s.cand.toNat + 1) % 65536 = _
      omega
    have hl := matchLength_le d s.pos.toNat (s.cand.toNat + 1)
    simp only [Search.probe, searchFrom, hc]
    split
    · next hb =>
      obtain ⟨h1, h2⟩ := ih
        ⟨s.pos, s.cand + 1#16, BitVec.ofNat 8 (matchLength d s.pos.toNat (s.cand.toNat + 1)), s.cand + 1#16⟩
        (by simp only [hc]; omega)
      refine ⟨?_, h2⟩
      rw [h1]
      have e : (BitVec.ofNat 8 (matchLength d s.pos.toNat (s.cand.toNat + 1))).toNat =
          matchLength d s.pos.toNat (s.cand.toNat + 1) := by rw [BitVec.toNat_ofNat]; omega
      simp only [Search.best, hc, e]
      exact congrArg _ (if_pos hb).symm
    · next hb =>
      obtain ⟨h1, h2⟩ := ih { s with cand := s.cand + 1#16 } (by simp only [hc]; omega)
      refine ⟨?_, h2⟩
      rw [h1]
      simp only [Search.best, hc]
      exact congrArg _ (if_neg hb).symm

/-- The finished search is `best_match` (R141). -/
theorem Search.run_eq (d : List Byte) (window : Nat) (s : Search) (hw : window ≤ 65535) :
    (s.run d window).best = bestMatch d s.pos.toNat window ∧ (s.run d window).pos = s.pos :=
  Search.probe_eq d (min window s.pos.toNat) { s with cand := 0#16, bestLen := 0#8, bestDist := 0#16 } (by
    show 0 + min window s.pos.toNat < 65536
    omega)

/-- A finished search's token and its next position are those of `lz_step` (R142). -/
theorem Search.token_eq (d : List Byte) (window : Nat) (s : Search)
    (hb : s.best = bestMatch d s.pos.toNat window) (hp : s.pos.toNat < d.length) (hd : d.length < 4294967296) :
    s.token d = (lzStep d s.pos.toNat window).1 ∧ (s.move).pos.toNat = (lzStep d s.pos.toNat window).2 := by
  have h1 : (bestMatch d s.pos.toNat window).1 = s.bestLen.toNat := by rw [← hb]; rfl
  have h2 : (bestMatch d s.pos.toNat window).2 = s.bestDist.toNat := by rw [← hb]; rfl
  have hmax : s.bestLen.toNat ≤ d.length - s.pos.toNat - 1 := by
    have := (searchFrom_spec d s.pos.toNat (min window s.pos.toNat) 1 (0, 0)).1
    rw [← show bestMatch d s.pos.toNat window = searchFrom d s.pos.toNat (min window s.pos.toNat) 1 (0, 0) from rfl,
      ← hb] at this
    rcases this with h | ⟨-, -, -, h⟩
    · have := congrArg Prod.fst h
      simp only [Search.best] at this
      omega
    · have := (matchLength_spec d s.pos.toNat s.best.2 hp).1
      simp only [Search.best] at h this
      omega
  have := s.bestLen.isLt
  unfold Search.token Search.move lzStep
  simp only [h1, h2]
  split
  · refine ⟨?_, ?_⟩
    · have hi : s.bestDist.extractLsb' 8 8 = BitVec.ofNat 8 (s.bestDist.toNat / 256) := by
        apply BitVec.eq_of_toNat_eq
        simp only [BitVec.extractLsb'_toNat, Nat.shiftRight_eq_div_pow, BitVec.toNat_ofNat]
      have lo : s.bestDist.extractLsb' 0 8 = BitVec.ofNat 8 s.bestDist.toNat := by
        apply BitVec.eq_of_toNat_eq
        simp only [BitVec.extractLsb'_toNat, Nat.shiftRight_zero, BitVec.toNat_ofNat]
      rw [hi, lo]
      simp
    · simp only [BitVec.toNat_add, BitVec.toNat_setWidth, BitVec.toNat_ofNat]
      omega
  · refine ⟨rfl, ?_⟩
    simp only [BitVec.toNat_add, BitVec.toNat_ofNat]
    omega

theorem Search.tokens_eq (d : List Byte) (window : Nat) (hw : window ≤ 65535) (hd : d.length < 4294967296) :
    ∀ (fuel : Nat) (s : Search), (Search.tokens d window fuel s).2 = lzTokensFrom d window fuel s.pos.toNat := by
  intro fuel
  induction fuel with
  | zero => intro s; rfl
  | succ fuel ih =>
    intro s
    simp only [Search.tokens, lzTokensFrom]
    split
    · next hp =>
      obtain ⟨hb, hpos⟩ := Search.run_eq d window s hw
      rw [← hpos] at hb hp
      obtain ⟨ht, hm⟩ := Search.token_eq d window _ hb hp hd
      rw [ih, ht, hm, hpos]
    · rfl

/-- The encoder at work is `lz_compress`. -/
theorem lzMake_eq {d : List Byte} {window : Nat} (hw : window ≤ 65535) (hd : d.length < 4294967296) (t : Tables) :
    (lzMake window d t).2 = lzCompress window d := Search.tokens_eq d window hw hd d.length _

/-! ## The compress commands by the pure functions -/

theorem srcData_short (p : Params) (m : Memory) : (srcData p m).length < 4294967296 := by
  rw [srcData_length]; exact p.srcLen.isLt

/-- HUF_COMPRESS past the region check, by `huf_compress` (40_huffman.md R117). -/
theorem hufCompress_body (s : State) (p : Params) :
    compressBody Config.hufMetaSize hufMake (fun d t => hufRecord p.srcLen.toNat (t.hufMade d)) s p =
      compressEnd 1032 (hufCompress (srcData p s.mem)).payload
        (hufRecord p.srcLen.toNat (hufCompress (srcData p s.mem))) s p := by
  rw [compressBody_eq, hufMade_eq (srcData_short p s.mem), hufMake_eq (srcData_short p s.mem)]; rfl

/-- LZ_COMPRESS past the region check, by `lz_compress` (41_lz77.md R145). -/
theorem lzCompress_body (s : State) (p : Params) :
    compressBody Config.lzMetaSize (lzMake p.window.toNat) (fun _ _ => u32le p.srcLen.toNat) s p =
      compressEnd 4 (lzCompress p.window.toNat (srcData p s.mem)) (u32le p.srcLen.toNat) s p := by
  have := p.window.isLt
  rw [compressBody_eq, lzMake_eq (by omega) (srcData_short p s.mem)]; rfl

/-- RLE_COMPRESS past the region check, by `rle_compress` (42_rle.md R163). -/
theorem rleCompress_body (s : State) (p : Params) :
    compressBody Config.rleMetaSize rleMake (fun _ _ => u32le p.srcLen.toNat) s p =
      compressEnd 4 (rleCompress (srcData p s.mem)) (u32le p.srcLen.toNat) s p := by
  rw [compressBody_eq, rleMake_eq]; rfl

/-- HUF_DECOMPRESS's decoder on the tables it has built is `huf_decompress` (40_huffman.md R120). -/
theorem hufDecode_built (f : List Nat) (t : Tables) (origLen pad : Nat) :
    hufDecode (t.buildTree f).tree origLen pad = hufDecompress origLen pad f := rfl

end Sys2Proof.Machine
end

