-- ==== Sys2Proof/Laws/Engine.lean ====
section
/-!
SUPPORT. What the engine's turn can do, said once: the ways a command ends, and the ways an element does.
-/

namespace Sys2Proof.Machine

/-- The ways a command with snapshot `p` ends: an error with damage only where the command may write, or a success with
writes only there; damage and writes only after a passed region check. -/
def CommandEnd (s : State) (p : Params) (t : State) : Prop :=
  (∃ e zs, t = s.raise e zs ∧ (zs = [] ∨ regionOk s.memOk p = true) ∧ ∀ z ∈ zs, ∀ a, z.has a = true → p.writes a = true) ∨
  (∃ ws n q, t = s.completeOk ws n q ∧ CompletedOk s t n q ws ∧ regionOk s.memOk p = true ∧
    (q = 0 ∨ q = 4 ∨ q = 1032) ∧
    ∀ w ∈ ws, ∀ a, w.1 ≤ a → a < w.1 + w.2.length → p.writes a = true)

theorem commandEnd_raise (s : State) (p : Params) (e : CodecError) : CommandEnd s p (s.raise e []) :=
  .inl ⟨e, [], rfl, .inl rfl, by simp⟩

theorem compressBody_ends {s : State} {p : Params} (hr : regionOk s.memOk p = true) {size : Nat}
    {make : List Byte → Tables → Tables × List Byte} {record : List Byte → Tables → List Byte}
    (hsz : size = 4 ∨ size = 1032) (hrec : ∀ d t, (record d t).length = size) :
    CommandEnd s p (compressBody size make record s p) := by
  have hrec := hrec (srcData p s.mem)
    ((make (srcData p s.mem) s.tables).1.emitted (make (srcData p s.mem) s.tables).2.length)
  rw [compressBody_eq]
  rcases compressEnd_cases size _ _ s p with ⟨-, h⟩ | ⟨h1, h2, h⟩ | ⟨h1, h2, h⟩
  · rw [h]; exact commandEnd_raise ..
  · rw [h]
    refine .inl ⟨_, _, rfl, .inr hr, ?_⟩
    intro z hz a ha
    simp only [List.mem_cons, List.not_mem_nil, or_false] at hz
    rcases hz with rfl | rfl
    · simp [Params.writes, ha]
    · rw [Span.has_iff] at ha
      have : p.metaRegion.has a = true := by
        rw [Span.has_iff]; simp only [Params.metaRegion] at *; omega
      simp [Params.writes, this]
  · refine .inr ⟨_, _, _, h, ?_, hr, .inr hsz, ?_⟩
    · rw [h]
      obtain ⟨-, hd, hm, -, -, hdm⟩ := regionOk_places hr
      have hdm := Span.apart hdm
      simp only [Params.dstRegion, Params.metaRegion, Config.memorySize] at hd hm hdm
      have := p.dstCap.isLt
      have := p.dstAddr.isLt
      have := p.metaAddr.isLt
      apply completeOk_two <;> (try simp only [Config.memorySize]) <;> omega
    · intro w hw a ha hb
      simp only [List.mem_cons, List.not_mem_nil, or_false] at hw
      rcases hw with rfl | rfl
      · have : p.dstRegion.has a = true := by
          rw [Span.has_iff]; simp only [Params.dstRegion] at *; omega
        simp [Params.writes, this]
      · have : p.metaRegion.has a = true := by
          rw [Span.has_iff]; simp only [Params.metaRegion] at *; omega
        simp [Params.writes, this]

theorem decompressBody_ends {s : State} {p : Params} (hr : regionOk s.memOk p = true) {n : Nat}
    {build : Tables → Tables} {decode : Tables → List Byte → Option (List Byte)}
    (hlen : ∀ out, decode (build s.tables) (srcData p s.mem) = some out → out.length = n) :
    CommandEnd s p (decompressBody n build decode s p) := by
  rcases decompressBody_cases n build decode s p with ⟨-, h⟩ | ⟨h1, h2, h⟩ | ⟨out, h1, h2, h⟩
  · rw [h]; exact commandEnd_raise ..
  · rw [h]
    refine .inl ⟨_, _, rfl, .inr hr, ?_⟩
    intro z hz a ha
    simp only [List.mem_cons, List.not_mem_nil, or_false] at hz
    subst hz
    rw [Span.has_iff] at ha
    have : p.dstRegion.has a = true := by
      rw [Span.has_iff]; simp only [Params.dstRegion] at *; omega
    simp [Params.writes, this]
  · have hl := hlen _ h2
    refine .inr ⟨_, _, _, h, ?_, hr, .inl rfl, ?_⟩
    · rw [h]
      obtain ⟨-, hd, -, -, -, -⟩ := regionOk_places hr
      simp only [Params.dstRegion, Config.memorySize] at hd
      have := p.dstCap.isLt
      have := p.dstAddr.isLt
      apply completeOk_one <;> (try simp only [Config.memorySize]) <;> omega
    · intro w hw a ha hb
      simp only [List.mem_cons, List.not_mem_nil, or_false] at hw
      subst hw
      have : p.dstRegion.has a = true := by
        rw [Span.has_iff]; simp only [Params.dstRegion] at *; omega
      simp [Params.writes, this]

theorem runCommand_ends {s : State} {l : Latched} (hl : s.latched = some l) {body : Params → State}
    (hb : regionOk s.memOk l.snap = true → CommandEnd s l.snap (body l.snap)) :
    ∃ t, runCommand s body = .next t ∧ CommandEnd s l.snap t := by
  refine ⟨_, runCommand_latched hl body, ?_⟩
  split
  · exact hb ‹_›
  · exact commandEnd_raise ..

/-- Every latched command ends in one step of the engine. -/
theorem exec_command_ends {s : State} {l : Latched} (hl : s.latched = some l) :
    ∃ t, exec (decodeCommand l.word) s = .next t ∧ CommandEnd s l.snap t := by
  have ill : ∃ t, execIllegalCmd l.word s = .next t ∧ CommandEnd s l.snap t :=
    ⟨s.raise .unknownAlgorithm [], by simp [execIllegalCmd, withSnapshot, hl], commandEnd_raise ..⟩
  unfold decodeCommand
  split_ifs <;> simp only [exec] <;> first | exact ill | skip
  · exact runCommand_ends hl fun hr => compressBody_ends hr (.inr rfl) fun d t => hufRecord_length _ (hufMade_freq_length d t)
  · refine runCommand_ends hl fun hr => ?_
    split
    · next hm => exact decompressBody_ends hr fun _ h => hufDecompress_length (hufMetaOk_sum hm) h
    · exact commandEnd_raise ..
  · exact runCommand_ends hl fun hr => compressBody_ends hr (.inl rfl) fun _ _ => rfl
  · refine runCommand_ends hl fun hr => ?_
    split
    · exact commandEnd_raise ..
    · exact decompressBody_ends hr fun _ h => lzDecompress_length h
  · exact runCommand_ends hl fun hr => compressBody_ends hr (.inl rfl) fun _ _ => rfl
  · refine runCommand_ends hl fun hr => ?_
    split
    · exact commandEnd_raise ..
    · exact decompressBody_ends hr fun _ h => rleDecompress_length h

/-! ## Elements -/

/-- The ways an element of the running decompress `x` ends. -/
def ElementEnd (s : State) (l : Latched) (x : Expansion) (t : State) : Prop :=
  t = s.raise .corruptPayload [⟨l.snap.dstAddr.toNat, x.origLen⟩] ∨
    ∃ out, t = s.advance x out ∧ (x.out.length ≤ x.origLen → out.length ≤ x.origLen)

theorem runElement_ends {s : State} {l : Latched} {x : Expansion} (hl : s.latched = some l) (hx : s.expansion = some x)
    {effect : Params → Expansion → Option (List Byte)}
    (he : ∀ out, effect l.snap x = some out → x.out.length ≤ x.origLen → out.length ≤ x.origLen) :
    ∃ t, runElement s effect = .next t ∧ ElementEnd s l x t := by
  rw [runElement_running hl hx]
  refine ⟨_, rfl, ?_⟩
  cases h : effect l.snap x with
  | none => exact .inl rfl
  | some out => exact .inr ⟨out, rfl, he out h⟩

/-- Every element a payload decodes to ends in one step of the engine. -/
theorem exec_element_ends {s : State} {l : Latched} {x : Expansion} {tree : Tree} {feed rest : Feed} {i : Instr}
    (hf : fetchElement tree feed = .ok (i, rest)) (hl : s.latched = some l) (hx : s.expansion = some x) :
    ∃ t, exec i s = .next t ∧ ElementEnd s l x t := by
  have lz : ∀ d k lit, ∃ t, runElement s (fun p x => lzExpand p.window.toNat x.origLen x.out d k lit) = .next t ∧
      ElementEnd s l x t := fun d k lit => runElement_ends hl hx fun out h _ => lzExpand_length_le h
  have rle : ∀ c v, ∃ t, runElement s (fun _ x => rleExpand x.origLen x.out c v) = .next t ∧
      ElementEnd s l x t := fun c v => runElement_ends hl hx fun out h _ => rleExpand_length_le h
  have bad : ∃ t, runElement s (fun _ _ => none) = .next t ∧ ElementEnd s l x t := runElement_ends hl hx (by simp)
  cases feed with
  | huf bits =>
    cases bits with
    | nil => cases hf
    | cons b bits =>
      cases hf
      simp only [exec, execHufSym]
      refine runElement_ends hl hx fun out h hle => ?_
      split at h
      · cases h
      · unfold hufEmit at h
        split at h
        · cases h
        · cases h
          simp only [List.length_append, List.length_singleton]
          omega
  | lz bytes =>
    match bytes, hf with
    | byte0 :: byte1 :: len :: lit :: rest, hf =>
      cases hf
      unfold classifyToken
      split_ifs <;> exact lz _ _ _
    | [_], hf => cases hf; exact bad
    | [_, _], hf => cases hf; exact bad
    | [_, _, _], hf => cases hf; exact bad
  | rle bytes =>
    match bytes, hf with
    | b :: rest, hf =>
      simp only [fetchElement, decodeRle] at hf
      split at hf
      · match rest, hf with
        | [], hf => cases hf; exact bad
        | [_], hf => cases hf; exact bad
        | _ :: _ :: _, hf => cases hf; exact rle _ _
      · cases hf; exact rle _ _

/-- Every element is run as one: it answers a next state only in a running decompress. -/
theorem exec_element_runs {tree : Tree} {feed rest : Feed} {i : Instr}
    (hf : fetchElement tree feed = .ok (i, rest)) (s : State) : ∃ effect, exec i s = runElement s effect := by
  have lz : ∀ d k lit, ∃ effect, exec (classifyToken d k lit) s = runElement s effect := by
    intro d k lit
    unfold classifyToken
    split_ifs <;> simp only [exec, execLzLit, execLzMatch, execLzRef0, execLzIllegal] <;> exact ⟨_, rfl⟩
  have short : ∀ bytes, ∃ effect, exec (.lzTruncated bytes) s = runElement s effect := by
    intro bytes; simp only [exec, execLzTruncated]; exact ⟨_, rfl⟩
  have dangling : ∀ c, ∃ effect, exec (.rleDangling c) s = runElement s effect := by
    intro c; simp only [exec, execRleDangling]; exact ⟨_, rfl⟩
  cases feed with
  | huf bits =>
    cases bits with
    | nil => cases hf
    | cons b bits => cases hf; simp only [exec, execHufSym]; exact ⟨_, rfl⟩
  | lz bytes =>
    match bytes, hf with
    | byte0 :: byte1 :: len :: lit :: rest, hf => cases hf; exact lz _ _ _
    | [_], hf => cases hf; exact short _
    | [_, _], hf => cases hf; exact short _
    | [_, _, _], hf => cases hf; exact short _
  | rle bytes =>
    match bytes, hf with
    | b :: rest, hf =>
      simp only [fetchElement, decodeRle] at hf
      split at hf
      · match rest, hf with
        | [], hf => cases hf; exact dangling _
        | [_], hf => cases hf; exact dangling _
        | _ :: _ :: _, hf => cases hf; simp only [exec, execRleRun]; exact ⟨_, rfl⟩
      · cases hf; simp only [exec, execRleLit]; exact ⟨_, rfl⟩

/-! ## The engine's turn -/

/-- A running decompress, at a payload that is used up. -/
def PayloadEnd (s : State) (l : Latched) (x : Expansion) (t : State) : Prop :=
  t = deliver x.origLen (if x.out.length = x.origLen then some x.out else none) s l.snap

/-- The engine's turn with something latched answers a next state. -/
theorem engineTurn_latched {s : State} {l : Latched} (hl : s.latched = some l) : ∃ t, engineTurn s = .next t := by
  cases hp : s.phase with
  | idle => exact ⟨s, by simp [engineTurn, hp]⟩
  | busy =>
    cases hx : s.expansion with
    | none =>
      obtain ⟨t, ht, -⟩ := exec_command_ends hl
      exact ⟨t, by simp [engineTurn, hp, hx, hl, ht]⟩
    | some x =>
      cases hf : fetchElement s.tables.tree x.feed with
      | error e => exact ⟨_, by simp only [engineTurn, hp, hx, hf]; exact finishExpansion_running hl hx⟩
      | ok r =>
        obtain ⟨t, ht, -⟩ := exec_element_ends (s := s.consume x r.2) (x := { x with feed := r.2 }) hf hl rfl
        exact ⟨t, by simp only [engineTurn, hp, hx, hf]; exact ht⟩

/-- Everything the engine's turn can do. -/
theorem engineTurn_cases {s t : State} (h : engineTurn s = .next t) :
    (s.phase = .idle ∧ t = s) ∨
    (s.phase = .busy ∧ s.expansion = none ∧ ∃ l, s.latched = some l ∧ CommandEnd s l.snap t) ∨
    (s.phase = .busy ∧ ∃ x l, s.expansion = some x ∧ s.latched = some l ∧
      ((∃ rest, ElementEnd (s.consume x rest) l { x with feed := rest } t) ∨ PayloadEnd s l x t)) := by
  cases hp : s.phase with
  | idle => exact .inl ⟨rfl, by simp only [engineTurn, hp, Host.Outcome.next.injEq] at h; exact h.symm⟩
  | busy =>
    right
    cases hx : s.expansion with
    | none =>
      left
      cases hl : s.latched with
      | none => simp [engineTurn, hp, hx, hl] at h
      | some l =>
        obtain ⟨t', ht, he⟩ := exec_command_ends hl
        simp only [engineTurn, hp, hx, hl, ht, Host.Outcome.next.injEq] at h
        subst h
        exact ⟨rfl, rfl, l, rfl, he⟩
    | some x =>
      right
      refine ⟨rfl, x, ?_⟩
      cases hf : fetchElement s.tables.tree x.feed with
      | error e =>
        simp only [engineTurn, hp, hx, hf] at h
        cases hl : s.latched with
        | none => simp [finishExpansion, hl] at h
        | some l =>
          rw [finishExpansion_running hl hx, Host.Outcome.next.injEq] at h
          exact ⟨l, rfl, rfl, .inr h.symm⟩
      | ok r =>
        simp only [engineTurn, hp, hx, hf] at h
        obtain ⟨effect, he⟩ := exec_element_runs hf (s.consume x r.2)
        have hn : exec r.1 (s.consume x r.2) = .next t := h
        rw [he] at hn
        obtain ⟨l, -, hl, -⟩ := runElement_next hn
        obtain ⟨t', ht, hend⟩ := exec_element_ends (s := s.consume x r.2) (x := { x with feed := r.2 }) hf hl rfl
        have e : t' = t := by
          have := ht.symm.trans h
          simpa using this
        subst e
        exact ⟨l, rfl, hl, .inl ⟨r.2, hend⟩⟩

end Sys2Proof.Machine
end

