-- ==== Sys2Proof/Laws/Mmio.lean ====
section
/-!
SUPPORT. The register window (10_state.md R23): offsets and registers name each other, and what an access to an offset
is.
-/

namespace Sys2Proof.Machine

@[simp] theorem regAt_regOffset (r : Reg) : regAt (regOffset r) = some r := by cases r <;> rfl

theorem regAt_unmapped {offset : Nat} (h : 0x34 ≤ offset) : regAt offset = none := by
  unfold regAt
  repeat rw [if_neg (by omega)]

@[simp] theorem mmioRead_regOffset (r : Reg) (s : State) : mmioRead (regOffset r) s = readReg r s := by
  simp only [mmioRead, regAt_regOffset]

@[simp] theorem mmioWrite_regOffset (r : Reg) (v : Word) (s : State) :
    mmioWrite (regOffset r) v s = writeReg r v s := by
  simp only [mmioWrite, regAt_regOffset]

theorem mmioRead_unmapped {offset : Nat} (h : 0x34 ≤ offset) (s : State) : mmioRead offset s = 0#32 := by
  simp only [mmioRead, regAt_unmapped h]

theorem mmioWrite_unmapped {offset : Nat} (h : 0x34 ≤ offset) (v : Word) (s : State) : mmioWrite offset v s = s := by
  simp only [mmioWrite, regAt_unmapped h]

/-- An aligned 32-bit write in the window is the next step where it is the next event. -/
theorem step_mmioWrite {s : State} {rest : List Event} {offset : Nat} {v : Word}
    (h : s.pending = .mmioWrite .word offset v :: rest) (hw : offset < 256) (ha : offset % 4 = 0) :
    step s = .next (mmioWrite offset v { s with pending := rest }) := by
  simp [step, h, hostEvent, hostMmioWrite, inWindow, definedForm, Config.windowSize, hw, ha]

/-- An aligned 32-bit read in the window is the next step where it is the next event. -/
theorem step_mmioRead {s : State} {rest : List Event} {offset : Nat}
    (h : s.pending = .mmioRead .word offset :: rest) (hw : offset < 256) (ha : offset % 4 = 0) :
    step s = .next (State.answerMmio offset { s with pending := rest }) := by
  simp [step, h, hostEvent, hostMmioRead, inWindow, definedForm, Config.windowSize, hw, ha]

/-- With nothing pending, and with the engine's turn next, a step is that turn. -/
theorem step_engine {s : State} {rest : List Event}
    (h : s.pending = .engine :: rest ∨ (s.pending = [] ∧ rest = [])) : step s = engineTurn { s with pending := rest } := by
  rcases h with h | ⟨h, rfl⟩
  · simp [step, h, hostEvent]
  · have : { s with pending := [] } = s := by rw [← h]
    simp [step, h, this]

end Sys2Proof.Machine
end

