-- ==== Sys2Proof/Laws/PerInstr.lean ====
section
/-!
SUPPORT. One fact of every instruction as syntax, lemma by lemma: its encoding has a width the opcode table gives its
row.
-/

namespace Sys2Proof.Laws.EncodeWidth

open Sys2Proof

/-- The width of an encoded instruction in bits. -/
def bitsOf : Encoded → Nat
  | .command _ => 32
  | .bytes bytes => 8 * bytes.length
  | .bits bits => bits.length

/-- The least and the greatest width in the "width" column of an instruction's row. -/
def rowWidth : Instr → Nat × Nat
  | .hufCompress => (32, 32)
  | .hufDecompress => (32, 32)
  | .lzCompress => (32, 32)
  | .lzDecompress => (32, 32)
  | .rleCompress => (32, 32)
  | .rleDecompress => (32, 32)
  | .illegalCmd _ => (32, 32)
  | .hufSym _ => (1, 255)
  | .lzLit _ => (32, 32)
  | .lzMatch _ _ _ => (32, 32)
  | .lzRef0 _ _ => (32, 32)
  | .lzIllegal _ _ => (32, 32)
  | .lzTruncated _ => (8, 24)
  | .rleRun _ _ => (24, 24)
  | .rleLit _ => (8, 8)
  | .rleDangling _ => (8, 16)

/-- A well-formed instruction is as wide as its row says. -/
def Statement (i : Instr) : Prop :=
  WellFormed i → (rowWidth i).1 ≤ bitsOf (encode i) ∧ bitsOf (encode i) ≤ (rowWidth i).2

theorem hufCompress : Statement .hufCompress := fun _ => by decide
theorem hufDecompress : Statement .hufDecompress := fun _ => by decide
theorem lzCompress : Statement .lzCompress := fun _ => by decide
theorem lzDecompress : Statement .lzDecompress := fun _ => by decide
theorem rleCompress : Statement .rleCompress := fun _ => by decide
theorem rleDecompress : Statement .rleDecompress := fun _ => by decide
theorem illegalCmd (word : Word) : Statement (.illegalCmd word) := fun _ => ⟨Nat.le_refl _, Nat.le_refl _⟩

theorem hufSym (code : List Bool) : Statement (.hufSym code) := by
  intro h
  simp only [WellFormed, Instr.wf, Bool.and_eq_true, decide_eq_true_eq] at h
  exact h

theorem lzLit (lit : Byte) : Statement (.lzLit lit) := fun _ => ⟨Nat.le_refl _, Nat.le_refl _⟩
theorem lzMatch (dist : BitVec 16) (len lit : Byte) : Statement (.lzMatch dist len lit) :=
  fun _ => ⟨Nat.le_refl _, Nat.le_refl _⟩
theorem lzRef0 (dist : BitVec 16) (lit : Byte) : Statement (.lzRef0 dist lit) :=
  fun _ => ⟨Nat.le_refl _, Nat.le_refl _⟩
theorem lzIllegal (len lit : Byte) : Statement (.lzIllegal len lit) := fun _ => ⟨Nat.le_refl _, Nat.le_refl _⟩

theorem lzTruncated (bytes : List Byte) : Statement (.lzTruncated bytes) := by
  intro h
  simp only [WellFormed, Instr.wf, Bool.and_eq_true, decide_eq_true_eq] at h
  simp only [rowWidth, encode, bitsOf]
  omega

theorem rleRun (count value : Byte) : Statement (.rleRun count value) := fun _ => ⟨Nat.le_refl _, Nat.le_refl _⟩
theorem rleLit (byte : Byte) : Statement (.rleLit byte) := fun _ => ⟨Nat.le_refl _, Nat.le_refl _⟩

theorem rleDangling (count : Option Byte) : Statement (.rleDangling count) := by
  intro _
  cases count <;> simp [rowWidth, encode, bitsOf]

end Sys2Proof.Laws.EncodeWidth
end

