-- ==== Sys2Proof/Tests/Slice0.lean ====
section
/-!
SUPPORT. Small tests. Expected results come from spec/: words written out from 30_encoding.md, the vectors of
95_test_vectors.md (named V-…), or its rules by hand. Then, for each obligation with hypotheses, a state and operands
that meet them together, at the boundary values of its clauses.
-/

namespace Sys2Proof.Tests

open Sys2Proof Sys2Proof.Machine

set_option Elab.async false

/-! ## Small states -/

/-- Internal tables of an engine that has done nothing. -/
def noTables : Tables :=
  ⟨Vector.replicate 256 0#32, ⟨[], none, 0⟩, Vector.replicate 256 [], ⟨0#32, 0#16, 0#8, 0#16⟩, 0#32, 0#8⟩

/-- The two-leaf tree of V-H5: 41 = 0, 42 = 1. -/
def treeAB : Tree := ⟨[.leaf 0x41#8 1, .leaf 0x42#8 1, .node 0 1 2], some 2, 2⟩

/-- SRC at 0x1000, DST at 0x2000, META at 0x3000. -/
def regions (srcLen dstCap metaCap : Word) (window : BitVec 16) : Params :=
  ⟨0x1000#32, srcLen, 0x2000#32, dstCap, 0x3000#32, metaCap, window⟩

/-- An idle core; mem_ok holds for 0x1000 ≤ a < 0x6000, as in 95_test_vectors.md §3. -/
def idle (p : Params) (m : Memory) (events : List Event) : State where
  ctrlIE     := true
  status     := ⟨false, false, false, false, 0#4⟩
  params     := p
  outLen     := 0#32
  metaLen    := 0#32
  phase      := .idle
  latched    := none
  tables     := noTables
  expansion  := none
  mem        := m
  memOk      := [⟨0x1000, 0x5000⟩]
  pending    := events
  responses  := []
  unobserved := []
  draws      := []
  drawCount  := 0

/-- A core that has accepted `word` with the operands `p`. -/
def busy (word : Word) (p : Params) (m : Memory) (events : List Event) : State := (idle p m events).accept word

/-- A core that is executing a decompress element by element. -/
def decoding (word : Word) (p : Params) (tree : Tree) (x : Expansion) (events : List Event) : State :=
  { busy word p [] events with expansion := some x, tables := { noTables with tree := tree }.emitted x.out.length }

/-- Data at SRC and a record at META. -/
def image (src record : List Byte) : Memory := memWrite (memWrite [] 0x1000 src) 0x3000 record

/-- The state of an outcome that has one. -/
def after : Result → Option State
  | .next t => some t
  | .fault _ => none
  | .refused _ => none

/-- STATUS, OUT_LEN, META_LEN and the bytes of DST after an outcome. -/
def seen (r : Result) : Option (Word × Word × Word × List Byte) :=
  (after r).map fun t =>
    (readReg .status t, readReg .outLen t, readReg .metaLen t, memRead t.mem 0x2000 t.outLen.toNat)

/-- STATUS after an outcome. -/
def statusOf (r : Result) : Option Word := (after r).map (readReg .status)

/-- The output of the decompress in progress after an outcome. -/
def outputOf (r : Result) : Option (List Byte) := (after r).bind fun t => t.expansion.map Expansion.out

/-- "ABCDABCDE". -/
def abcdabcde : List Byte := [0x41#8, 0x42#8, 0x43#8, 0x44#8, 0x41#8, 0x42#8, 0x43#8, 0x44#8, 0x45#8]

/-- "ABRACADABRA". -/
def abracadabra : List Byte :=
  [0x41#8, 0x42#8, 0x52#8, 0x41#8, 0x43#8, 0x41#8, 0x44#8, 0x41#8, 0x42#8, 0x52#8, 0x41#8]

/-- The payload of V-L1. -/
def tokensL1 : List Byte :=
  [0x00#8, 0x00#8, 0x00#8, 0x41#8, 0x00#8, 0x00#8, 0x00#8, 0x42#8, 0x00#8, 0x00#8, 0x00#8, 0x43#8,
    0x00#8, 0x00#8, 0x00#8, 0x44#8, 0x00#8, 0x04#8, 0x04#8, 0x45#8]

/-- A Huffman record, written out as R85 lays it out. -/
def recordOf (origLen pad : Nat) (f : List Nat) : List Byte := u32le origLen ++ u32le pad ++ f.flatMap u32le

/-- FREQ of V-H5: 41:1, 42:1. -/
def freqAB : List Nat := List.replicate 0x41 0 ++ [1, 1] ++ List.replicate 189 0

/-- FREQ of V-H1: 41:5, 42:2, 43:1, 44:1, 52:2. -/
def freqH1 : List Nat := List.replicate 0x41 0 ++ [5, 2, 1, 1] ++ List.replicate 13 0 ++ [2] ++ List.replicate 173 0

/-! ## WellFormed refuses an ill-formed term of each check -/

theorem test_wf_illegalCmd : ¬ WellFormed (.illegalCmd 0x11#32) ∧ WellFormed (.illegalCmd 0x13#32) := by decide

theorem test_wf_hufSym : ¬ WellFormed (.hufSym []) ∧ ¬ WellFormed (.hufSym (List.replicate 256 true)) ∧
    WellFormed (.hufSym (List.replicate 255 true)) := by decide +kernel

theorem test_wf_lzMatch : ¬ WellFormed (.lzMatch 0#16 4#8 0x41#8) ∧ ¬ WellFormed (.lzMatch 1#16 0#8 0x41#8) ∧
    WellFormed (.lzMatch 1#16 1#8 0x00#8) := by decide

theorem test_wf_lzRef0 : ¬ WellFormed (.lzRef0 0#16 0x41#8) ∧ WellFormed (.lzRef0 65535#16 0x41#8) := by decide

theorem test_wf_lzIllegal : ¬ WellFormed (.lzIllegal 0#8 0x41#8) ∧ WellFormed (.lzIllegal 1#8 0x41#8) := by decide

theorem test_wf_lzTruncated : ¬ WellFormed (.lzTruncated []) ∧
    ¬ WellFormed (.lzTruncated [0#8, 0#8, 0#8, 0#8]) ∧ WellFormed (.lzTruncated [0#8, 0#8, 0#8]) := by decide

theorem test_wf_rleLit : ¬ WellFormed (.rleLit 0xFF#8) ∧ WellFormed (.rleLit 0xFE#8) := by decide

/-! ## Decoding, from words written out bit by bit -/

/-- ALG = 1, 2, 3 in bits 7:4 and DIR = 1, 2 in bits 3:0 (R81, R82). -/
theorem test_decode_commands :
    [0b00000000000000000000000000010001#32, 0b00000000000000000000000000010010#32,
      0b00000000000000000000000000100001#32, 0b00000000000000000000000000100010#32,
      0b00000000000000000000000000110001#32, 0b00000000000000000000000000110010#32].map decodeCommand =
    [.hufCompress, .hufDecompress, .lzCompress, .lzDecompress, .rleCompress, .rleDecompress] := by decide

/-- The words of V-D1, and one with only the top bit of RSVD too much (R83). -/
theorem test_decode_illegal_commands :
    [0x00000013#32, 0x00000000#32, 0x00000041#32, 0x00000111#32, 0x80000011#32].map decodeCommand =
    [.illegalCmd 0x00000013#32, .illegalCmd 0x00000000#32, .illegalCmd 0x00000041#32, .illegalCmd 0x00000111#32,
      .illegalCmd 0x80000011#32] := by decide

/-- The first leaf ends a code; bits that end before a leaf are a code cut short (R92, R93). -/
theorem test_decode_hufSym :
    decodeHuf ⟨[.leaf 0x61#8 1, .leaf 0x62#8 1, .leaf 0x63#8 2, .node 0 1 2, .node 2 3 4], some 4, 3⟩
      [true, false, true, true] = .ok (.hufSym [true, false], [true, true]) ∧
    decodeHuf ⟨[.leaf 0x61#8 1, .leaf 0x62#8 1, .leaf 0x63#8 2, .node 0 1 2, .node 2 3 4], some 4, 3⟩
      [true] = .ok (.hufSym [true], []) ∧
    decodeHuf treeAB [] = .error .endOfPayload := ⟨rfl, rfl, rfl⟩

/-- distanceHigh, distanceLow, matchLength, literal (R89, R90); a token of V-L12 and one of each class. -/
theorem test_decode_tokens :
    decodeLz [0x00#8, 0x00#8, 0x00#8, 0x7A#8, 0x99#8] = .ok (.lzLit 0x7A#8, [0x99#8]) ∧
    decodeLz [0x00#8, 0x01#8, 0xFF#8, 0x41#8] = .ok (.lzMatch 1#16 255#8 0x41#8, []) ∧
    decodeLz [0x12#8, 0x34#8, 0x00#8, 0x41#8] = .ok (.lzRef0 0x1234#16 0x41#8, []) ∧
    decodeLz [0x00#8, 0x00#8, 0x02#8, 0x42#8] = .ok (.lzIllegal 2#8 0x42#8, []) ∧
    decodeLz [0x00#8, 0x04#8, 0x04#8] = .ok (.lzTruncated [0x00#8, 0x04#8, 0x04#8], []) ∧
    decodeLz [] = .error .endOfPayload := ⟨rfl, rfl, rfl, rfl, rfl, rfl⟩

/-- MARKER, COUNT, VALUE; any other byte; a marker at the end (R91). -/
theorem test_decode_rle :
    decodeRle [0b11111111#8, 0x03#8, 0x41#8, 0x42#8] = .ok (.rleRun 3#8 0x41#8, [0x42#8]) ∧
    decodeRle [0x41#8, 0xFF#8] = .ok (.rleLit 0x41#8, [0xFF#8]) ∧
    decodeRle [0xFF#8, 0x03#8] = .ok (.rleDangling (some 3#8), []) ∧
    decodeRle [0xFF#8] = .ok (.rleDangling none, []) ∧
    decodeRle [] = .error .endOfPayload := ⟨rfl, rfl, rfl, rfl, rfl⟩

/-- The same from opcode-table words. -/
theorem test_decode_table_words :
    [(32, 0x11), (32, 0x32), (32, 0x00000041), (32, 0x00040445), (32, 0x00010042), (32, 0x00000242), (24, 0xFF0341),
      (8, 0x41), (8, 0xFF), (16, 0xFF03), (40, 0)].map (fun r => decodeTableWord r.1 r.2) =
    [some .hufCompress, some .rleDecompress, some (.lzLit 0x41#8), some (.lzMatch 4#16 4#8 0x45#8),
      some (.lzRef0 1#16 0x42#8), some (.lzIllegal 2#8 0x42#8), some (.rleRun 3#8 0x41#8), some (.rleLit 0x41#8),
      some (.rleDangling none), some (.rleDangling (some 3#8)), none] := by decide +kernel

/-- What withFetchWord places, the next step runs: an RLE run of 3, a literal, and a match that reaches before the
output's start, V-L16 (R148). -/
theorem test_withFetchWord_elements :
    outputOf (step ((idle (regions 0 0 0 4) [] []).withFetchWord 24 0xFF0341)) = some [0x41#8, 0x41#8, 0x41#8] ∧
    outputOf (step ((idle (regions 0 0 0 4) [] []).withFetchWord 32 0x00000041)) = some [0x41#8] ∧
    statusOf (step ((idle (regions 0 0 0 4) [] []).withFetchWord 32 0x00040445)) = some 0x00000306#32 := by
  decide +kernel

/-- A command word placed so is accepted, and runs with the registers as they stand: META_CAP = 0 (R167). -/
theorem test_withFetchWord_command :
    statusOf (step ((idle (regions 0 0 0 4) [] []).withFetchWord 32 0x32)) = some 0x00000206#32 := by decide +kernel

/-! ## The commands -/

/-- V-H1: 6E 8A DC. -/
theorem test_hufCompress_H1 :
    seen (step (busy 0x11#32 (regions 11 64 1032 4) (image abracadabra []) [])) =
      some (0x00000002#32, 3#32, 1032#32, [0x6E#8, 0x8A#8, 0xDC#8]) := by decide +kernel

/-- V-H10: the tie-break between a leaf and a merged node; 02 = 0, 00 = 10, 01 = 11. -/
theorem test_hufCompress_H10 : (hufCompress [0x00#8, 0x01#8, 0x02#8]).payload = [0xB0#8] ∧
    (hufCompress [0x00#8, 0x01#8, 0x02#8]).pad = 3 := by decide +kernel

/-- V-H1d. -/
theorem test_hufDecompress_H1d :
    seen (step (busy 0x12#32 (regions 3 11 1032 4) (image [0x6E#8, 0x8A#8, 0xDC#8] (recordOf 11 1 freqH1)) [])) =
      some (0x00000002#32, 11#32, 0#32, abracadabra) := by decide +kernel

/-- V-H18 (the bits end inside a code) and V-H14 (PADDING = 8). -/
theorem test_hufDecompress_H18_H14 :
    statusOf (step (busy 0x12#32 (regions 2 11 1032 4) (image [0x6E#8, 0x8A#8] (recordOf 11 1 freqH1)) [])) =
      some 0x00000306#32 ∧
    statusOf (step (busy 0x12#32 (regions 3 11 1032 4) (image [0x6E#8, 0x8A#8] (recordOf 11 8 freqH1)) [])) =
      some 0x00000206#32 := by decide +kernel

/-- V-L1: a match at the window edge. -/
theorem test_lzCompress_L1 :
    seen (step (busy 0x21#32 (regions 9 64 4 4) (image abcdabcde []) [])) =
      some (0x00000002#32, 20#32, 4#32, tokensL1) := by decide +kernel

/-- V-L8: the nearest of the longest matches, DIST 3 and LEN 9. -/
theorem test_lzCompress_L8 :
    (lzCompress 16 [0x61#8, 0x62#8, 0x63#8, 0x61#8, 0x62#8, 0x63#8, 0x61#8, 0x62#8, 0x63#8, 0x61#8, 0x62#8, 0x63#8,
      0x58#8]).drop 12 = [0x00#8, 0x03#8, 0x09#8, 0x58#8] := by decide +kernel

/-- V-L22: an overlapping copy, then the literal 00. -/
theorem test_lzDecompress_L22 :
    seen (step (busy 0x22#32 (regions 8 7 4 1)
      (image [0x00#8, 0x00#8, 0x00#8, 0x41#8, 0x00#8, 0x01#8, 0x05#8, 0x00#8] (u32le 7)) [])) =
      some (0x00000002#32, 7#32, 0#32, [0x41#8, 0x41#8, 0x41#8, 0x41#8, 0x41#8, 0x41#8, 0x00#8]) := by decide +kernel

/-- V-L9: DIST 4 exceeds W = 2. -/
theorem test_lzDecompress_L9 :
    statusOf (step (busy 0x22#32 (regions 20 9 4 2) (image tokensL1 (u32le 9)) [])) = some 0x00000306#32 := by
  decide +kernel

/-- V-R3: the shortest run; the record is 05 00 00 00. -/
theorem test_rleCompress_R3 :
    seen (step (busy 0x31#32 (regions 5 8 4 4) (image [0x41#8, 0x41#8, 0x41#8, 0x41#8, 0x42#8] []) [])) =
      some (0x00000002#32, 4#32, 4#32, [0xFF#8, 0x04#8, 0x41#8, 0x42#8]) := by decide +kernel

/-- V-R1 and V-R7. -/
theorem test_rleCompress_R1_R7 :
    rleCompress [0xFF#8, 0xFF#8, 0xFF#8] =
      [0xFF#8, 0x01#8, 0xFF#8, 0xFF#8, 0x01#8, 0xFF#8, 0xFF#8, 0x01#8, 0xFF#8] ∧
    rleCompress (List.replicate 256 0x41#8) = [0xFF#8, 0xFF#8, 0x41#8, 0x41#8] := by decide +kernel

/-- V-R14: COUNT 0 appends nothing. -/
theorem test_rleDecompress_R14 :
    seen (step (busy 0x32#32 (regions 4 1 4 4) (image [0xFF#8, 0x00#8, 0x41#8, 0x42#8] (u32le 1)) [])) =
      some (0x00000002#32, 1#32, 0#32, [0x42#8]) := by decide +kernel

/-- V-R16: ORIG_LEN 300, whose second byte is not 0, exceeds DST_CAP 299. -/
theorem test_rleDecompress_R16 :
    statusOf (step (busy 0x32#32 (regions 1 299 4 4) (image [0x41#8] [0x2C#8, 0x01#8]) [])) = some 0x00000406#32 := by
  decide +kernel

/-- V-D5: UNKNOWN_ALGORITHM comes before the region check. -/
theorem test_illegalCmd_D5 :
    seen (step (busy 0x13#32 ⟨0x1000#32, 5#32, 0x1004#32, 8#32, 0x3000#32, 4#32, 4#16⟩ [] [])) =
      some (0x00000106#32, 0#32, 0#32, []) := by decide +kernel

/-- V-D2: SRC and DST share 0x1004. V-D4: empty regions never overlap. -/
theorem test_region_check_D2_D4 :
    statusOf (step (busy 0x31#32 ⟨0x1000#32, 5#32, 0x1004#32, 8#32, 0x3000#32, 4#32, 4#16⟩ [] [])) =
      some 0x00000506#32 ∧
    statusOf (step (busy 0x31#32 ⟨0x1000#32, 0#32, 0x1000#32, 0#32, 0x3000#32, 4#32, 4#16⟩ [] [])) =
      some 0x00000002#32 := by decide +kernel

/-! ## The payload elements -/

/-- A whole code appends its byte; a 3rd symbol where ORIG_LEN is 2 is CORRUPT_PAYLOAD (R119). -/
theorem test_hufSym :
    outputOf (step (decoding 0x12#32 (regions 1 2 1032 4) treeAB ⟨.huf [true], 2, [0x41#8]⟩ [])) =
      some [0x41#8, 0x42#8] ∧
    statusOf (step (decoding 0x12#32 (regions 1 2 1032 4) treeAB ⟨.huf [true], 2, [0x41#8, 0x41#8]⟩ [])) =
      some 0x00000306#32 := by decide +kernel

/-- V-L19: the literal 00 is emitted. -/
theorem test_lzLit_L19 :
    outputOf (step (decoding 0x22#32 (regions 4 1 4 4) treeAB ⟨.lz [0#8, 0#8, 0#8, 0x00#8], 1, []⟩ [])) =
      some [0x00#8] := by decide +kernel

/-- The last token of V-L1, at DIST = W = cursor. -/
theorem test_lzMatch_L1 :
    outputOf (exec (.lzMatch 4#16 4#8 0x45#8)
      (decoding 0x22#32 (regions 20 9 4 4) treeAB ⟨.lz [], 9, [0x41#8, 0x42#8, 0x43#8, 0x44#8]⟩ [])) =
      some abcdabcde := by decide +kernel

/-- V-L18: LZ.REF0 appends its literal; past the window it is CORRUPT_PAYLOAD. -/
theorem test_lzRef0_L18 :
    outputOf (exec (.lzRef0 1#16 0x42#8) (decoding 0x22#32 (regions 8 2 4 4) treeAB ⟨.lz [], 2, [0x41#8]⟩ [])) =
      some [0x41#8, 0x42#8] ∧
    statusOf (exec (.lzRef0 1#16 0x42#8) (decoding 0x22#32 (regions 8 2 4 0) treeAB ⟨.lz [], 2, [0x41#8]⟩ [])) =
      some 0x00000306#32 := by decide +kernel

/-- V-L17 and V-L15. -/
theorem test_lzIllegal_L17_lzTruncated_L15 :
    statusOf (exec (.lzIllegal 2#8 0x42#8) (decoding 0x22#32 (regions 8 4 4 4) treeAB ⟨.lz [], 4, [0x41#8]⟩ [])) =
      some 0x00000306#32 ∧
    statusOf (exec (.lzTruncated [0x00#8, 0x04#8, 0x04#8])
      (decoding 0x22#32 (regions 19 9 4 4) treeAB ⟨.lz [], 9, [0x41#8]⟩ [])) = some 0x00000306#32 := by
  decide +kernel

/-- Three copies fill ORIG_LEN = 4 (R165); four do not fit. -/
theorem test_rleRun :
    outputOf (exec (.rleRun 3#8 0x41#8) (decoding 0x32#32 (regions 4 4 4 4) treeAB ⟨.rle [], 4, [0x42#8]⟩ [])) =
      some [0x42#8, 0x41#8, 0x41#8, 0x41#8] ∧
    statusOf (exec (.rleRun 4#8 0x41#8) (decoding 0x32#32 (regions 4 4 4 4) treeAB ⟨.rle [], 4, [0x42#8]⟩ [])) =
      some 0x00000306#32 := by decide +kernel

/-- V-R15: the second literal does not fit in ORIG_LEN = 1. V-R13: a dangling marker. -/
theorem test_rleLit_R15_rleDangling_R13 :
    outputOf (exec (.rleLit 0x41#8) (decoding 0x32#32 (regions 2 1 4 4) treeAB ⟨.rle [], 1, []⟩ [])) =
      some [0x41#8] ∧
    statusOf (exec (.rleLit 0x42#8) (decoding 0x32#32 (regions 2 1 4 4) treeAB ⟨.rle [], 1, [0x41#8]⟩ [])) =
      some 0x00000306#32 ∧
    statusOf (exec (.rleDangling (some 3#8)) (decoding 0x32#32 (regions 3 4 4 4) treeAB ⟨.rle [], 4, [0x41#8]⟩ [])) =
      some 0x00000306#32 := by decide +kernel

/-! ## Registers and the host port -/

/-- V-D6 and V-D9. -/
theorem test_status_write_D6_window_D9 :
    readReg .status (writeReg .status 0x00000002#32
      { idle (regions 0 0 0 4) [] [] with status := ⟨false, true, true, false, 3#4⟩ }) = 0x00000304#32 ∧
    readReg .lzWindow (writeReg .lzWindow 0x12340010#32 (idle (regions 0 0 0 4) [] [])) = 0x00000010#32 := by decide

/-- V-D8: reads of CMD, offset 0x40 and CAPS. -/
theorem test_reads_D8 :
    mmioRead 0x0C (idle (regions 0 0 0 4) [] []) = 0#32 ∧ mmioRead 0x40 (idle (regions 0 0 0 4) [] []) = 0#32 ∧
    mmioRead 0x00 (idle (regions 0 0 0 4) [] []) = 7#32 := by decide

/-- V-D11: a CMD write while BUSY is dropped and sets OVR. V-D10: irq follows DONE. -/
theorem test_overrun_D11_irq_D10 :
    readReg .status (writeReg .cmd 0x31#32 (busy 0x31#32 (regions 5 8 4 4) [] [])) = 0x00000009#32 ∧
    (writeReg .cmd 0x22#32 (busy 0x31#32 (regions 5 8 4 4) [] [])).latched = some ⟨0x31#32, regions 5 8 4 4⟩ ∧
    (after (step (busy 0x31#32 (regions 0 8 4 4) [] []))).map State.irq = some true := by decide +kernel

/-! ## Hypotheses that can be met: the host port -/

/-- ResetGivesResetValues: the reset input of an idle core and of a running command. -/
theorem test_meets_ResetGivesResetValues :
    (idle (regions 5 8 4 4) [] [.reset]).pending = .reset :: [] ∧
    (busy 0x31#32 (regions 5 8 4 4) [] [.reset, .engine]).pending = .reset :: [.engine] := by decide

/-- ResetSparesMemory: the bytes around DST = [0x2000, 0x2008), and with nothing latched every byte. -/
theorem test_meets_ResetSparesMemory :
    (busy 0x31#32 (regions 5 8 4 4) [] [.reset]).pending = .reset :: [] ∧
    [0x1FFF, 0x2000, 0x2007, 0x2008].map (busy 0x31#32 (regions 5 8 4 4) [] [.reset]).volatileAt =
      [false, true, true, false] ∧
    (idle (regions 5 8 4 4) [] [.reset]).volatileAt 0x2000 = false := by decide

/-- MmioWriteEffects, CommandAccept, CommandWriteWhileBusyIsDropped: a write to the first and the last offset of each
clause, in both phases. -/
theorem test_meets_MmioWriteEffects :
    (∀ o ∈ [0x00, 0x04, 0x08, 0x0C, 0x10, 0x14, 0x18, 0x1C, 0x20, 0x24, 0x28, 0x2C, 0x30, 0x34, 0xFC],
      (idle (regions 5 8 4 4) [] [.mmioWrite .word o 0xFFFFFFFF#32]).pending =
        .mmioWrite .word o 0xFFFFFFFF#32 :: [] ∧ o < 256 ∧ o % 4 = 0) ∧
    (idle (regions 5 8 4 4) [] [.mmioWrite .word 0x0C 0x31#32]).phase = .idle ∧
    (busy 0x31#32 (regions 5 8 4 4) [] [.mmioWrite .word 0x0C 0x31#32]).phase = .busy ∧
    (busy 0x31#32 (regions 5 8 4 4) [] [.mmioWrite .word 0x0C 0x31#32]).pending =
      .mmioWrite .word 0x0C 0x31#32 :: [] := by decide

/-- MmioReadReturnsRegister: a read of the first and the last offset of each clause. -/
theorem test_meets_MmioReadReturnsRegister :
    ∀ o ∈ [0x00, 0x04, 0x08, 0x0C, 0x10, 0x14, 0x18, 0x1C, 0x20, 0x24, 0x28, 0x2C, 0x30, 0x34, 0xFC],
      (idle (regions 5 8 4 4) [] [.mmioRead .word o]).pending = .mmioRead .word o :: [] ∧ o < 256 ∧ o % 4 = 0 := by
  decide

/-- OtherMmioFormsRefused: a narrow, a misaligned and an outside access. -/
theorem test_meets_OtherMmioFormsRefused :
    (idle (regions 5 8 4 4) [] [.mmioRead .half 0]).pending = .mmioRead .half 0 :: [] ∧ AccessWidth.half ≠ .word ∧
    (idle (regions 5 8 4 4) [] [.mmioWrite .word 255 0#32]).pending = .mmioWrite .word 255 0#32 :: [] ∧
    255 < 256 ∧ 255 % 4 ≠ 0 ∧
    (idle (regions 5 8 4 4) [] [.mmioRead .word 256]).pending = .mmioRead .word 256 :: [] ∧ 256 ≤ 256 := by decide

/-- ParameterWriteSparesRunningCommand: a busy engine whose turn goes on. -/
theorem test_meets_ParameterWriteSparesRunningCommand :
    (busy 0x13#32 (regions 5 8 4 4) [] []).phase = .busy ∧
    ∃ t, engineTurn (busy 0x13#32 (regions 5 8 4 4) [] []) = .next t := ⟨rfl, _, rfl⟩

/-- InterruptLevel: a turn that completes; a STATUS write that names DONE. -/
theorem test_meets_InterruptLevel :
    (busy 0x13#32 (regions 5 8 4 4) [] []).phase = .busy ∧
    (∃ t, engineTurn (busy 0x13#32 (regions 5 8 4 4) [] []) = .next t ∧ t.phase = .idle) ∧
    (idle (regions 5 8 4 4) [] []).phase = .idle ∧ (2#32).getLsbD 1 = true := ⟨rfl, ⟨_, rfl, rfl⟩, rfl, rfl⟩

/-- HostWriteLandsOrIsRefused: the last byte of SRC = [0x1000, 0x1005), the byte after it, and the last byte of
memory. -/
theorem test_meets_HostWriteLandsOrIsRefused :
    let s := fun addr bytes => busy 0x31#32 (regions 5 8 4 4) [] [.memWrite addr bytes]
    (s 0x1004#32 [0x41#8]).pending = .memWrite 0x1004#32 [0x41#8] :: [] ∧
    (s 0x1004#32 [0x41#8]).unobserved = [regions 5 8 4 4] ∧
    (regions 5 8 4 4).srcRegion.has 0x1004 = true ∧
    ([0x1005, 0x1FFF, 0x2008, 0x2FFF, 0x3004, 4294967295].all fun a =>
      !(regions 5 8 4 4).srcRegion.has a && !(regions 5 8 4 4).dstRegion.has a &&
        !(regions 5 8 4 4).metaRegion.has a) = true ∧
    (0xFFFFFFFF#32).toNat + [0x41#8].length ≤ 4294967296 := by decide +kernel

/-- HostReadReturnsMemory: the bytes around DST while BUSY, with the command latched, and any byte while IDLE. -/
theorem test_meets_HostReadReturnsMemory :
    (busy 0x31#32 (regions 5 8 4 4) [] [.memRead 0x2006#32 4]).latched = some ⟨0x31#32, regions 5 8 4 4⟩ ∧
    (busy 0x31#32 (regions 5 8 4 4) [] [.memRead 0x2006#32 4]).pending = .memRead 0x2006#32 4 :: [] ∧
    (0x2006#32).toNat + 4 ≤ 4294967296 ∧ (0xFFFFFFFF#32).toNat + 1 ≤ 4294967296 ∧
    [0x2007, 0x2008, 0x3003, 0x3004].map (fun a =>
      (regions 5 8 4 4).dstRegion.has a || (regions 5 8 4 4).metaRegion.has a) = [true, false, true, false] ∧
    (idle (regions 5 8 4 4) [] [.memRead 0x2006#32 4]).latched = none := by decide +kernel

/-! ## Hypotheses that can be met: the engine -/

/-- StepRunsTheDecodedInstruction: an engine turn listed or not, a command and a payload element. -/
theorem test_meets_StepRunsTheDecodedInstruction :
    (busy 0x31#32 (regions 5 8 4 4) [] [.engine]).phase = .busy ∧
    (busy 0x31#32 (regions 5 8 4 4) [] [.engine]).pending = .engine :: [] ∧
    (busy 0x31#32 (regions 5 8 4 4) [] []).pending = [] ∧
    (busy 0x31#32 (regions 5 8 4 4) [] []).expansion = none ∧
    (busy 0x31#32 (regions 5 8 4 4) [] []).latched = some ⟨0x31#32, regions 5 8 4 4⟩ ∧
    (decoding 0x12#32 (regions 1 2 1032 4) treeAB ⟨.huf [true, false], 2, []⟩ []).expansion =
      some ⟨.huf [true, false], 2, []⟩ ∧
    fetchElement treeAB (.huf [true, false]) = .ok (.hufSym [true], .huf [false]) :=
  ⟨rfl, rfl, rfl, rfl, rfl, rfl, rfl⟩

/-- EngineCompletesCommandInOneStep and the three …IsElementwise: a busy engine with a command latched.
IdleEngineWaits: an idle one with nothing pending. -/
theorem test_meets_engine_states :
    (busy 0x12#32 (regions 5 8 4 4) [] []).phase = .busy ∧ (busy 0x12#32 (regions 5 8 4 4) [] []).expansion = none ∧
    (busy 0x12#32 (regions 5 8 4 4) [] []).latched = some ⟨0x12#32, regions 5 8 4 4⟩ ∧
    (idle (regions 5 8 4 4) [] []).phase = .idle ∧ (idle (regions 5 8 4 4) [] []).pending = [] := by decide

/-- RegionErrorCompletes: each of the three tests of R54 failing alone: past 2^32 (V-D3), outside mem_ok, an overlap in
one byte (V-D2). -/
theorem test_meets_RegionErrorCompletes :
    (busy 0x31#32 (regions 5 8 4 4) [] []).latched = some ⟨0x31#32, regions 5 8 4 4⟩ ∧
    regionOk [⟨0, 8589934592⟩] ⟨0xFFFFFFF0#32, 0x20#32, 0x2000#32, 8#32, 0x3000#32, 4#32, 4#16⟩ = false ∧
    regionOk [⟨0x1000, 0x5000⟩] ⟨0x5FFF#32, 2#32, 0x2000#32, 8#32, 0x3000#32, 4#32, 4#16⟩ = false ∧
    regionOk [⟨0x1000, 0x5000⟩] ⟨0x5FFF#32, 1#32, 0x2000#32, 8#32, 0x3000#32, 4#32, 4#16⟩ = true ∧
    regionOk [⟨0x1000, 0x5000⟩] ⟨0x1000#32, 5#32, 0x1004#32, 8#32, 0x3000#32, 4#32, 4#16⟩ = false ∧
    regionOk [⟨0x1000, 0x5000⟩] ⟨0x1000#32, 5#32, 0x1005#32, 8#32, 0x3000#32, 4#32, 4#16⟩ = true := by
  decide +kernel

/-- DamageTakesAnyValue: the last byte of memory; a reset that aborts a command; V-R17's payload of four bytes against
DST_CAP 3; V-R13's dangling marker. -/
theorem test_meets_DamageTakesAnyValue :
    (Span.mk 4294967294 4).has 4294967295 = true ∧
    (busy 0x31#32 (regions 5 3 4 4) [] [.reset]).pending = .reset :: [] ∧
    (busy 0x31#32 (regions 5 3 4 4) [] [.reset]).latched = some ⟨0x31#32, regions 5 3 4 4⟩ ∧
    (regions 5 3 4 4).dstRegion.has 0x2002 = true ∧ (regions 5 3 4 4).metaRegion.has 0x3003 = true ∧
    regionOk [⟨0x1000, 0x5000⟩] (regions 5 3 4 4) = true ∧ 4 ≤ (regions 5 3 4 4).metaCap.toNat ∧
    (after (exec .rleCompress (busy 0x31#32 (regions 5 3 4 4)
      (image [0x41#8, 0x41#8, 0x41#8, 0x41#8, 0x42#8] []) []))).map (fun t => t.status.err) = some true ∧
    (after (exec .rleDecompress (busy 0x32#32 (regions 2 2 4 4)
      (image [0x41#8, 0xFF#8] (u32le 2)) []))).map (fun t => t.status.errCode) = some 3#4 := by decide +kernel

/-- IllegalCommandCompletes: words next to the legal ones. -/
theorem test_meets_IllegalCommandCompletes :
    ([0x10#32, 0x13#32, 0x20#32, 0x30#32, 0x33#32, 0x41#32, 0x111#32].all fun w =>
      !([0x11#32, 0x12#32, 0x21#32, 0x22#32, 0x31#32, 0x32#32].contains w)) = true ∧
    (idle (regions 5 8 4 4) [] [.mmioWrite .word 0x0C 0x13#32]).pending = .mmioWrite .word 0x0C 0x13#32 :: [] ∧
    (busy 0x13#32 (regions 5 8 4 4) [] []).latched = some ⟨0x13#32, regions 5 8 4 4⟩ ∧
    (idle (regions 5 8 4 4) [] [.mmioWrite .word 0x0C 0x13#32]).phase = .idle := by decide

/-! ## Hypotheses that can be met: the commands -/

/-- HufCompressResult: META_CAP 1031 and 1032; V-H1's three payload bytes against DST_CAP 2 (V-H25) and 3. -/
theorem test_meets_HufCompressResult :
    let m := image abracadabra []
    (busy 0x11#32 (regions 11 2 1032 4) m []).latched = some ⟨0x11#32, regions 11 2 1032 4⟩ ∧
    regionOk [⟨0x1000, 0x5000⟩] (regions 11 2 1031 4) = true ∧
    regionOk [⟨0x1000, 0x5000⟩] (regions 11 2 1032 4) = true ∧
    regionOk [⟨0x1000, 0x5000⟩] (regions 11 3 1032 4) = true ∧
    (regions 11 2 1031 4).metaCap.toNat < 1032 ∧ 1032 ≤ (regions 11 2 1032 4).metaCap.toNat ∧
    (regions 11 2 1032 4).dstCap.toNat < (hufCompress (memRead m 0x1000 11)).payload.length ∧
    (hufCompress (memRead m 0x1000 11)).payload.length ≤ (regions 11 3 1032 4).dstCap.toNat := by decide +kernel

/-- The record of V-H5 in memory, read whole, is the record with the table of V-H5. -/
theorem test_record_H5 (origLen pad : Nat) (ho : origLen < 4294967296) (hp : pad < 4294967296) :
    recordField (memRead (image [0x40#8] (recordOf origLen pad freqAB)) 0x3000 1032) 0 = origLen ∧
    recordField (memRead (image [0x40#8] (recordOf origLen pad freqAB)) 0x3000 1032) 4 = pad ∧
    recordFreq (memRead (image [0x40#8] (recordOf origLen pad freqAB)) 0x3000 1032) = freqAB := by
  have hl : (recordOf origLen pad freqAB).length = 1032 := by
    have h256 : freqAB.length = 256 := by decide +kernel
    rw [recordOf, List.length_append, flatMap_u32le_length, h256]; rfl
  have hr : memRead (image [0x40#8] (recordOf origLen pad freqAB)) 0x3000 1032 = recordOf origLen pad freqAB := by
    have := memRead_memWrite (recordOf origLen pad freqAB) (memWrite [] 0x1000 [0x40#8]) 0x3000
      (by rw [hl]; decide)
    rwa [hl] at this
  rw [hr]
  exact ⟨fromU32le_u32le origLen ho, fromU32le_u32le pad hp,
    recordFreq_record _ _ _ (by decide +kernel) (by decide +kernel)⟩

/-- HufDecompressResult on the record of V-H5 (test_record_H5): each check of R118 failing alone, DST_CAP one below and
equal to ORIG_LEN, a payload that decodes (V-H5) and one that does not (V-H22b). -/
theorem test_meets_HufDecompressResult :
    regionOk [⟨0x1000, 0x5000⟩] (regions 1 1 1032 4) = true ∧
    regionOk [⟨0x1000, 0x5000⟩] (regions 1 2 1032 4) = true ∧
    ¬ (1032 ≤ (regions 1 2 1031 4).metaCap.toNat) ∧ ¬ (8 ≤ 7) ∧
    ¬ (freqAB.sum = 3) ∧ (2 ≤ distinct freqAB ∧ 8 * (regions 0 2 1032 4).srcLen.toNat < 1) ∧
    (1032 ≤ (regions 1 2 1032 4).metaCap.toNat ∧ 6 ≤ 7 ∧ freqAB.sum = 2 ∧
      ¬ (2 ≤ distinct freqAB ∧ 8 * (regions 1 2 1032 4).srcLen.toNat < 6)) ∧
    (regions 1 1 1032 4).dstCap.toNat < 2 ∧ 2 ≤ (regions 1 2 1032 4).dstCap.toNat ∧
    hufDecompress 2 5 freqAB [0x40#8] = none ∧ hufDecompress 2 6 freqAB [0x40#8] = some [0x41#8, 0x42#8] := by
  decide +kernel

/-- LzCompressResult: META_CAP 3 and 4; V-L1's twenty payload bytes against DST_CAP 19 (V-L23) and 20. -/
theorem test_meets_LzCompressResult :
    let m := image abcdabcde []
    (busy 0x21#32 (regions 9 19 4 4) m []).latched = some ⟨0x21#32, regions 9 19 4 4⟩ ∧
    regionOk [⟨0x1000, 0x5000⟩] (regions 9 19 3 4) = true ∧ regionOk [⟨0x1000, 0x5000⟩] (regions 9 19 4 4) = true ∧
    regionOk [⟨0x1000, 0x5000⟩] (regions 9 20 4 4) = true ∧
    (regions 9 19 3 4).metaCap.toNat < 4 ∧ 4 ≤ (regions 9 19 4 4).metaCap.toNat ∧
    (regions 9 19 4 4).dstCap.toNat < (lzCompress 4 (memRead m 0x1000 9)).length ∧
    (lzCompress 4 (memRead m 0x1000 9)).length ≤ (regions 9 20 4 4).dstCap.toNat := by decide +kernel

/-- LzDecompressResult: META_CAP 3 and 4; ORIG_LEN 9 against DST_CAP 8 (V-L20) and 9; W = 2 (V-L9) and 4. -/
theorem test_meets_LzDecompressResult :
    let m := image tokensL1 (u32le 9)
    (busy 0x22#32 (regions 20 9 4 4) m []).latched = some ⟨0x22#32, regions 20 9 4 4⟩ ∧
    regionOk [⟨0x1000, 0x5000⟩] (regions 20 9 3 4) = true ∧ regionOk [⟨0x1000, 0x5000⟩] (regions 20 8 4 4) = true ∧
    regionOk [⟨0x1000, 0x5000⟩] (regions 20 9 4 4) = true ∧
    (regions 20 9 3 4).metaCap.toNat < 4 ∧ 4 ≤ (regions 20 9 4 4).metaCap.toNat ∧
    fromU32le (memRead m 0x3000 4) = 9 ∧ (regions 20 8 4 4).dstCap.toNat < 9 ∧
    9 ≤ (regions 20 9 4 4).dstCap.toNat ∧ lzDecompress 2 9 (memRead m 0x1000 20) = none ∧
    lzDecompress 4 9 (memRead m 0x1000 20) = some abcdabcde := by decide +kernel

/-- RleCompressResult: META_CAP 3 and 4; V-R3's four payload bytes against DST_CAP 3 (V-R17) and 4. -/
theorem test_meets_RleCompressResult :
    let m := image [0x41#8, 0x41#8, 0x41#8, 0x41#8, 0x42#8] []
    (busy 0x31#32 (regions 5 3 4 4) m []).latched = some ⟨0x31#32, regions 5 3 4 4⟩ ∧
    regionOk [⟨0x1000, 0x5000⟩] (regions 5 3 3 4) = true ∧ regionOk [⟨0x1000, 0x5000⟩] (regions 5 3 4 4) = true ∧
    regionOk [⟨0x1000, 0x5000⟩] (regions 5 4 4 4) = true ∧
    (regions 5 3 3 4).metaCap.toNat < 4 ∧ 4 ≤ (regions 5 3 4 4).metaCap.toNat ∧
    (regions 5 3 4 4).dstCap.toNat < (rleCompress (memRead m 0x1000 5)).length ∧
    (rleCompress (memRead m 0x1000 5)).length ≤ (regions 5 4 4 4).dstCap.toNat := by decide +kernel

/-- RleDecompressResult: META_CAP 3 and 4; ORIG_LEN 2 against DST_CAP 1 and 2; V-R13's 41 FF and 41 42. -/
theorem test_meets_RleDecompressResult :
    (busy 0x32#32 (regions 2 2 4 4) (image [0x41#8, 0xFF#8] (u32le 2)) []).latched =
      some ⟨0x32#32, regions 2 2 4 4⟩ ∧
    regionOk [⟨0x1000, 0x5000⟩] (regions 2 2 3 4) = true ∧ regionOk [⟨0x1000, 0x5000⟩] (regions 2 1 4 4) = true ∧
    regionOk [⟨0x1000, 0x5000⟩] (regions 2 2 4 4) = true ∧
    (regions 2 2 3 4).metaCap.toNat < 4 ∧ 4 ≤ (regions 2 2 4 4).metaCap.toNat ∧
    fromU32le (memRead (image [0x41#8, 0xFF#8] (u32le 2)) 0x3000 4) = 2 ∧ (regions 2 1 4 4).dstCap.toNat < 2 ∧
    2 ≤ (regions 2 2 4 4).dstCap.toNat ∧ rleDecompress 2 [0x41#8, 0xFF#8] = none ∧
    rleDecompress 2 [0x41#8, 0x42#8] = some [0x41#8, 0x42#8] := by decide +kernel

/-! ## Hypotheses that can be met: the payload elements -/

/-- HufSymResult: the last symbol ORIG_LEN allows, the one after it, and a code cut short. -/
theorem test_meets_HufSymResult :
    let s := fun out => decoding 0x12#32 (regions 1 2 1032 4) treeAB ⟨.huf [], 2, out⟩ []
    (s [0x41#8]).latched = some ⟨0x12#32, regions 1 2 1032 4⟩ ∧ (s [0x41#8]).expansion = some ⟨.huf [], 2, [0x41#8]⟩ ∧
    codeSym (s [0x41#8]).tables.tree.nodes (s [0x41#8]).tables.tree.start [true] = some 0x42#8 ∧
    [0x41#8].length < 2 ∧ [0x41#8, 0x41#8].length = 2 ∧
    codeSym (s [0x41#8]).tables.tree.nodes (s [0x41#8]).tables.tree.start [] = none := by decide

/-- LzLitResult, LzMatchResult and LzTokenValidity: DIST at the cursor and at the window's edge and one past each, and
the output at ORIG_LEN and one past it. -/
theorem test_meets_lz_elements :
    let s := decoding 0x22#32 (regions 8 9 4 4) treeAB ⟨.lz [], 9, [0x41#8, 0x42#8, 0x43#8, 0x44#8]⟩ []
    s.latched = some ⟨0x22#32, regions 8 9 4 4⟩ ∧ s.expansion = some ⟨.lz [], 9, [0x41#8, 0x42#8, 0x43#8, 0x44#8]⟩ ∧
    4 + 1 ≤ 9 ∧ 8 + 1 ≤ 9 ∧
    (1 ≤ (4#8).toNat ∧ 1 ≤ (4#16).toNat ∧ (4#16).toNat ≤ 4 ∧ (4#16).toNat ≤ (regions 8 9 4 4).window.toNat ∧
      4 + (4#8).toNat + 1 ≤ 9) ∧
    (0 < (1#8).toNat ∧ (0#16).toNat = 0) ∧ 4 < (5#16).toNat ∧ (regions 8 9 4 3).window.toNat < (4#16).toNat ∧
    9 < 4 + (5#8).toNat + 1 := by decide

/-- IllegalElementsCorrupt: a well-formed element of each of the three rows. -/
theorem test_meets_IllegalElementsCorrupt :
    WellFormed (.lzIllegal 1#8 0x41#8) ∧ WellFormed (.lzTruncated [0#8, 0#8, 0#8]) ∧ WellFormed (.rleDangling none) ∧
    (decoding 0x22#32 (regions 3 1 4 4) treeAB ⟨.lz [], 1, []⟩ []).latched = some ⟨0x22#32, regions 3 1 4 4⟩ ∧
    (decoding 0x22#32 (regions 3 1 4 4) treeAB ⟨.lz [], 1, []⟩ []).expansion = some ⟨.lz [], 1, []⟩ := by decide

/-- RleRunResult and RleLitResult: an output that fills ORIG_LEN, and one byte too many. -/
theorem test_meets_rle_elements :
    let s := fun out => decoding 0x32#32 (regions 3 4 4 4) treeAB ⟨.rle [], 4, out⟩ []
    (s [0x42#8]).latched = some ⟨0x32#32, regions 3 4 4 4⟩ ∧ (s [0x42#8]).expansion = some ⟨.rle [], 4, [0x42#8]⟩ ∧
    1 + (3#8).toNat ≤ 4 ∧ 4 < 1 + (4#8).toNat ∧ 3 + 1 ≤ 4 ∧ 4 < 4 + 1 ∧ 0xFE#8 ≠ 0xFF#8 := by decide

/-! ## Hypotheses that can be met: the codecs -/

/-- TreeShape at k = 1, CodesArePrefixFree and CodeTableAgreesWithWalk at k = 2 (V-H5), HufDecompressPaths at k = 0, 1
and 2. -/
theorem test_meets_huffman :
    (freq []).length = 256 ∧ distinct (freq []) = 0 ∧
    (freq [0x41#8]).length = 256 ∧ distinct (freq [0x41#8]) = 1 ∧ 0 < (freq [0x41#8]).getD (0x41#8).toNat 0 ∧
    (freq [0x41#8, 0x42#8]).length = 256 ∧ distinct (freq [0x41#8, 0x42#8]) = 2 ∧
    codeTable (buildTree (freq [0x41#8, 0x42#8])) = [(0x41#8, [false]), (0x42#8, [true])] := by decide +kernel

/-- ExtractionTakesLeast: a pool of two. PackThenUnpack: the last bit and the last pad bit of nine bits. HuffmanRoundTrip:
one byte value and two. RleRoundTrip: a run at the cap, one below it, and counts on both sides of 4. -/
theorem test_meets_codec_facts :
    2 ≤ [0, 1].length ∧ 8 < (List.replicate 9 true).length ∧ (List.replicate 9 true).length ≤ 15 ∧
    15 < 8 * (pack (List.replicate 9 true)).1.length ∧ 8 < 8 * [0#8, 0#8].length - 7 ∧
    distinct (freq [0x41#8]) ≤ 1 ∧ 2 ≤ distinct (freq [0x41#8, 0x42#8]) ∧
    runAt 0x41#8 (List.replicate 300 0x41#8) = 255 ∧ runAt 0x41#8 (List.replicate 253 0x41#8) < 255 ∧
    0 < runAt 0x41#8 [] ∧ (4 ≤ 4 ∧ 255 ≤ 255) ∧ 3 < 4 ∧ 0xFE#8 ≠ 0xFF#8 := by decide +kernel

/-- V-H5 packed by hand: 41 42 with the codes 0 and 1 is 0100 0000, padding 6 (R51, R115). -/
theorem test_pack_msb_first : pack [false, true] = ([0x40#8], 6) ∧
    pack [true, false, false, false, false, false, false, false, true] = ([0x80#8, 0x80#8], 7) := by decide +kernel

/-! ## The internal tables (R39) -/

/-- The encoders' work on the tables, by hand: V-H5's counts, codes and arena; V-R3's last run counter; V-L1's last
search, at the end of the input with the best match of 4 at distance 4. -/
theorem test_tables_R39 :
    (hufMake [0x41#8, 0x42#8] noTables).1.counts = freqAB ∧
    (hufMake [0x41#8, 0x42#8] noTables).1.tree = treeAB ∧
    (hufMake [0x41#8, 0x42#8] noTables).1.codeAt 0x42#8 = [true] ∧
    (rleMake [0x42#8, 0x41#8, 0x41#8, 0x41#8, 0x41#8] noTables).1.run = 4#8 ∧
    (lzMake 4 abcdabcde noTables).1.search = ⟨9#32, 4#16, 4#8, 4#16⟩ ∧
    (after (openLz (busy 0x22#32 (regions 20 9 4 4) (image tokensL1 (u32le 9)) []))).map
      (fun t => t.tables.cursor) = some 0#32 := by decide +kernel

/-- BestMatchIsLongestNearest and LzStepEmitsLitOrMatch: no match, a match of 3 (V-L5), one of 4 (V-L1), and a candidate
beside it. -/
theorem test_meets_lz_compress :
    0 < abcdabcde.length ∧ bestMatch abcdabcde 0 4 = (0, 0) ∧
    3 < [0x41#8, 0x42#8, 0x43#8, 0x41#8, 0x42#8, 0x43#8, 0x58#8].length ∧
    (bestMatch [0x41#8, 0x42#8, 0x43#8, 0x41#8, 0x42#8, 0x43#8, 0x58#8] 3 8).1 = 3 ∧
    bestMatch abcdabcde 4 4 = (4, 4) ∧ 3 < (bestMatch abcdabcde 4 65535).1 ∧ (65535 : Nat) ≤ 65535 ∧
    (1 ≤ 4 ∧ 4 ≤ min 4 4 ∧ 4 ≤ min 255 (abcdabcde.length - 4 - 1) ∧
      ∀ j < 4, abcdabcde[4 - 4 + j]? = abcdabcde[4 + j]?) := by decide +kernel

/-! ## Hypotheses that can be met: encoding -/

/-- DecodeOfEncode: a command word, an element in the middle of a payload, an element at its end, and a code of the tree
of V-H5. -/
theorem test_meets_DecodeOfEncode :
    WellFormed .lzDecompress ∧ WellFormed (.lzMatch 65535#16 255#8 0#8) ∧
    ((∀ b, Instr.lzMatch 65535#16 255#8 0#8 ≠ .lzTruncated b) ∧
      ∀ c, Instr.lzMatch 65535#16 255#8 0#8 ≠ .rleDangling c) ∧
    WellFormed (.rleDangling (some 0#8)) ∧ WellFormed (.hufSym [false]) ∧
    codeSym treeAB.nodes treeAB.start [false] = some 0x41#8 :=
  ⟨rfl, rfl, ⟨fun _ => nofun, fun _ => nofun⟩, rfl, rfl, rfl⟩

/-- ElementsPartitionPayload: each decoder answers an element. -/
theorem test_meets_ElementsPartitionPayload :
    decodeLz [0#8, 0#8, 0#8, 0x41#8, 0#8] = .ok (.lzLit 0x41#8, [0#8]) ∧
    decodeRle [0xFF#8, 0#8] = .ok (.rleDangling (some 0#8), []) ∧
    decodeHuf treeAB [false, true] = .ok (.hufSym [false], [true]) := ⟨rfl, rfl, rfl⟩

/-! ## Hypotheses that can be met: the whole machine -/

/-- PseudoOperationsExpand: an idle core with each script pending. -/
theorem test_meets_PseudoOperationsExpand :
    (idle (regions 0 0 0 4) [] (scriptRun 0x31#32 (regions 5 8 4 4) ++ [.engine])).phase = .idle ∧
    (idle (regions 0 0 0 4) [] (scriptRun 0x31#32 (regions 5 8 4 4) ++ [.engine])).pending =
      scriptRun 0x31#32 (regions 5 8 4 4) ++ [.engine] ∧
    (idle (regions 0 0 0 4) [] (scriptAck ++ [])).pending = scriptAck ++ [] ∧
    (idle (regions 0 0 0 4) [] (scriptSetwin 0x12340010#32 ++ [])).pending = scriptSetwin 0x12340010#32 ++ [] := by
  decide

theorem noTables_sized : noTables.Sized := ⟨Nat.zero_le _, by decide +kernel⟩

/-- A busy core is coherent, whatever canonical memory it has. -/
theorem busy_coherent (w : Word) (p : Params) (m : Memory) (events : List Event) (h : Memory.wf m) :
    (busy w p m events).Coherent where
  memCanonical := h
  phaseIsBusy := by simp [busy, idle, State.accept, Status.accepted]
  latchedIsBusy := by simp [busy, idle, State.accept]
  busyIsClear := fun _ => ⟨rfl, rfl, rfl, rfl, rfl⟩
  codeLegal := Nat.zero_le _
  errHasCode := nofun
  errHasNoLength := fun _ => ⟨rfl, rfl⟩
  metaLenLegal := .inl rfl
  expansionOk := nofun
  latchedUnobserved := by rintro l ⟨⟩; exact List.mem_singleton.mpr rfl
  tablesSized := noTables_sized
  cursorIsLength := nofun

/-- A decompress between two of its elements is coherent: V-H5 after its first symbol. -/
theorem test_decoding_coherent :
    (decoding 0x12#32 (regions 1 2 1032 4) treeAB ⟨.huf [true], 2, [0x41#8]⟩ []).Coherent where
  memCanonical := ⟨List.Pairwise.nil, nofun⟩
  phaseIsBusy := by simp [decoding, busy, idle, State.accept, Status.accepted]
  latchedIsBusy := by simp [decoding, busy, idle, State.accept]
  busyIsClear := fun _ => ⟨rfl, rfl, rfl, rfl, rfl⟩
  codeLegal := Nat.zero_le _
  errHasCode := nofun
  errHasNoLength := fun _ => ⟨rfl, rfl⟩
  metaLenLegal := .inl rfl
  expansionOk := by
    rintro x ⟨⟩
    exact ⟨⟨0x12#32, regions 1 2 1032 4⟩, rfl, by decide, by decide, by decide +kernel⟩
  latchedUnobserved := by rintro l ⟨⟩; exact List.mem_singleton.mpr rfl
  tablesSized := ⟨show 3 ≤ 511 by decide, noTables_sized.2⟩
  cursorIsLength := by rintro x ⟨⟩; rfl

/-- WaitIdleEnds, StepKeepsCoherence, EngineWritesOnlyItsRegions, PlatformIsConstant: a coherent core with a command
running; a byte outside DST and META, and one of SRC. -/
theorem test_meets_WaitIdleEnds :
    (busy 0x13#32 (regions 5 8 4 4) [] [.waitIdle]).Coherent ∧
    (busy 0x13#32 (regions 5 8 4 4) [] [.waitIdle]).phase = .busy ∧
    (busy 0x13#32 (regions 5 8 4 4) [] [.waitIdle]).expansion = none ∧
    (busy 0x13#32 (regions 5 8 4 4) [] [.waitIdle]).latched = some ⟨0x13#32, regions 5 8 4 4⟩ ∧
    (busy 0x13#32 (regions 5 8 4 4) [] [.waitIdle]).pending = .waitIdle :: [] ∧
    (∃ t, step (busy 0x13#32 (regions 5 8 4 4) [] [.waitIdle]) = .next t) ∧
    (∃ t, engineTurn (busy 0x13#32 (regions 5 8 4 4) [] []) = .next t) ∧
    (regions 5 8 4 4).dstRegion.has 0x2008 = false ∧ (regions 5 8 4 4).metaRegion.has 0x2008 = false ∧
    (regions 5 8 4 4).srcRegion.has 0x1004 = true :=
  ⟨busy_coherent _ _ _ _ ⟨List.Pairwise.nil, nofun⟩, rfl, rfl, rfl, rfl, ⟨_, rfl⟩, ⟨_, rfl⟩, rfl, rfl, rfl⟩

/-- OnlyOutsideAccessFaults: a write of two bytes at the last byte of memory. -/
theorem test_meets_OnlyOutsideAccessFaults :
    (busy 0x13#32 (regions 5 8 4 4) [] [.memWrite 0xFFFFFFFF#32 [0x41#8, 0x42#8]]).Coherent ∧
    step (busy 0x13#32 (regions 5 8 4 4) [] [.memWrite 0xFFFFFFFF#32 [0x41#8, 0x42#8]]) = .fault .outsideMemory :=
  ⟨busy_coherent _ _ _ _ ⟨List.Pairwise.nil, nofun⟩, rfl⟩

/-- ResultDependsOnCommandAlone: memories that differ outside the regions. -/
theorem test_meets_ResultDependsOnCommandAlone :
    let s := busy 0x13#32 (regions 5 8 4 4) [] []
    let s' := { busy 0x13#32 (regions 5 8 4 4) [(0x5000, 0x41#8)] [] with draws := [0x42#8] }
    s.phase = .busy ∧ s'.phase = .busy ∧ s.expansion = none ∧ s'.expansion = none ∧
    s.latched = some ⟨0x13#32, regions 5 8 4 4⟩ ∧ s'.latched = some ⟨0x13#32, regions 5 8 4 4⟩ ∧
    s.memOk = s'.memOk ∧ SameBytes (regions 5 8 4 4).srcRegion s.mem s'.mem ∧
    SameBytes (regions 5 8 4 4).metaRegion s.mem s'.mem ∧ (∃ t, engineTurn s = .next t) ∧
    (∃ t, engineTurn s' = .next t) := by
  refine ⟨rfl, rfl, rfl, rfl, rfl, rfl, rfl, ?_, ?_, ⟨_, rfl⟩, ⟨_, rfl⟩⟩ <;> intro a ha <;>
    simp [Span.has, Params.srcRegion, Params.metaRegion, regions] at ha <;>
    simp [busy, idle, State.accept, Memory.read, Memory.blank, show ¬ 0x5000 = a by omega]

end Sys2Proof.Tests
end

/-!
PROOF. Coherence (10_state.md R37, R39, R40; 60_exceptions.md R200): the reset state has it, and every step keeps it. An
IDLE state is coherent for few reasons, said once, which cover reset and both completions; the engine's turn and the
host's events are then read off the lemmas that say what each can do.
-/

namespace Sys2Proof.Machine

/-! ## IDLE states -/

/-- With nothing latched or in progress, coherence asks only for canonical memory, sized tables and legal results. -/
theorem EngineIdle.coherent {t : State} (hi : EngineIdle t) (hmem : Memory.wf t.mem) (hbusy : t.status.busy = false)
    (hcode : t.status.errCode.toNat ≤ 5) (herr : t.status.err = true → t.status.errCode ≠ 0#4)
    (hlen : t.status.errCode ≠ 0#4 → t.outLen = 0#32 ∧ t.metaLen = 0#32)
    (hmeta : t.metaLen = 0#32 ∨ t.metaLen = 4#32 ∨ t.metaLen = 1032#32) (hsized : t.tables.Sized) : t.Coherent := by
  obtain ⟨hphase, hlatched, hexp⟩ := hi
  exact {
    memCanonical := hmem
    phaseIsBusy := by simp [hbusy, hphase]
    latchedIsBusy := by simp [hlatched, hphase]
    busyIsClear := by simp [hphase]
    codeLegal := hcode
    errHasCode := herr
    errHasNoLength := hlen
    metaLenLegal := hmeta
    expansionOk := by simp [hexp]
    latchedUnobserved := by simp [hlatched]
    tablesSized := hsized
    cursorIsLength := by simp [hexp] }

/-- At the reset values, canonical memory and sized tables are all coherence asks for. -/
theorem coherent_of_resetValues {t : State} (hi : EngineIdle t) (hst : t.status = State.reset.status)
    (hout : t.outLen = 0#32) (hml : t.metaLen = 0#32) (hmem : Memory.wf t.mem) (hsized : t.tables.Sized) :
    t.Coherent := by
  apply hi.coherent hmem <;> simp [hst, hout, hml, State.reset, hsized]

/-- Settles O55: the reset state is IDLE with empty memory and tables cut to their sizes. -/
theorem resetIsCoherent : Obligations.ResetIsCoherent :=
  coherent_of_resetValues ⟨rfl, rfl, rfl⟩ rfl rfl rfl ⟨List.Pairwise.nil, nofun⟩ (Tables.fit_sized _)

/-! ## Completions -/

/-- The error kinds have the codes 1 to 5 (60_exceptions.md R200). -/
theorem CodecError.code_bounds (e : CodecError) : e.code ≠ 0#4 ∧ e.code.toNat ≤ 5 := by
  cases e <;> decide

theorem raise_coherent {s : State} (hmem : Memory.wf s.mem) (e : CodecError) (zs : List Span) :
    (s.raise e zs).Coherent := by
  obtain ⟨hne, hle⟩ := e.code_bounds
  exact EngineIdle.coherent ⟨rfl, rfl, rfl⟩ (damage_wf s zs hmem) rfl hle (fun _ => hne) (fun _ => ⟨rfl, rfl⟩) (.inl rfl)
    (Tables.fit_sized _)

theorem completeOk_coherent {s : State} (hmem : Memory.wf s.mem) (ws : List (Nat × List Byte)) (n : Nat) {q : Nat}
    (hq : q = 0 ∨ q = 4 ∨ q = 1032) : (s.completeOk ws n q).Coherent := by
  refine EngineIdle.coherent ⟨rfl, rfl, rfl⟩ (memWrites_wf ws s.mem hmem) rfl (Nat.zero_le 5) nofun
    (fun h => absurd rfl h) ?_ (Tables.fit_sized _)
  rcases hq with rfl | rfl | rfl <;> simp

theorem deliver_coherent {s : State} (hmem : Memory.wf s.mem) (n : Nat) (out : Option (List Byte)) (p : Params) :
    (deliver n out s p).Coherent := by
  rw [deliver_eq]
  cases out with
  | none => exact raise_coherent hmem ..
  | some bytes => exact completeOk_coherent hmem _ _ (.inl rfl)

theorem CommandEnd.coherent {s t : State} {p : Params} (h : CommandEnd s p t) (hmem : Memory.wf s.mem) :
    t.Coherent := by
  rcases h with ⟨e, zs, rfl, -, -⟩ | ⟨ws, n, q, rfl, -, -, hq, -⟩
  · exact raise_coherent hmem e zs
  · exact completeOk_coherent hmem ws n hq

/-! ## The engine's turn -/

/-- An element that completes moves the output and its cursor together, within ORIG_LEN. -/
theorem advance_coherent {s : State} {x : Expansion} (h : s.Coherent) (hx : s.expansion = some x) (rest : Feed)
    {out : List Byte} (hout : out.length ≤ x.origLen) :
    ((s.consume x rest).advance { x with feed := rest } out).Coherent := by
  refine { h with expansionOk := ?_, cursorIsLength := ?_ }
  · rintro _ ⟨⟩
    obtain ⟨l', hl', -, hcap, hreg⟩ := h.expansionOk x hx
    exact ⟨l', hl', hout, hcap, hreg⟩
  · rintro _ ⟨⟩
    rfl

theorem ElementEnd.coherent {s t : State} {l : Latched} {x : Expansion} {rest : Feed} (h : s.Coherent)
    (hx : s.expansion = some x)
    (hend : ElementEnd (s.consume x rest) l { x with feed := rest } t) : t.Coherent := by
  rcases hend with rfl | ⟨out, rfl, hout⟩
  · exact raise_coherent (s := s.consume x rest) h.memCanonical ..
  · obtain ⟨-, -, hle, -, -⟩ := h.expansionOk x hx
    exact advance_coherent h hx rest (hout hle)

theorem engineTurn_coherent {s t : State} (h : s.Coherent) (ht : engineTurn s = .next t) : t.Coherent := by
  rcases engineTurn_cases ht with ⟨-, rfl⟩ | ⟨-, -, l, -, hend⟩ | ⟨-, x, l, hx, -, ⟨rest, hend⟩ | hend⟩
  · exact h
  · exact hend.coherent h.memCanonical
  · exact ElementEnd.coherent h hx hend
  · exact hend ▸ deliver_coherent h.memCanonical ..

/-! ## Register accesses -/

/-- Accept clears what coherence wants clear while BUSY, and puts the snapshot among the unobserved. -/
theorem accept_coherent {s : State} (h : s.Coherent) (w : Word) : (s.accept w).Coherent where
  memCanonical := h.memCanonical
  phaseIsBusy := ⟨fun _ => rfl, fun _ => rfl⟩
  latchedIsBusy := ⟨fun _ => rfl, fun _ => rfl⟩
  busyIsClear _ := ⟨rfl, rfl, rfl, rfl, rfl⟩
  codeLegal := Nat.zero_le 5
  errHasCode := nofun
  errHasNoLength _ := ⟨rfl, rfl⟩
  metaLenLegal := .inl rfl
  expansionOk := nofun
  latchedUnobserved := by
    rintro _ ⟨⟩
    exact List.mem_append_right _ (List.mem_singleton.mpr rfl)
  tablesSized := h.tablesSized
  cursorIsLength := nofun

theorem writeCmd_coherent {s : State} (h : s.Coherent) (w : Word) : (writeCmd w s).Coherent := by
  unfold writeCmd
  split
  · exact accept_coherent h w
  · exact { h with }

/-- A write of STATUS clears bits that coherence never asks to be set. -/
theorem clearStatus_coherent {s : State} (h : s.Coherent) (v : Word) :
    ({ s with status := s.status.clear v } : State).Coherent := by
  refine { h with busyIsClear := fun hb => ?_, errHasCode := fun he => h.errHasCode ?_ }
  · obtain ⟨hdone, herr, hrest⟩ := h.busyIsClear hb
    exact ⟨by simp [Status.clear, hdone], by simp [Status.clear, herr], hrest⟩
  · simp only [Status.clear, Bool.and_eq_true] at he
    exact he.1

theorem writeReg_coherent {s : State} (h : s.Coherent) (r : Reg) (v : Word) : (writeReg r v s).Coherent := by
  cases r with
  | cmd => exact writeCmd_coherent h v
  | status => exact clearStatus_coherent h v
  | caps | outLen | metaLen => exact h
  | ctrl | srcAddr | srcLen | dstAddr | dstCap | metaAddr | metaCap | lzWindow => exact { h with }

theorem mmioWrite_coherent {s : State} (h : s.Coherent) (offset : Nat) (v : Word) :
    (mmioWrite offset v s).Coherent := by
  unfold mmioWrite
  split
  · exact h
  · exact writeReg_coherent h _ v

/-- A read empties the list of unobserved commands only where BUSY is 0, so nothing is latched. -/
theorem answerMmio_coherent {s : State} (h : s.Coherent) (offset : Nat) : (s.answerMmio offset).Coherent := by
  refine { h with latchedUnobserved := fun l hl => ?_ }
  have hbusy : s.status.busy = true := h.phaseIsBusy.mpr (h.latchedIsBusy.mp (by simp [show s.latched = some l from hl]))
  simpa [hbusy] using h.latchedUnobserved l hl

/-! ## Events -/

theorem hostMmioWrite_coherent {s t : State} (h : s.Coherent) {width : AccessWidth} {offset : Nat} {v : Word}
    (ht : hostMmioWrite width offset v s = .next t) : t.Coherent := by
  unfold hostMmioWrite at ht
  split_ifs at ht <;> cases ht
  · exact mmioWrite_coherent h offset v
  · exact h

theorem hostMmioRead_coherent {s t : State} (h : s.Coherent) {width : AccessWidth} {offset : Nat}
    (ht : hostMmioRead width offset s = .next t) : t.Coherent := by
  unfold hostMmioRead at ht
  split_ifs at ht <;> cases ht
  · exact answerMmio_coherent h offset
  · exact h

theorem hostMemWrite_coherent {s t : State} (h : s.Coherent) {addr : Word} {bytes : List Byte}
    (ht : hostMemWrite addr bytes s = .next t) : t.Coherent := by
  unfold hostMemWrite at ht
  split_ifs at ht
  cases ht
  exact { h with memCanonical := memWrite_wf bytes s.mem addr.toNat h.memCanonical }

theorem hostMemRead_coherent {s t : State} (h : s.Coherent) {addr : Word} {count : Nat}
    (ht : hostMemRead addr count s = .next t) : t.Coherent := by
  unfold hostMemRead at ht
  split_ifs at ht
  cases ht
  exact { h with }

theorem hostWaitIdle_coherent {s t : State} (h : s.Coherent) (ht : hostWaitIdle s = .next t) : t.Coherent := by
  unfold hostWaitIdle at ht
  split at ht
  · cases ht
    exact answerMmio_coherent h _
  · exact engineTurn_coherent (s := { s with pending := .waitIdle :: s.pending }) { h with } ht

theorem abort_wf {s : State} (hmem : Memory.wf s.mem) : Memory.wf s.abort.mem := by
  unfold State.abort
  split
  · exact hmem
  · exact damage_wf s _ hmem

theorem hostReset_coherent {s : State} (h : s.Coherent) : (hostReset s).Coherent :=
  coherent_of_resetValues ⟨rfl, rfl, rfl⟩ rfl rfl rfl (abort_wf h.memCanonical) (Tables.fit_sized _)

theorem hostEvent_coherent {s t : State} (h : s.Coherent) {e : Event} (ht : hostEvent e s = .next t) :
    t.Coherent := by
  cases e with
  | engine => exact engineTurn_coherent h ht
  | mmioWrite width offset value => exact hostMmioWrite_coherent h ht
  | mmioRead width offset => exact hostMmioRead_coherent h ht
  | memWrite addr bytes => exact hostMemWrite_coherent h ht
  | memRead addr count => exact hostMemRead_coherent h ht
  | waitIdle => exact hostWaitIdle_coherent h ht
  | reset =>
    cases ht
    exact hostReset_coherent h

/-- Settles O56: a step is the engine's turn or an event, and each keeps coherence. -/
theorem stepKeepsCoherence : Obligations.StepKeepsCoherence := by
  intro s t h ht
  unfold step at ht
  split at ht
  · exact engineTurn_coherent h ht
  · next e rest _ => exact hostEvent_coherent (s := { s with pending := rest }) { h with } ht

end Sys2Proof.Machine

/-!
PROOF. A command's result is a function of its word, its snapshot and the bytes of its SRC and META regions
(10_state.md R40): each body ends, from two states that agree there, in the same error or the same writes.
-/

namespace Sys2Proof.Machine

/-! ## Memories that agree -/

/-- A read of bytes within a region where two memories agree. -/
theorem SameBytes.memRead_eq {r : Span} {m m' : Memory} (h : SameBytes r m m') {a n : Nat} (hlo : r.base ≤ a)
    (hhi : a + n ≤ r.base + r.len) : memRead m a n = memRead m' a n := by
  refine List.map_congr_left fun b hb => h b ?_
  rw [List.mem_range'_1] at hb
  rw [Span.has_iff]
  omega

theorem SameBytes.srcData_eq {p : Params} {m m' : Memory} (h : SameBytes p.srcRegion m m') :
    srcData p m = srcData p m' :=
  h.memRead_eq (Nat.le_refl _) (Nat.le_refl _)

/-- A field of the record that META_CAP reaches. -/
theorem SameBytes.metaField_eq {p : Params} {m m' : Memory} (h : SameBytes p.metaRegion m m') {offset : Nat}
    (ho : offset + 4 ≤ p.metaCap.toNat) : metaField p m offset = metaField p m' offset := by
  refine congrArg fromU32le (h.memRead_eq ?_ ?_) <;> simp only [Params.metaRegion] <;> omega

theorem SameBytes.metaOrigLen_eq {p : Params} {m m' : Memory} (h : SameBytes p.metaRegion m m')
    (hc : 4 ≤ p.metaCap.toNat) : metaOrigLen p m = metaOrigLen p m' :=
  h.metaField_eq hc

theorem SameBytes.metaPadding_eq {p : Params} {m m' : Memory} (h : SameBytes p.metaRegion m m')
    (hc : 8 ≤ p.metaCap.toNat) : metaPadding p m = metaPadding p m' :=
  h.metaField_eq hc

theorem SameBytes.metaFreq_eq {p : Params} {m m' : Memory} (h : SameBytes p.metaRegion m m')
    (hc : 1032 ≤ p.metaCap.toNat) : metaFreq p m = metaFreq p m' := by
  refine List.map_congr_left fun b hb => h.metaField_eq ?_
  rw [List.mem_range] at hb
  omega

/-- The checks of a Huffman record read it only where META_CAP reaches its end. -/
theorem SameBytes.hufMetaOk_eq {p : Params} {m m' : Memory} (h : SameBytes p.metaRegion m m') :
    hufMetaOk p m = hufMetaOk p m' := by
  by_cases hc : 1032 ≤ p.metaCap.toNat
  · rw [hufMetaOk, hufMetaOk, h.metaOrigLen_eq (by omega), h.metaPadding_eq (by omega), h.metaFreq_eq hc]
  · simp [hufMetaOk, Config.hufMetaSize, hc]

/-- A record that passes its checks has 1032 bytes of META (40_huffman.md R118). -/
theorem hufMetaOk_metaCap {p : Params} {m : Memory} (h : hufMetaOk p m = true) : 1032 ≤ p.metaCap.toNat := by
  simp only [hufMetaOk, Bool.and_eq_true, decide_eq_true_eq] at h
  exact h.1.1.1

/-- Address `a` lies in the bytes a write stores, all of which exist. -/
def Covers (w : Nat × List Byte) (a : Nat) : Prop :=
  w.1 ≤ a ∧ a < w.1 + w.2.length ∧ w.1 + w.2.length ≤ Config.memorySize

theorem read_memWrite_covered {w : Nat × List Byte} {a : Nat} (h : Covers w a) (m m' : Memory) :
    Memory.read (memWrite m w.1 w.2) a = Memory.read (memWrite m' w.1 w.2) a := by
  obtain ⟨hlo, hhi, hmem⟩ := h
  obtain ⟨i, rfl⟩ := Nat.exists_eq_add_of_le hlo
  rw [read_memWrite_inside _ _ _ _ (by omega) hmem, read_memWrite_inside _ _ _ _ (by omega) hmem]

/-- Where two memories agree, they agree after the same bytes have been stored. -/
theorem read_memWrite_agree {a : Nat} : ∀ (bs : List Byte) (m m' : Memory) (base : Nat),
    Memory.read m a = Memory.read m' a → Memory.read (memWrite m base bs) a = Memory.read (memWrite m' base bs) a
  | [], _, _, _, h => h
  | b :: bs, m, m', base, h =>
    read_memWrite_agree bs _ _ _ (by rw [Memory.read_write, Memory.read_write, h])

/-- After the same writes two memories agree wherever they did before and wherever a write reached. -/
theorem read_memWrites_agree {a : Nat} (ws : List (Nat × List Byte)) : ∀ (m m' : Memory),
    (Memory.read m a = Memory.read m' a ∨ ∃ w ∈ ws, Covers w a) →
    Memory.read (ws.foldl (fun m w => memWrite m w.1 w.2) m) a =
      Memory.read (ws.foldl (fun m w => memWrite m w.1 w.2) m') a := by
  induction ws with
  | nil => simp
  | cons w ws ih =>
    rintro m m' (h | ⟨w', hw', hc⟩)
    · exact ih _ _ (.inl (read_memWrite_agree _ _ _ _ h))
    · rcases List.mem_cons.mp hw' with rfl | hw'
      · exact ih _ _ (.inl (read_memWrite_covered hc m m'))
      · exact ih _ _ (.inr ⟨w', hw', hc⟩)

/-! ## Completions -/

/-- Two states show the host the same result of a command with snapshot `p`: the error, the lengths and, on success, the
bytes of the output and the record. -/
def SameResult (p : Params) (t t' : State) : Prop :=
  t.status.errCode = t'.status.errCode ∧ t.status.err = t'.status.err ∧ t.outLen = t'.outLen ∧
    t.metaLen = t'.metaLen ∧
    (t.status.err = false →
      (∀ a, p.dstAddr.toNat ≤ a → a < p.dstAddr.toNat + t.outLen.toNat → Memory.read t.mem a = Memory.read t'.mem a) ∧
      (∀ a, p.metaAddr.toNat ≤ a → a < p.metaAddr.toNat + t.metaLen.toNat →
        Memory.read t.mem a = Memory.read t'.mem a))

/-- An error completion shows its code and nothing else. -/
theorem raise_sameResult (p : Params) (s s' : State) (e : CodecError) (zs zs' : List Span) :
    SameResult p (s.raise e zs) (s'.raise e zs') :=
  ⟨rfl, rfl, rfl, rfl, nofun⟩

/-- The same writes show the same result where they reach every byte of the output and the record. -/
theorem completeOk_sameResult {p : Params} (s s' : State) {ws : List (Nat × List Byte)} {n q : Nat}
    (hdst : ∀ a, p.dstAddr.toNat ≤ a → a < p.dstAddr.toNat + n → ∃ w ∈ ws, Covers w a)
    (hmeta : ∀ a, p.metaAddr.toNat ≤ a → a < p.metaAddr.toNat + q → ∃ w ∈ ws, Covers w a) :
    SameResult p (s.completeOk ws n q) (s'.completeOk ws n q) := by
  refine ⟨rfl, rfl, rfl, rfl, fun _ => ⟨fun a hlo hhi => ?_, fun a hlo hhi => ?_⟩⟩
  · have := Nat.mod_le n (2 ^ 32)
    rw [State.completeOk_outLen, BitVec.toNat_ofNat] at hhi
    exact read_memWrites_agree ws _ _ (.inr (hdst a hlo (by omega)))
  · have := Nat.mod_le q (2 ^ 32)
    rw [State.completeOk_metaLen, BitVec.toNat_ofNat] at hhi
    exact read_memWrites_agree ws _ _ (.inr (hmeta a hlo (by omega)))

/-! ## The bodies of commands -/

/-- Two compresses that make the same payload and record show the same result. -/
theorem compressEnd_sameResult {s s' : State} {p : Params} {ranges : List Span} (hr : regionOk ranges p = true)
    {size : Nat} (payload : List Byte) {rec : List Byte} (hrec : rec.length = size) :
    SameResult p (compressEnd size payload rec s p) (compressEnd size payload rec s' p) := by
  obtain ⟨-, hd, hm, -, -, -⟩ := regionOk_places hr
  simp only [Params.dstRegion, Params.metaRegion] at hd hm
  unfold compressEnd
  split_ifs with hmeta hdst
  · exact raise_sameResult ..
  · exact raise_sameResult ..
  · apply completeOk_sameResult
    · intro a hlo hhi
      exact ⟨(p.dstAddr.toNat, payload), by simp, hlo, hhi, by simp only; omega⟩
    · intro a hlo hhi
      exact ⟨(p.metaAddr.toNat, rec), by simp, hlo, by simp only; omega, by simp only; omega⟩

/-- Two decompresses that decode to the same output show the same result. -/
theorem decompressBody_sameResult {s s' : State} {p : Params} {ranges : List Span} (hr : regionOk ranges p = true)
    {n : Nat} {build : Tables → Tables} {decode : Tables → List Byte → Option (List Byte)} {out : Option (List Byte)}
    (h : decode (build s.tables) (srcData p s.mem) = out) (h' : decode (build s'.tables) (srcData p s'.mem) = out)
    (hlen : ∀ bytes, out = some bytes → bytes.length = n) :
    SameResult p (decompressBody n build decode s p) (decompressBody n build decode s' p) := by
  obtain ⟨-, hd, -, -, -, -⟩ := regionOk_places hr
  simp only [Params.dstRegion] at hd
  rw [decompressBody_eq, decompressBody_eq, h, h']
  split_ifs with hcap
  · exact raise_sameResult ..
  · cases out with
    | none => exact raise_sameResult ..
    | some bytes =>
      have hn := hlen bytes rfl
      apply completeOk_sameResult
      · intro a hlo hhi
        exact ⟨(p.dstAddr.toNat, bytes), by simp, hlo, by simp only; omega, by simp only; omega⟩
      · intro a hlo hhi
        omega

/-- Two valid commands show the same result if their bodies do past the region check. -/
theorem runCommand_sameResult {s s' t t' : State} {l : Latched} (hl : s.latched = some l) (hl' : s'.latched = some l)
    (hok : s.memOk = s'.memOk) {body body' : Params → State}
    (hb : regionOk s.memOk l.snap = true → SameResult l.snap (body l.snap) (body' l.snap))
    (ht : runCommand s body = .next t) (ht' : runCommand s' body' = .next t') : SameResult l.snap t t' := by
  rw [runCommand_latched hl] at ht
  rw [runCommand_latched hl', ← hok] at ht'
  cases ht
  cases ht'
  split_ifs with hr
  · exact hb hr
  · exact raise_sameResult ..

/-! ## Commands -/

/-- What a command word decodes to: one of the six commands or itself as an illegal one (30_encoding.md R82, R83). -/
theorem decodeCommand_cases (w : Word) :
    decodeCommand w = .hufCompress ∨ decodeCommand w = .hufDecompress ∨ decodeCommand w = .lzCompress ∨
      decodeCommand w = .lzDecompress ∨ decodeCommand w = .rleCompress ∨ decodeCommand w = .rleDecompress ∨
      decodeCommand w = .illegalCmd w := by
  unfold decodeCommand
  split_ifs <;> simp

section Commands

variable {s s' t t' : State} {l : Latched} (hl : s.latched = some l) (hl' : s'.latched = some l)
  (hok : s.memOk = s'.memOk) (hsrc : SameBytes l.snap.srcRegion s.mem s'.mem)
  (hmeta : SameBytes l.snap.metaRegion s.mem s'.mem)

include hl hl'

theorem illegalCmd_sameResult (ht : execIllegalCmd l.word s = .next t)
    (ht' : execIllegalCmd l.word s' = .next t') : SameResult l.snap t t' := by
  rw [execIllegalCmd, withSnapshot_latched hl] at ht
  rw [execIllegalCmd, withSnapshot_latched hl'] at ht'
  cases ht
  cases ht'
  exact raise_sameResult ..

include hok hsrc

theorem hufCompress_sameResult (ht : execHufCompress s = .next t) (ht' : execHufCompress s' = .next t') :
    SameResult l.snap t t' := by
  refine runCommand_sameResult hl hl' hok (fun hr => ?_) ht ht'
  rw [hufCompress_body, hufCompress_body, hsrc.srcData_eq]
  exact compressEnd_sameResult hr _ (hufRecord_length _ (by simp))

theorem lzCompress_sameResult (ht : execLzCompress s = .next t) (ht' : execLzCompress s' = .next t') :
    SameResult l.snap t t' := by
  refine runCommand_sameResult hl hl' hok (fun hr => ?_) ht ht'
  rw [lzCompress_body, lzCompress_body, hsrc.srcData_eq]
  exact compressEnd_sameResult hr _ rfl

theorem rleCompress_sameResult (ht : execRleCompress s = .next t) (ht' : execRleCompress s' = .next t') :
    SameResult l.snap t t' := by
  refine runCommand_sameResult hl hl' hok (fun hr => ?_) ht ht'
  rw [rleCompress_body, rleCompress_body, hsrc.srcData_eq]
  exact compressEnd_sameResult hr _ rfl

include hmeta

theorem hufDecompress_sameResult (ht : execHufDecompress s = .next t) (ht' : execHufDecompress s' = .next t') :
    SameResult l.snap t t' := by
  refine runCommand_sameResult hl hl' hok (fun hr => ?_) ht ht'
  rw [← hmeta.hufMetaOk_eq]
  split_ifs with hm
  · have hcap := hufMetaOk_metaCap hm
    rw [← hmeta.metaOrigLen_eq (by omega), ← hmeta.metaPadding_eq (by omega), ← hmeta.metaFreq_eq hcap]
    exact decompressBody_sameResult hr rfl (by rw [hsrc.srcData_eq]; rfl) fun _ h =>
      hufDecompress_length (hufMetaOk_sum hm) h
  · exact raise_sameResult ..

theorem lzDecompress_sameResult (ht : execLzDecompress s = .next t) (ht' : execLzDecompress s' = .next t') :
    SameResult l.snap t t' := by
  refine runCommand_sameResult hl hl' hok (fun hr => ?_) ht ht'
  split_ifs with hcap
  · exact raise_sameResult ..
  · rw [← hmeta.metaOrigLen_eq (Nat.le_of_not_lt hcap)]
    exact decompressBody_sameResult hr rfl (by rw [hsrc.srcData_eq]) fun _ h => lzDecompress_length h

theorem rleDecompress_sameResult (ht : execRleDecompress s = .next t) (ht' : execRleDecompress s' = .next t') :
    SameResult l.snap t t' := by
  refine runCommand_sameResult hl hl' hok (fun hr => ?_) ht ht'
  split_ifs with hcap
  · exact raise_sameResult ..
  · rw [← hmeta.metaOrigLen_eq (Nat.le_of_not_lt hcap)]
    exact decompressBody_sameResult hr rfl (by rw [hsrc.srcData_eq]) fun _ h => rleDecompress_length h

theorem exec_command_sameResult (ht : exec (decodeCommand l.word) s = .next t)
    (ht' : exec (decodeCommand l.word) s' = .next t') : SameResult l.snap t t' := by
  rcases decodeCommand_cases l.word with h | h | h | h | h | h | h <;> rw [h] at ht ht'
  · exact hufCompress_sameResult hl hl' hok hsrc ht ht'
  · exact hufDecompress_sameResult hl hl' hok hsrc hmeta ht ht'
  · exact lzCompress_sameResult hl hl' hok hsrc ht ht'
  · exact lzDecompress_sameResult hl hl' hok hsrc hmeta ht ht'
  · exact rleCompress_sameResult hl hl' hok hsrc ht ht'
  · exact rleDecompress_sameResult hl hl' hok hsrc hmeta ht ht'
  · exact illegalCmd_sameResult hl hl' ht ht'

end Commands

/-- The engine's turn on a command that is run whole is the execution of its word (43_dispatch.md R185). -/
theorem engineTurn_command {s : State} {l : Latched} (hp : s.phase = .busy) (hx : s.expansion = none)
    (hl : s.latched = some l) : engineTurn s = exec (decodeCommand l.word) s := by
  simp only [engineTurn, hp, hx, hl]

/-- Settles O59: the two turns execute the same word, whose result is the same. -/
theorem resultDependsOnCommandAlone : Obligations.ResultDependsOnCommandAlone := by
  intro s s' t t' l hp hp' hx hx' hl hl' hok hsrc hmeta ht ht'
  rw [engineTurn_command hp hx hl] at ht
  rw [engineTurn_command hp' hx' hl'] at ht'
  exact exec_command_sameResult hl hl' hok hsrc hmeta ht ht'

end Sys2Proof.Machine

/-!
PROOF. The regions of a command (20_memory.md): the region check in terms of addresses (R54), what fails it
(43_dispatch.md R186), and the engine's writes, which stay within DST and META (R56). What ends an element or a used-up
payload with a write is a `CommandEnd` too, so what the engine spares is said of `CommandEnd` alone.
-/

namespace Sys2Proof.Machine

/-! ## The region check (R54) -/

/-- Tests 1 and 2 in terms of addresses; an empty region passes both. -/
theorem Span.admitted_iff {ranges : List Span} {r : Span} :
    r.admitted ranges = true ↔ (0 < r.len → r.base + r.len ≤ 4294967296) ∧
      ∀ a, r.base ≤ a → a < r.base + r.len → ∃ z ∈ ranges, z.base ≤ a ∧ a < z.base + z.len := by
  simp only [Span.admitted, memOkAt, Bool.or_eq_true, Bool.and_eq_true, decide_eq_true_eq,
    List.all_eq_true, List.any_eq_true, Span.mem_addrs, Span.has_iff, and_imp]
  constructor
  · rintro (hempty | ⟨hfits, hok⟩)
    · exact ⟨by omega, fun a hlo hhi => by omega⟩
    · exact ⟨fun _ => hfits, hok⟩
  · rintro ⟨hfits, hok⟩
    rcases Nat.eq_zero_or_pos r.len with hempty | hpos
    · exact .inl hempty
    · exact .inr ⟨hfits hpos, hok⟩

/-- Test 3 in terms of addresses: two regions that share a byte share the larger of their bases. -/
theorem Span.touches_eq_false_iff {r q : Span} :
    r.touches q = false ↔ ∀ a, ¬ (r.has a = true ∧ q.has a = true) := by
  simp only [Span.has_iff]
  constructor
  · intro h a ⟨hr, hq⟩
    have := Span.apart h
    omega
  · intro h
    have hbase := h (max r.base q.base)
    simp only [Span.touches, Bool.and_eq_false_iff, decide_eq_false_iff_not]
    omega

/-- Settles O16: the check is the conjunction of the three tests, region by region. -/
theorem regionCheckMeaning : Obligations.RegionCheckMeaning := by
  intro ranges p
  simp only [regionOk, Bool.and_eq_true, Bool.not_eq_true', Span.admitted_iff, Span.touches_eq_false_iff,
    List.forall_mem_cons, List.not_mem_nil, false_implies, implies_true, and_true, forall_and]
  tauto

/-! ## Commands whose regions fail the check (43_dispatch.md R185, R186) -/

theorem runCommand_regionError {s : State} {l : Latched} (hl : s.latched = some l)
    (hr : regionOk s.memOk l.snap = false) (body : Params → State) :
    runCommand s body = .next (s.raise .regionError []) := by
  simp [runCommand_latched hl, hr]

/-- Each of the six commands is run behind the region check. -/
theorem exec_regionError {s : State} {l : Latched} {i : Instr}
    (hi : i = .hufCompress ∨ i = .hufDecompress ∨ i = .lzCompress ∨ i = .lzDecompress ∨ i = .rleCompress ∨
      i = .rleDecompress) (hl : s.latched = some l) (hr : regionOk s.memOk l.snap = false) :
    exec i s = .next (s.raise .regionError []) := by
  rcases hi with rfl | rfl | rfl | rfl | rfl | rfl <;>
    simp only [exec, execHufCompress, execHufDecompress, execLzCompress, execLzDecompress, execRleCompress,
      execRleDecompress] <;>
    exact runCommand_regionError hl hr _

/-- Settles O17: the command ends in a completion that neither reads nor damages memory. -/
theorem regionErrorCompletes : Obligations.RegionErrorCompletes := fun s _ _ hi hl hr =>
  ⟨s.raise .regionError [], exec_regionError hi hl hr, raise_completedErr s .regionError [],
    fun m => exec_regionError (s := { s with mem := m }) hi hl hr⟩

/-! ## What the engine writes (R56) -/

/-- Writes that do not reach an address leave its byte alone. -/
theorem read_memWrites_outside {a : Nat} (ws : List (Nat × List Byte)) : ∀ m : Memory,
    (∀ w ∈ ws, a < w.1 ∨ w.1 + w.2.length ≤ a) →
    Memory.read (ws.foldl (fun m w => memWrite m w.1 w.2) m) a = Memory.read m a := by
  induction ws with
  | nil => exact fun _ _ => rfl
  | cons w ws ih =>
    intro m h
    obtain ⟨hw, hws⟩ := List.forall_mem_cons.mp h
    exact (ih _ hws).trans (read_memWrite_outside _ _ _ _ hw)

/-- After a passed region check, SRC lies apart from what the command writes. -/
theorem writes_eq_false_of_src {ranges : List Span} {p : Params} {a : Nat} (hr : regionOk ranges p = true)
    (ha : p.srcRegion.has a = true) : p.writes a = false := by
  obtain ⟨-, -, -, hdst, hmeta, -⟩ := regionOk_places hr
  simpa [Params.writes, ha] using And.intro (Span.touches_eq_false_iff.mp hdst a) (Span.touches_eq_false_iff.mp hmeta a)

/-- However a command ends, a byte it may not write is as it was: one that fails the region check may write none. -/
theorem CommandEnd.read_eq {s t : State} {p : Params} {a : Nat} (h : CommandEnd s p t)
    (ha : regionOk s.memOk p = true → p.writes a = false) : Memory.read t.mem a = Memory.read s.mem a := by
  rcases h with ⟨e, zs, rfl, rfl | hr, hin⟩ | ⟨ws, n, q, rfl, -, hr, -, hin⟩
  · exact read_damage_outside s [] a nofun
  · refine read_damage_outside s zs a fun z hz => Bool.eq_false_iff.mpr fun hza => ?_
    exact Bool.false_ne_true ((ha hr).symm.trans (hin z hz a hza))
  · refine read_memWrites_outside ws s.mem fun w hw => ?_
    by_contra hreach
    exact Bool.false_ne_true ((ha hr).symm.trans (hin w hw a (by omega) (by omega)))

/-- The end of a decompress whose ORIG_LEN fits DST is an end of its command. -/
theorem deliver_ends {s : State} {p : Params} (hr : regionOk s.memOk p = true) {n : Nat} (hn : n ≤ p.dstCap.toNat)
    {out : Option (List Byte)} (hlen : ∀ bytes, out = some bytes → bytes.length = n) :
    CommandEnd s p (deliver n out s p) := by
  have h := decompressBody_ends hr (build := id) (decode := fun _ _ => out) hlen
  rwa [decompressBody_eq, if_neg (Nat.not_lt.mpr hn)] at h

/-- An element leaves memory alone or ends the command it belongs to. -/
theorem ElementEnd.keeps_or_ends {s t : State} {l : Latched} {x : Expansion} (h : ElementEnd s l x t)
    (hr : regionOk s.memOk l.snap = true) (hn : x.origLen ≤ l.snap.dstCap.toNat) :
    t.mem = s.mem ∨ CommandEnd s l.snap t := by
  rcases h with rfl | ⟨out, rfl, -⟩
  · exact .inr (deliver_ends hr hn (out := none) nofun)
  · exact .inl rfl

/-- A used-up payload ends the command, in success or CORRUPT_PAYLOAD. -/
theorem PayloadEnd.ends {s t : State} {l : Latched} {x : Expansion} (h : PayloadEnd s l x t)
    (hr : regionOk s.memOk l.snap = true) (hn : x.origLen ≤ l.snap.dstCap.toNat) : CommandEnd s l.snap t := by
  subst h
  refine deliver_ends hr hn fun bytes hb => ?_
  split_ifs at hb with hlen
  cases hb
  exact hlen

/-- Settles O58: a turn of the engine leaves memory alone or ends the latched command. -/
theorem engineWritesOnlyItsRegions : Obligations.EngineWritesOnlyItsRegions := by
  intro s t l h hl ht a ha
  have hwrites : regionOk s.memOk l.snap = true → l.snap.writes a = false := fun hr => by
    rcases ha with ⟨hdst, hmeta⟩ | hsrc
    · simp [Params.writes, hdst, hmeta]
    · exact writes_eq_false_of_src hr hsrc
  rcases engineTurn_cases ht with ⟨-, rfl⟩ | ⟨-, -, l', hl', hend⟩ | ⟨-, x, l', hx, hl', hend⟩
  · rfl
  · cases hl.symm.trans hl'
    exact hend.read_eq hwrites
  · cases hl.symm.trans hl'
    obtain ⟨l', hl', -, hcap, hreg⟩ := h.expansionOk x hx
    cases hl.symm.trans hl'
    rcases hend with ⟨rest, hend⟩ | hend
    · rcases hend.keeps_or_ends hreg hcap with hmem | hend
      · rw [hmem, State.consume_mem]
      · exact hend.read_eq hwrites
    · exact (hend.ends hreg hcap).read_eq hwrites

end Sys2Proof.Machine

/-!
PROOF. The formats of 30_encoding.md: command words by their fields (R81 to R83), and that the decoders undo the encoder
(R88 to R92).
-/

namespace Sys2Proof.Machine

/-! ## Command words -/

/-- A command word by its fields: RSVD = 0, then ALG and DIR (30_encoding.md R81). -/
def commandWord (alg dir : BitVec 4) : Word := 0#24 ++ (alg ++ dir)

theorem eq_commandWord_iff (w : Word) (alg dir : BitVec 4) :
    w = commandWord alg dir ↔ cmdRsvd w = 0#24 ∧ cmdAlg w = alg ∧ cmdDir w = dir := by
  have hw := w.isLt
  have hcmd : (commandWord alg dir).toNat = 16 * alg.toNat + dir.toNat := by
    rw [commandWord, BitVec.toNat_append, BitVec.toNat_append, ← Nat.shiftLeft_add_eq_or_of_lt dir.isLt,
      Nat.shiftLeft_eq]
    simp
    omega
  simp only [← BitVec.toNat_inj, hcmd, cmdRsvd, cmdAlg, cmdDir, BitVec.extractLsb'_toNat, Nat.shiftRight_eq_div_pow,
    BitVec.toNat_ofNat]
  omega

/-- Settles O46: each of the six words is told from every other word by its three fields. -/
theorem commandWordsDecode : Obligations.CommandWordsDecode := by
  intro w
  rw [show 0x11#32 = commandWord 1 1 from rfl, show 0x12#32 = commandWord 1 2 from rfl,
    show 0x21#32 = commandWord 2 1 from rfl, show 0x22#32 = commandWord 2 2 from rfl,
    show 0x31#32 = commandWord 3 1 from rfl, show 0x32#32 = commandWord 3 2 from rfl]
  simp only [eq_commandWord_iff, decodeCommand]
  by_cases hrsvd : cmdRsvd w = 0#24
  · by_cases h1 : cmdAlg w = 1#4
    · simp [hrsvd, h1]
    · by_cases h2 : cmdAlg w = 2#4
      · simp [hrsvd, h2]
      · by_cases h3 : cmdAlg w = 3#4
        · simp [hrsvd, h3]
        · simp [hrsvd, h1, h2, h3]
  · simp [hrsvd]

theorem decodeCommand_of_illegal {w : Word} (h : w ∉ legalCommandWords) : decodeCommand w = .illegalCmd w := by
  simp only [legalCommandWords, List.mem_cons, List.not_mem_nil, or_false, not_or] at h
  obtain ⟨h11, h12, h21, h22, h31, h32⟩ := h
  rw [commandWordsDecode w, if_neg h11, if_neg h12, if_neg h21, if_neg h22, if_neg h31, if_neg h32]

theorem exec_illegalCmd {s : State} {l : Latched} (hl : s.latched = some l) (w : Word) :
    exec (.illegalCmd w) s = .next (s.raise .unknownAlgorithm []) :=
  withSnapshot_latched hl fun _ => s.raise .unknownAlgorithm []

/-- Settles O19: the word is accepted as any other, and its execution is an error completion without damage. -/
theorem illegalCommandCompletes : Obligations.IllegalCommandCompletes := by
  intro w hw
  refine ⟨decodeCommand_of_illegal hw, fun s rest hp hidle => ?_, fun s l hl _ => ?_⟩
  · refine ⟨_, step_mmioWrite hp (by decide) (by decide), ?_⟩
    simp [mmioWrite, regAt, writeReg, writeCmd, hidle]
  · exact ⟨_, exec_illegalCmd hl w, raise_completedErr s .unknownAlgorithm [], fun m =>
      exec_illegalCmd (s := { s with mem := m }) hl w⟩

/-! ## Decode of encode -/

/-- Four bytes of a token decode to the class of its fields (R89, R90). -/
theorem decodeLz_tokenBytes (dist : BitVec 16) (len lit : Byte) (rest : List Byte) :
    decodeLz (tokenBytes dist len lit ++ rest) = .ok (classifyToken dist len lit, rest) := by
  simp only [tokenBytes, List.cons_append, List.nil_append, decodeLz, tokenDist_eta]

/-- One to three bytes are a truncated token (R93). -/
theorem decodeLz_short {bytes : List Byte} (hpos : 1 ≤ bytes.length) (hle : bytes.length ≤ 3) :
    decodeLz bytes = .ok (.lzTruncated bytes, []) := by
  match bytes with
  | [_] | [_, _] | [_, _, _] => rfl
  | [] | _ :: _ :: _ :: _ :: _ => simp only [List.length_nil, List.length_cons] at hpos hle; omega

theorem decodeRle_run (count value : Byte) (rest : List Byte) :
    decodeRle (Config.rleMarker :: count :: value :: rest) = .ok (.rleRun count value, rest) := rfl

theorem decodeRle_lit {b : Byte} (h : b ≠ Config.rleMarker) (rest : List Byte) :
    decodeRle (b :: rest) = .ok (.rleLit b, rest) := by
  simp only [decodeRle, if_neg h]

/-- Bits that are left decode to the code taken off them (R92). -/
theorem decodeHuf_of_ne_nil (t : Tree) {bits : List Bool} (h : bits ≠ []) :
    decodeHuf t bits = .ok (.hufSym (takeCode t.nodes t.start bits).1, (takeCode t.nodes t.start bits).2) := by
  cases bits with
  | nil => exact absurd rfl h
  | cons bit bits => rfl

/-- A code the tree has is taken whole, whatever bits follow it (R92). -/
theorem decodeHuf_code {t : Tree} {b : Byte} {code : List Bool} (h : codeSym t.nodes t.start code = some b)
    (rest : List Bool) : decodeHuf t (code ++ rest) = .ok (.hufSym code, rest) := by
  have hne : code ≠ [] := by rintro rfl; cases h
  rw [decodeHuf_of_ne_nil t (by simp [hne]), takeCode_of_codeSym t.nodes b rest code t.start h]

/-- Settles O47: row by row, the decoder of an element answers the row its operands are in. -/
theorem decodeOfEncode : Obligations.DecodeOfEncode := by
  intro i hwf
  cases i with
  | hufCompress | hufDecompress | lzCompress | lzDecompress | rleCompress | rleDecompress => rfl
  | illegalCmd word => exact decodeCommand_of_illegal (by simpa [WellFormed, Instr.wf] using hwf)
  | hufSym code => exact fun t b rest h => decodeHuf_code h rest
  | lzLit lit => exact fun rest _ => decodeLz_tokenBytes 0#16 0#8 lit rest
  | lzMatch dist len lit =>
    simp only [WellFormed, Instr.wf, Bool.and_eq_true, bne_iff_ne] at hwf
    intro rest _
    exact (decodeLz_tokenBytes dist len lit rest).trans (by simp [classifyToken, hwf])
  | lzRef0 dist lit =>
    simp only [WellFormed, Instr.wf, bne_iff_ne] at hwf
    intro rest _
    exact (decodeLz_tokenBytes dist 0#8 lit rest).trans (by simp [classifyToken, hwf])
  | lzIllegal len lit =>
    simp only [WellFormed, Instr.wf, bne_iff_ne] at hwf
    intro rest _
    exact (decodeLz_tokenBytes 0#16 len lit rest).trans (by simp [classifyToken, hwf])
  | lzTruncated bytes =>
    simp only [WellFormed, Instr.wf, Bool.and_eq_true, decide_eq_true_eq] at hwf
    intro rest h
    obtain rfl : rest = [] := by simpa using h
    simpa [decodeElement] using decodeLz_short hwf.1 hwf.2
  | rleRun count value => exact fun rest _ => decodeRle_run count value rest
  | rleLit byte => exact fun rest _ => decodeRle_lit (by simpa [WellFormed, Instr.wf] using hwf) rest
  | rleDangling count =>
    cases count with
    | none | some count =>
      intro rest h
      obtain rfl : rest = [] := by simpa using h
      rfl

end Sys2Proof.Machine

/-!
PROOF. A decompress in one step ends as its payload executed element by element (30_encoding.md R80; 43_dispatch.md
R191). A running decompress is always `s.expand x`, `s` being the state the command was opened in. One turn on it, at an
element or at the end of the payload, is said once; each format then adds how its decoder splits into the first element
and the rest of the payload.
-/

namespace Sys2Proof.Machine

/-! ## Turns of the engine -/

/-- Finitely many turns of the engine lead from one state to another. -/
def Reaches (s t : State) : Prop := ∃ n, engineTurns n s = .next t

theorem Reaches.refl (s : State) : Reaches s s := ⟨0, rfl⟩

theorem Reaches.head {s u t : State} (h : engineTurn s = .next u) (hu : Reaches u t) : Reaches s t := by
  obtain ⟨n, hn⟩ := hu
  exact ⟨n + 1, by simp only [engineTurns, h, hn]⟩

/-- A check in front of both, which ends the command at once. -/
theorem Reaches.check {c : Prop} [Decidable c] {s u t : State} (h : ¬ c → Reaches u t) :
    Reaches (if c then s else u) (if c then s else t) := by
  split_ifs with hc
  · exact .refl _
  · exact h hc

/-- Two bodies of a command end alike if they do behind the region check. -/
theorem runCommand_reaches {s : State} {l : Latched} (hl : s.latched = some l) {opened body : Params → State}
    (h : Reaches (opened l.snap) (body l.snap)) :
    ∃ u n t, runCommand s opened = .next u ∧ engineTurns n u = .next t ∧ runCommand s body = .next t := by
  rw [runCommand_latched hl, runCommand_latched hl]
  split_ifs
  · obtain ⟨n, hn⟩ := h
    exact ⟨_, n, _, rfl, hn, rfl⟩
  · exact ⟨_, 0, _, rfl, rfl, rfl⟩

/-- A decompress opened once its ORIG_LEN has been read, against its body in one step. -/
theorem decompressBody_reaches {s u : State} {p : Params} {n : Nat} {build : Tables → Tables}
    {decode : Tables → List Byte → Option (List Byte)}
    (h : Reaches u (deliver n (decode (build s.tables) (srcData p s.mem)) s p)) :
    Reaches (if p.dstCap.toNat < n then s.raise .overflow [] else u) (decompressBody n build decode s p) := by
  rw [decompressBody_eq]
  exact .check fun _ => h

/-! ## The decompress in progress -/

/-- An output is whole at exactly ORIG_LEN bytes (40_huffman.md R119, 41_lz77.md R149, 42_rle.md R166). -/
def whole (n : Nat) (out : List Byte) : Option (List Byte) := if out.length = n then some out else none

section Running

variable {s : State} {l : Latched} (hp : s.phase = .busy) (hl : s.latched = some l)

include hp hl

/-- With the payload used up, one turn ends the command. -/
theorem expand_end {x : Expansion} {e : DecodeError} (hf : fetchElement s.tables.tree x.feed = .error e) :
    Reaches (s.expand x) (deliver x.origLen (whole x.origLen x.out) s l.snap) := by
  refine .head ?_ (.refl _)
  have hturn : engineTurn (s.expand x) = finishExpansion (s.expand x) := by
    simp only [engineTurn, State.expand_phase, hp, State.expand_expansion, State.expand_tables, Tables.emitted_tree, hf]
  rw [hturn, finishExpansion_running (s := s.expand x) hl rfl, whole, deliver_eq, deliver_eq]
  split_ifs <;> rfl

/-- At an element, one turn makes its output or ends the command, and `rest` says how the payload after it ends. -/
theorem expand_element {x : Expansion} {i : Instr} {feed : Feed} {effect : Params → Expansion → Option (List Byte)}
    {rest : List Byte → Option (List Byte)} (hf : fetchElement s.tables.tree x.feed = .ok (i, feed))
    (he : exec i ((s.expand x).consume x feed) = runElement ((s.expand x).consume x feed) effect)
    (hrest : ∀ out, effect l.snap ⟨feed, x.origLen, x.out⟩ = some out →
      Reaches (s.expand ⟨feed, x.origLen, out⟩) (deliver x.origLen (rest out) s l.snap)) :
    Reaches (s.expand x) (deliver x.origLen ((effect l.snap ⟨feed, x.origLen, x.out⟩).bind rest) s l.snap) := by
  have hturn : engineTurn (s.expand x) = exec i ((s.expand x).consume x feed) := by
    simp only [engineTurn, State.expand_phase, hp, State.expand_expansion, State.expand_tables, Tables.emitted_tree, hf]
  rw [he, runElement_running (s := (s.expand x).consume x feed) (x := ⟨feed, x.origLen, x.out⟩) hl rfl] at hturn
  cases hout : effect l.snap ⟨feed, x.origLen, x.out⟩ with
  | none => rw [hout] at hturn; exact .head hturn (.refl _)
  | some out => rw [hout] at hturn; exact .head hturn (hrest out hout)

/-- At an element of a corrupt row, one turn ends the command. -/
theorem expand_corrupt {x : Expansion} {i : Instr} {feed : Feed}
    (hf : fetchElement s.tables.tree x.feed = .ok (i, feed)) (he : ∀ t : State, exec i t = runElement t fun _ _ => none) :
    Reaches (s.expand x) (deliver x.origLen none s l.snap) :=
  expand_element hp hl (rest := fun _ => none) hf (he _) nofun

end Running

/-! ## LZ77 -/

/-- What the payload left makes of the output so far (41_lz77.md R149). -/
def lzRest (window origLen : Nat) (payload out : List Byte) : Option (List Byte) :=
  if payload.length % 4 ≠ 0 then none else (lzExpandAll window origLen out payload).bind (whole origLen)

theorem lzDecompress_eq (window origLen : Nat) (payload : List Byte) :
    lzDecompress window origLen payload = lzRest window origLen payload [] := by
  unfold lzDecompress lzRest
  cases lzExpandAll window origLen [] payload <;> rfl

theorem lzRest_token (window origLen : Nat) (byte0 byte1 len lit : Byte) (payload out : List Byte) :
    lzRest window origLen (byte0 :: byte1 :: len :: lit :: payload) out =
      (lzExpand window origLen out (tokenDist byte0 byte1).toNat len.toNat lit).bind
        (lzRest window origLen payload) := by
  simp only [lzRest, lzExpandAll, tokenDist_toNat, List.length_cons, Nat.add_assoc, Nat.add_mod_right]
  cases lzExpand window origLen out (256 * byte0.toNat + byte1.toNat) len.toNat lit <;> simp [lzRest]

theorem lzRest_short {window origLen : Nat} {payload : List Byte} (out : List Byte) (hpos : 1 ≤ payload.length)
    (hle : payload.length ≤ 3) : lzRest window origLen payload out = none :=
  if_pos (by omega)

/-- A token of any class is run by its fields. -/
theorem exec_token_runs (dist : BitVec 16) (len lit : Byte) (s : State) :
    exec (classifyToken dist len lit) s =
      runElement s fun p x => lzExpand p.window.toNat x.origLen x.out dist.toNat len.toNat lit := by
  unfold classifyToken
  split_ifs with hlen hdist hdist
  · subst hlen hdist; rfl
  · subst hlen; rfl
  · subst hdist; rfl
  · rfl

/-- Token by token, a running LZ77 decompress ends as its rest says. -/
theorem lz_reaches {s : State} {l : Latched} (hp : s.phase = .busy) (hl : s.latched = some l) (n : Nat) :
    ∀ payload out : List Byte, Reaches (s.expand ⟨.lz payload, n, out⟩)
      (deliver n (lzRest l.snap.window.toNat n payload out) s l.snap)
  | byte0 :: byte1 :: len :: lit :: payload, out => by
    rw [lzRest_token]
    exact expand_element hp hl (x := ⟨.lz (byte0 :: byte1 :: len :: lit :: payload), n, out⟩) rfl
      (exec_token_runs (tokenDist byte0 byte1) len lit _) fun out _ => lz_reaches hp hl n payload out
  | [], out => expand_end hp hl (x := ⟨.lz [], n, out⟩) rfl
  | [_], out | [_, _], out | [_, _, _], out => by
    rw [lzRest_short _ (by simp) (by simp)]
    exact expand_corrupt hp hl (x := ⟨.lz _, n, out⟩) rfl fun _ => rfl

/-- Settles O50: behind the same checks, the tokens run one a turn end as `lz_decompress` says. -/
theorem lzDecompressIsElementwise : Obligations.LzDecompressIsElementwise := by
  intro s l hp hl _
  simp only [exec, openLz, execLzDecompress]
  refine runCommand_reaches hl (.check fun _ => decompressBody_reaches (build := id) ?_)
  rw [lzDecompress_eq]
  exact lz_reaches hp hl _ _ _

/-! ## RLE -/

theorem rleDecompress_eq (origLen : Nat) (payload : List Byte) :
    rleDecompress origLen payload = (rleExpandAll origLen payload.length [] payload).bind (whole origLen) := by
  unfold rleDecompress
  cases rleExpandAll origLen payload.length [] payload <;> rfl

theorem rleExpandAll_run_bind (origLen fuel : Nat) (out payload : List Byte) (count value : Byte) :
    rleExpandAll origLen (fuel + 1) out (Config.rleMarker :: count :: value :: payload) =
      (rleExpand origLen out count.toNat value).bind fun out' => rleExpandAll origLen fuel out' payload := by
  rw [rleExpandAll_run]
  cases rleExpand origLen out count.toNat value <;> rfl

theorem rleExpandAll_lit_bind {b : Byte} (hb : b ≠ Config.rleMarker) (origLen fuel : Nat) (out payload : List Byte) :
    rleExpandAll origLen (fuel + 1) out (b :: payload) =
      (rleExpand origLen out 1 b).bind fun out' => rleExpandAll origLen fuel out' payload := by
  rw [rleExpandAll_lit hb]
  cases rleExpand origLen out 1 b <;> rfl

/-- Element by element, a running RLE decompress ends as its rest says, with fuel for every byte left. -/
theorem rle_reaches {s : State} {l : Latched} (hp : s.phase = .busy) (hl : s.latched = some l) (n : Nat) :
    ∀ (fuel : Nat) (payload out : List Byte), payload.length ≤ fuel → Reaches (s.expand ⟨.rle payload, n, out⟩)
      (deliver n ((rleExpandAll n fuel out payload).bind (whole n)) s l.snap) := by
  intro fuel
  induction fuel with
  | zero =>
    intro payload out hfuel
    obtain rfl := List.eq_nil_of_length_eq_zero (Nat.le_zero.mp hfuel)
    exact expand_end hp hl (x := ⟨.rle [], n, out⟩) rfl
  | succ fuel ih =>
    intro payload out hfuel
    match payload with
    | [] => exact expand_end hp hl (x := ⟨.rle [], n, out⟩) rfl
    | b :: payload =>
      rw [List.length_cons] at hfuel
      by_cases hb : b = Config.rleMarker
      · subst hb
        match payload with
        | [] | [_] => exact expand_corrupt hp hl (x := ⟨.rle _, n, out⟩) rfl fun _ => rfl
        | count :: value :: payload =>
          simp only [List.length_cons] at hfuel
          rw [rleExpandAll_run_bind, Option.bind_assoc]
          exact expand_element hp hl (x := ⟨.rle _, n, out⟩) (i := .rleRun count value)
            (effect := fun _ x => rleExpand x.origLen x.out count.toNat value) rfl rfl
            fun out' _ => ih payload out' (by omega)
      · rw [rleExpandAll_lit_bind hb, Option.bind_assoc]
        exact expand_element hp hl (x := ⟨.rle (b :: payload), n, out⟩) (i := .rleLit b)
          (effect := fun _ x => rleExpand x.origLen x.out 1 b)
          (congrArg (Except.map _) (decodeRle_lit hb payload)) rfl fun out' _ => ih payload out' (by omega)

/-- Settles O51: behind the same checks, the elements run one a turn end as `rle_decompress` says. -/
theorem rleDecompressIsElementwise : Obligations.RleDecompressIsElementwise := by
  intro s l hp hl _
  simp only [exec, openRle, execRleDecompress]
  refine runCommand_reaches hl (.check fun _ => decompressBody_reaches (build := id) ?_)
  rw [rleDecompress_eq]
  exact rle_reaches hp hl _ _ _ _ (Nat.le_refl _)

/-! ## Huffman -/

theorem treeChild_lt {nodes : List Node} (ho : ArenaOk nodes) {cur c : Nat} {bit : Bool}
    (h : treeChild nodes cur bit = some c) : c < cur := by
  unfold treeChild at h
  split at h
  · next left right w hnode =>
    obtain ⟨hleft, hright⟩ := ho cur left right w hnode
    cases h
    split_ifs
    · exact hright
    · exact hleft
  · cases h

/-- In a tree whose children lie before their parents, the walk of the bits left takes their first code, emits its byte
and goes on from the root (40_huffman.md R119). Bits that end inside a code leave the walk below the root. -/
theorem hufWalk_takeCode {nodes : List Node} (ho : ArenaOk nodes) {root : Nat} (origLen : Nat) (out : List Byte) :
    ∀ (bits : List Bool) (cur : Nat), bits ≠ [] → cur ≤ root → hufWalk nodes root origLen cur out bits =
      ((codeSym nodes cur (takeCode nodes cur bits).1).bind (hufEmit origLen out)).bind
        fun out' => hufWalk nodes root origLen root out' (takeCode nodes cur bits).2 := by
  intro bits
  induction bits with
  | nil => exact fun _ h => absurd rfl h
  | cons bit bits ih =>
    intro cur _ hcur
    cases hc : treeChild nodes cur bit with
    | none => simp [hufWalk, takeCode, codeSym, hc]
    | some c =>
      cases hsym : leafSym nodes c with
      | some sym =>
        simp only [hufWalk, takeCode, codeSym, hc, hsym, Option.bind_some]
        cases hufEmit origLen out sym <;> rfl
      | none =>
        have hlt := treeChild_lt ho hc
        cases bits with
        | nil => simp [hufWalk, takeCode, codeSym, hc, hsym]; omega
        | cons bit' bits =>
          have := ih c (by simp) (by omega)
          simpa [hufWalk, takeCode, codeSym, hc, hsym] using this

theorem takeCode_rest_length (nodes : List Node) (cur : Nat) {bits : List Bool} (h : bits ≠ []) :
    (takeCode nodes cur bits).2.length < bits.length := by
  obtain ⟨happend, hne⟩ := takeCode_append nodes bits cur
  have hlen := congrArg List.length happend
  have hpos := List.length_pos_of_ne_nil (hne h)
  rw [List.length_append] at hlen
  omega

/-- A code is run by the walk it makes in the tree (R119). -/
theorem exec_hufSym_runs (code : List Bool) (s : State) :
    exec (.hufSym code) s = runElement s fun _ x =>
      (codeSym s.tables.tree.nodes s.tables.tree.start code).bind (hufEmit x.origLen x.out) := by
  simp only [exec, execHufSym]
  cases codeSym s.tables.tree.nodes s.tables.tree.start code <;> rfl

/-- Code by code, a running Huffman decompress ends as the walk of its bits from the root says. -/
theorem huf_reaches {s : State} {l : Latched} (hp : s.phase = .busy) (hl : s.latched = some l) (n : Nat)
    (ho : ArenaOk s.tables.tree.nodes) (bits : List Bool) (out : List Byte) :
    Reaches (s.expand ⟨.huf bits, n, out⟩)
      (deliver n (hufWalk s.tables.tree.nodes s.tables.tree.start n s.tables.tree.start out bits) s l.snap) := by
  by_cases hbits : bits = []
  · subst hbits
    have hend := expand_end hp hl (x := ⟨.huf [], n, out⟩) rfl
    simpa [hufWalk, whole] using hend
  · rw [hufWalk_takeCode ho n out bits _ hbits (Nat.le_refl _)]
    have hless := takeCode_rest_length s.tables.tree.nodes s.tables.tree.start hbits
    exact expand_element hp hl (x := ⟨.huf bits, n, out⟩)
      (effect := fun _ x => (codeSym s.tables.tree.nodes s.tables.tree.start
        (takeCode s.tables.tree.nodes s.tables.tree.start bits).1).bind (hufEmit x.origLen x.out))
      (congrArg (Except.map _) (decodeHuf_of_ne_nil s.tables.tree hbits)) (exec_hufSym_runs _ _)
      fun out' _ => huf_reaches hp hl n ho _ out'
termination_by bits.length

/-- One byte value present: the tree is its leaf. -/
theorem leafSym_buildTree_one {f : List Nat} (h : distinct f = 1) : ∃ sym, leafSym (buildTree f).nodes 0 = some sym := by
  obtain ⟨node, hleaves⟩ := List.length_eq_one_iff.mp ((leaves_length f 0).trans h)
  obtain ⟨sym, w, rfl⟩ := leaves_isLeaf (f := f) (b := 0) (n := 0) (node := node) (by rw [hleaves]; rfl)
  refine ⟨sym, ?_⟩
  simp only [buildTree, hleaves]
  rfl

/-- With fewer than two byte values the output is known without a walk, and it is whole (40_huffman.md R120). -/
theorem hufDecompress_unwalked {f : List Nat} {n : Nat} (hsum : f.sum = n) (hk : distinct f ≤ 1) (pad : Nat)
    (payload : List Byte) : hufDecompress n pad f payload =
      whole n (((leafSym (buildTree f).nodes 0).map (List.replicate n)).getD []) := by
  unfold hufDecompress hufDecode whole
  rw [buildTree_k]
  rcases Nat.le_one_iff_eq_zero_or_eq_one.mp hk with h0 | h1
  · have hleaves := List.eq_nil_of_length_eq_zero ((leaves_length f 0).trans h0)
    simp [← hsum, sum_eq_zero_of_distinct h0, h0, buildTree, hleaves, mergeAll, leafSym]
  · obtain ⟨sym, hsym⟩ := leafSym_buildTree_one h1
    simp [h1, hsym]

theorem hufDecompress_walked {f : List Nat} (hk : 2 ≤ distinct f) (n pad : Nat) (payload : List Byte) :
    hufDecompress n pad f payload =
      hufWalk (buildTree f).nodes (buildTree f).start n (buildTree f).start [] (payloadBits payload pad) := by
  rw [hufDecompress, hufDecode, buildTree_k, if_neg (by omega), if_neg (by omega)]

/-- A Huffman decompress opened with its tree built, whether or not it has codes to walk. -/
theorem openedHuf_reaches {s : State} {l : Latched} (hp : s.phase = .busy) (hl : s.latched = some l) {f : List Nat}
    (ht : s.tables.tree = buildTree f) {n : Nat} (hsum : f.sum = n) (pad : Nat) (payload : List Byte) :
    Reaches
      (if (buildTree f).k ≤ 1 then
        s.expand ⟨.huf [], n, ((leafSym (buildTree f).nodes 0).map (List.replicate n)).getD []⟩
      else s.expand ⟨.huf (payloadBits payload pad), n, []⟩)
      (deliver n (hufDecompress n pad f payload) s l.snap) := by
  rw [buildTree_k]
  split_ifs with hk
  · rw [hufDecompress_unwalked hsum hk]
    exact expand_end hp hl (x := ⟨.huf [], n, _⟩) rfl
  · obtain ⟨hforest, -, -⟩ := buildTree_forest (f := f) (by omega)
    rw [hufDecompress_walked (by omega), ← ht]
    exact huf_reaches hp hl n (ht ▸ hforest.arena) _ _

/-- Settles O52: behind the same checks, either no code is walked and the opened output is whole, or the codes run one a
turn end as the walk of the bits does. -/
theorem hufDecompressIsElementwise : Obligations.HufDecompressIsElementwise := by
  intro s l hp hl _
  simp only [exec, openHuf, execHufDecompress]
  refine runCommand_reaches hl ?_
  by_cases hm : hufMetaOk l.snap s.mem = true
  · simp only [if_pos hm]
    refine decompressBody_reaches ?_
    rw [hufDecode_built, ← deliver_work _ _ (s.tables.buildTree (metaFreq l.snap s.mem))]
    exact openedHuf_reaches (s := s.work (s.tables.buildTree (metaFreq l.snap s.mem))) hp hl rfl (hufMetaOk_sum hm) _ _
  · simp only [if_neg hm]
    exact .refl _

end Sys2Proof.Machine

/-!
PROOF. The rest of 30_encoding.md: corrupt element rows (R93), sample words and the byte order of fields (R87), and the
host scripts (R95, R96).
-/

namespace Sys2Proof.Machine

/-! ## Elements that are always corrupt -/

/-- An element without an output ends its command in CORRUPT_PAYLOAD. -/
theorem runElement_corrupt {s : State} {l : Latched} {x : Expansion} (hl : s.latched = some l)
    (hx : s.expansion = some x) {effect : Params → Expansion → Option (List Byte)} (h : effect l.snap x = none) :
    ∃ t, runElement s effect = .next t ∧ CompletedErr s t 3#4 [⟨l.snap.dstAddr.toNat, x.origLen⟩] := by
  rw [runElement_running hl hx, h]
  exact ⟨_, rfl, raise_completedErr s .corruptPayload _⟩

/-- A copy from distance 0 fails the checks of R148. -/
theorem lzExpand_distance_zero (window origLen : Nat) (out : List Byte) {len : Nat} (h : 0 < len) (lit : Byte) :
    lzExpand window origLen out 0 len lit = none := by
  simp [lzExpand, lzCorrupt, h]

/-- Settles O31: none of the three has an output, whatever the decompress has made so far. -/
theorem illegalElementsCorrupt : Obligations.IllegalElementsCorrupt := by
  rintro s l x i hwf (⟨len, lit, rfl⟩ | ⟨bytes, rfl⟩ | ⟨count, rfl⟩) hl hx
  · have hlen : len ≠ 0#8 := by simpa [WellFormed, Instr.wf] using hwf
    have hpos : 0 < len.toNat := Nat.pos_of_ne_zero fun h0 => hlen (BitVec.eq_of_toNat_eq h0)
    exact runElement_corrupt (effect := fun p x => lzExpand p.window.toNat x.origLen x.out 0 len.toNat lit) hl hx
      (lzExpand_distance_zero _ _ _ hpos lit)
  · exact runElement_corrupt (effect := fun _ _ => none) hl hx rfl
  · exact runElement_corrupt (effect := fun _ _ => none) hl hx rfl

/-! ## Sample words and fields -/

/-- A number below 2^32 is the sum of its four bytes by place (00_scope.md R12). -/
theorem u32le_digits {v : Nat} (h : v < 4294967296) :
    v = (BitVec.ofNat 8 v).toNat + 256 * (BitVec.ofNat 8 (v / 256)).toNat +
      65536 * (BitVec.ofNat 8 (v / 65536)).toNat + 16777216 * (BitVec.ofNat 8 (v / 16777216)).toNat := by
  simp only [BitVec.toNat_ofNat]
  omega

/-- Settles O49: the sample words by evaluation, the fields by their digits. -/
theorem sampleWordsDecode : Obligations.SampleWordsDecode :=
  ⟨rfl, rfl, rfl, rfl, rfl, rfl, fun v hv => ⟨_, _, _, _, rfl, u32le_digits hv, fromU32le_u32le v hv⟩,
    fun _ _ _ _ => rfl, fun m a n => ⟨memRead_length m a n, fun k hk => memRead_getElem? m a n k hk⟩⟩

/-! ## Polling -/

/-- However a command ends, the engine is IDLE after it and the host's side stands. -/
theorem CommandEnd.leaves_idle {s t : State} {p : Params} (h : CommandEnd s p t) :
    t.phase = .idle ∧ t.status.busy = false ∧ KeepsHostSide s t := by
  rcases h with ⟨e, zs, rfl, -, -⟩ | ⟨ws, n, q, rfl, -, -, -, -⟩
  · exact ⟨rfl, rfl, rfl, rfl, rfl, rfl, rfl, rfl⟩
  · exact ⟨rfl, rfl, rfl, rfl, rfl, rfl, rfl, rfl⟩

theorem Status.toWord_bit_zero (st : Status) : st.toWord.getLsbD 0 = st.busy := by
  rw [Status.toWord, BitVec.getLsbD_ofNat, Nat.testBit_zero]
  cases st.busy <;> simp <;> omega

theorem step_waitIdle_busy {s : State} {rest : List Event} (h : s.pending = .waitIdle :: rest) (hp : s.phase = .busy) :
    step s = engineTurn s := by
  simp only [step, h, hostEvent, hostWaitIdle, hp]
  rw [← h, ← hp]

theorem step_waitIdle_idle {s : State} {rest : List Event} (h : s.pending = .waitIdle :: rest) (hp : s.phase = .idle) :
    step s = .next (State.answerMmio (regOffset .status) { s with pending := rest }) := by
  simp only [step, h, hostEvent, hostWaitIdle, hp]

/-- Settles O54: the turn the poll gives the engine completes the command, and the next poll reads STATUS. -/
theorem waitIdleEnds : Obligations.WaitIdleEnds := by
  intro s l rest _ hp hx hl hpend
  obtain ⟨t, ht, hend⟩ := exec_command_ends hl
  obtain ⟨hidle, hbusy, -, -, -, hpending, hresponses, -⟩ := hend.leaves_idle
  refine ⟨t, _, ?_, hidle, step_waitIdle_idle (hpending.trans hpend) hidle, rfl, hidle, ?_, ?_, ?_⟩
  · rw [step_waitIdle_busy hpend hp, engineTurn_command hp hx hl, ht]
  · rw [State.answerMmio_responses, mmioRead_regOffset, hresponses]
    rfl
  · rw [Status.toWord_bit_zero, hbusy]
  · simp [hbusy]

/-! ## Pseudo-operations -/

/-- What happens is no register: a write sets the same with any events pending. -/
theorem writeReg_pending (r : Reg) (v : Word) (s : State) (events : List Event) :
    writeReg r v { s with pending := events } = { writeReg r v s with pending := events } := by
  cases r with
  | cmd => simp only [writeReg, writeCmd]; cases s.phase <;> rfl
  | _ => rfl

theorem step_scriptWrite {s : State} {r : Reg} {v : Word} {rest : List Event} (h : s.pending = scriptWrite r v :: rest) :
    step s = .next { writeReg r v s with pending := rest } := by
  rw [step_mmioWrite h (by cases r <;> decide) (by cases r <;> decide), mmioWrite_regOffset, writeReg_pending]

/-- Registers written in order. -/
def writeRegs (ws : List (Reg × Word)) (s : State) : State := ws.foldl (fun s w => writeReg w.1 w.2 s) s

theorem writeRegs_pending (ws : List (Reg × Word)) (events : List Event) : ∀ s : State,
    writeRegs ws { s with pending := events } = { writeRegs ws s with pending := events } := by
  induction ws with
  | nil => exact fun _ => rfl
  | cons w ws ih =>
    intro s
    simp only [writeRegs, List.foldl_cons, writeReg_pending]
    exact ih _

theorem run_step {s t : State} (h : step s = .next t) (k : Nat) : core.run (k + 1) s = core.run k t := by
  simp only [Host.Core.run, core, h]

theorem run_scriptWrites : ∀ (ws : List (Reg × Word)) (s : State) (rest : List Event),
    s.pending = ws.map (fun w => scriptWrite w.1 w.2) ++ rest →
    core.run ws.length s = .next { writeRegs ws s with pending := rest }
  | [], s, rest, h => by
    simp only [List.map_nil, List.nil_append] at h
    subst h
    rfl
  | w :: ws, s, rest, h => by
    rw [List.map_cons, List.cons_append] at h
    rw [List.length_cons, run_step (step_scriptWrite h), run_scriptWrites ws _ rest rfl, writeRegs_pending]
    rfl

/-- Settles O53: the writes of each script are steps with the effect R180 gives them. -/
theorem pseudoOperationsExpand : Obligations.PseudoOperationsExpand := by
  refine ⟨fun s op p rest hidle h => ?_, fun s rest h => ?_, fun s w rest h => ?_⟩
  · refine ⟨_, run_scriptWrites [(.srcAddr, p.srcAddr), (.srcLen, p.srcLen), (.dstAddr, p.dstAddr), (.dstCap, p.dstCap),
      (.metaAddr, p.metaAddr), (.metaCap, p.metaCap), (.cmd, op)] s (.waitIdle :: rest) h, ?_⟩
    simp [writeRegs, writeReg, writeCmd, hidle]
  · rw [step_scriptWrite h]
    simp [writeReg, Status.clear, ackWord]
  · exact ⟨_, step_scriptWrite h, rfl, rfl⟩

end Sys2Proof.Machine

/-!
PROOF. The code tree (40_huffman.md R110 to R114): the counts, the order of the extractions, the shape of the tree,
and its codes. What the merges keep is the invariant `Forest` of the laws; for k ≥ 2 the tree it ends with has an
internal node as its root, and the rest is read off that node.
-/

namespace Sys2Proof.Machine

/-! ## The frequency table (R110) -/

/-- The byte values in ascending order, the index of the frequency table. -/
def byteValues : List Byte := (List.range 256).map (BitVec.ofNat 8)

theorem byteValues_nodup : byteValues.Nodup := by
  refine List.Nodup.map_on (fun i hi j hj h => ?_) List.nodup_range
  have hmod := congrArg BitVec.toNat h
  simp only [List.mem_range] at hi hj
  simp only [BitVec.toNat_ofNat] at hmod
  omega

theorem mem_byteValues (b : Byte) : b ∈ byteValues :=
  List.mem_map.mpr ⟨b.toNat, List.mem_range.mpr b.isLt, by simp⟩

theorem freq_eq_counts (d : List Byte) : freq d = byteValues.map d.count := by
  rw [byteValues, List.map_map]; rfl

theorem freq_getElem? (d : List Byte) (b : Byte) : (freq d)[b.toNat]? = some (d.count b) := by
  have hb : b.toNat < 256 := b.isLt
  simp [freq, hb]

theorem freq_getD (d : List Byte) (b : Byte) : (freq d).getD b.toNat 0 = d.count b := by
  rw [List.getD_eq_getElem?_getD, freq_getElem?]; rfl

/-- Every byte is counted once (the check of R118). -/
theorem freq_sum (d : List Byte) : (freq d).sum = d.length := by
  rw [freq_eq_counts, ← List.sum_toFinset _ byteValues_nodup]
  simpa only [Multiset.coe_count, Multiset.coe_card] using
    Multiset.sum_count_eq_card (m := (d : Multiset Byte)) fun b _ => List.mem_toFinset.mpr (mem_byteValues b)

/-- Settles O34: the table is the count of each byte value, and those are all the values there are. -/
theorem frequencyTableCounts : Obligations.FrequencyTableCounts := fun d =>
  ⟨freq_length d, freq_getElem? d, freq_sum d⟩

/-! ## The order of the extractions (R112) -/

/-- (weight, index) of `i` is at most that of `j`. -/
def Precedes (nodes : List Node) (i j : Nat) : Prop :=
  weightAt nodes i < weightAt nodes j ∨ (weightAt nodes i = weightAt nodes j ∧ i ≤ j)

theorem Precedes.refl (nodes : List Node) (i : Nat) : Precedes nodes i i := .inr ⟨rfl, Nat.le_refl i⟩

theorem Precedes.trans {nodes : List Node} {i j k : Nat} (h : Precedes nodes i j) (h' : Precedes nodes j k) :
    Precedes nodes i k := by
  unfold Precedes at *
  omega

/-- Of two nodes the one that is kept comes first. -/
theorem precedes_of_lighter (nodes : List Node) (i best : Nat) :
    Precedes nodes (if lighter nodes i best then i else best) i ∧
      Precedes nodes (if lighter nodes i best then i else best) best := by
  have hlight : lighter nodes i best = true ↔
      weightAt nodes i < weightAt nodes best ∨ (weightAt nodes i = weightAt nodes best ∧ i < best) := by
    simp [lighter]
  unfold Precedes
  split_ifs with h
  · rw [hlight] at h; omega
  · rw [hlight] at h; omega

theorem lightest_mem_pool (nodes : List Node) (i : Nat) (rest : List Nat) : lightest nodes i rest ∈ i :: rest :=
  List.mem_cons.mpr (lightest_mem nodes rest i)

theorem lightest_precedes (nodes : List Node) (best : Nat) (pool : List Nat) :
    ∀ j ∈ best :: pool, Precedes nodes (lightest nodes best pool) j := by
  induction pool generalizing best with
  | nil => simpa [lightest] using Precedes.refl nodes best
  | cons i rest ih =>
    obtain ⟨hi, hbest⟩ := precedes_of_lighter nodes i best
    obtain ⟨hkept, hrest⟩ := List.forall_mem_cons.mp (ih (if lighter nodes i best then i else best))
    exact List.forall_mem_cons.mpr ⟨hkept.trans hbest, List.forall_mem_cons.mpr ⟨hkept.trans hi, hrest⟩⟩

/-- A merge extracts the first node of the pool and then the first of the others, and inserts their parent. -/
theorem mergeAll_merges (fuel : Nat) (nodes : List Node) {pool : List Nat} (h : 2 ≤ pool.length) :
    ∃ a c left, pool.Perm (a :: c :: left) ∧ (∀ j ∈ pool, Precedes nodes a j) ∧
      (∀ j ∈ c :: left, Precedes nodes c j) ∧
      mergeAll (fuel + 1) nodes pool =
        mergeAll fuel (nodes ++ [.node a c (weightAt nodes a + weightAt nodes c)]) (left ++ [nodes.length]) := by
  match pool with
  | [] | [_] => simp at h
  | i :: j :: rest =>
    have hfirst := List.perm_cons_erase (lightest_mem_pool nodes i (j :: rest))
    cases hothers : (i :: j :: rest).erase (lightest nodes i (j :: rest)) with
    | nil => rw [hothers] at hfirst; simpa using hfirst.length_eq
    | cons i' rest' =>
      rw [hothers] at hfirst
      have hsecond := List.perm_cons_erase (lightest_mem_pool nodes i' rest')
      exact ⟨_, _, _, hfirst.trans (hsecond.cons _), lightest_precedes nodes i (j :: rest),
        fun k hk => lightest_precedes nodes i' rest' k (hsecond.mem_iff.mpr hk), by simp only [mergeAll, hothers]⟩

theorem mergeAll_one (fuel : Nat) (nodes : List Node) (root : Nat) : mergeAll fuel nodes [root] = (nodes, [root]) := by
  cases fuel <;> rfl

/-- The leaves are the byte values present in ascending order, with their counts. -/
theorem leaves_eq_filter (f : List Nat) (b : Nat) : leaves b f =
    ((List.range f.length).filter fun i => decide (0 < f.getD i 0)).map fun i =>
      Node.leaf (BitVec.ofNat 8 (b + i)) (f.getD i 0) := by
  induction f generalizing b with
  | nil => rfl
  | cons w f ih =>
    rw [leaves, ih, List.length_cons, List.range_succ_eq_map, List.filter_cons, List.filter_map]
    by_cases hpresent : 0 < w
    · simp [hpresent, Function.comp_def, Nat.add_assoc, Nat.add_comm 1]
    · simp [hpresent, Function.comp_def, Nat.add_assoc, Nat.add_comm 1]

/-- Settles O35: two extractions make a merge, and the merges of the leaves make the tree. -/
theorem extractionTakesLeast : Obligations.ExtractionTakesLeast := by
  refine ⟨fun nodes i rest => ⟨lightest_mem_pool nodes i rest, lightest_precedes nodes i rest⟩,
    fun fuel nodes _ h => mergeAll_merges fuel nodes h, mergeAll_one, fun f => ?_, fun f => ?_⟩
  · simp only [buildTree, leaves_length, and_self]
  · simpa using leaves_eq_filter f 0

/-! ## The shape of the tree (R112) -/

theorem buildTree_length {f : List Nat} (hk : 1 ≤ distinct f) : (buildTree f).nodes.length = 2 * distinct f - 1 :=
  (buildTree_forest hk).2.2

/-- The root is the last node of the arena. -/
theorem buildTree_root {f : List Nat} (hk : 1 ≤ distinct f) : (buildTree f).root = some (2 * distinct f - 2) := by
  rw [(buildTree_forest hk).2.1, buildTree_length hk]; rfl

theorem buildTree_start {f : List Nat} (hk : 1 ≤ distinct f) : (buildTree f).start = 2 * distinct f - 2 := by
  rw [Tree.start, buildTree_root hk]; rfl

/-- The merges end with the one tree of the root. -/
theorem buildTree_forest_root {f : List Nat} (hk : 1 ≤ distinct f) :
    Forest (present f) f.sum (buildTree f).nodes [2 * distinct f - 2] := by
  have h := (buildTree_forest hk).1
  rwa [buildTree_length hk] at h

/-- Settles O36: the merges keep the sum of the weights and end with one tree. -/
theorem treeShape : Obligations.TreeShape := fun f _ hk =>
  ⟨buildTree_k f, buildTree_length hk, buildTree_root hk, by simpa using (buildTree_forest_root hk).weight⟩

/-! ## Codes and walks (R113, R114) -/

/-- The code table holds the codes below the root. -/
theorem codeTable_eq_codesAt {f : List Nat} (hk : 1 ≤ distinct f) :
    codeTable (buildTree f) = codesAt (buildTree f).nodes (2 * distinct f - 2) := by
  rw [codeTable, codesAt, buildTree_start hk, buildTree_length hk,
    show 2 * distinct f - 1 = 2 * distinct f - 2 + 1 by omega]

/-- The byte values with a code are the byte values present, each once. -/
theorem codeTable_syms {f : List Nat} (hk : 1 ≤ distinct f) :
    ((codeTable (buildTree f)).map Prod.fst).Perm (present f) := by
  rw [codeTable_eq_codesAt hk]
  simpa [symsAt] using (buildTree_forest_root hk).values

theorem codeTable_length {f : List Nat} (hk : 1 ≤ distinct f) : (codeTable (buildTree f)).length = distinct f := by
  simpa [present_length hk] using (codeTable_syms hk).length_eq

theorem mem_codeTable_present {f : List Nat} (hf : f.length = 256) (hk : 1 ≤ distinct f) (b : Byte) :
    (∃ code, (b, code) ∈ codeTable (buildTree f)) ↔ 0 < f.getD b.toNat 0 := by
  rw [← mem_present hf b, ← (codeTable_syms hk).mem_iff]
  simp

theorem codeTable_unique {f : List Nat} (hf : f.length = 256) (hk : 1 ≤ distinct f) {b : Byte} {c c' : List Bool}
    (h : (b, c) ∈ codeTable (buildTree f)) (h' : (b, c') ∈ codeTable (buildTree f)) : c = c' := by
  have hnodup := (codeTable_syms hk).nodup_iff.mpr (leaves_syms_nodup f 0 (by omega))
  exact congrArg Prod.snd (List.inj_on_of_nodup_map hnodup h h' rfl)

/-- A node with two codes or more below it is internal. -/
theorem internal_of_codesAt {nodes : List Node} {n : Nat} (h : 2 ≤ (codesAt nodes n).length) :
    ∃ left right w, nodes[n]? = some (.node left right w) := by
  cases hnode : nodes[n]? with
  | none => simp [codesAt_none hnode] at h
  | some node =>
    cases node with
    | leaf sym w => simp [codesAt_leaf hnode] at h
    | node left right w => exact ⟨left, right, w, rfl⟩

theorem buildTree_root_internal {f : List Nat} (hk : 2 ≤ distinct f) :
    ∃ left right w, (buildTree f).nodes[2 * distinct f - 2]? = some (.node left right w) :=
  internal_of_codesAt (by rw [← codeTable_eq_codesAt (by omega), codeTable_length (by omega)]; exact hk)

/-- A code has a bit for the edge from the root, and fewer bits than the tree has leaves. -/
theorem codeTable_code_length {f : List Nat} (hk : 2 ≤ distinct f) {b : Byte} {c : List Bool}
    (h : (b, c) ∈ codeTable (buildTree f)) : 1 ≤ c.length ∧ c.length ≤ distinct f - 1 := by
  have hforest := buildTree_forest_root (f := f) (by omega)
  obtain ⟨left, right, w, hroot⟩ := buildTree_root_internal hk
  have hlength := codeTable_length (f := f) (by omega)
  rw [codeTable_eq_codesAt (by omega)] at h hlength
  have hdepth := hforest.depth _ (by simp) _ h
  simp only at hdepth
  refine ⟨?_, by omega⟩
  obtain ⟨rest, ⟨rfl, -⟩ | ⟨rfl, -⟩⟩ := (mem_codesAt_node hforest.arena hroot b c).mp h <;> simp

/-- Settles O37: the codes are those of one tree whose leaves are the byte values present, each once. -/
theorem codesArePrefixFree : Obligations.CodesArePrefixFree := by
  intro f hf hk
  have hpos : 1 ≤ distinct f := by omega
  have hforest := buildTree_forest_root hpos
  refine ⟨fun b c h => codeTable_code_length hk h, fun b c b' c' h h' hprefix => ?_, fun b hb => ?_, fun b c h => ?_,
    hforest.arena⟩
  · rw [codeTable_eq_codesAt hpos] at h h'
    exact codesAt_prefixFree hforest.arena _ b b' c c' h h' hprefix
  · obtain ⟨c, hc⟩ := (mem_codeTable_present hf hpos b).mpr hb
    exact ⟨c, hc, fun c' hc' => codeTable_unique hf hpos hc' hc⟩
  · exact (mem_codeTable_present hf hpos b).mp ⟨c, h⟩

/-- For k ≥ 2 the walk of a code from the root selects the byte the code table gives it. -/
theorem mem_codeTable_iff_codeSym {f : List Nat} (hk : 2 ≤ distinct f) (b : Byte) (c : List Bool) :
    (b, c) ∈ codeTable (buildTree f) ↔ codeSym (buildTree f).nodes (buildTree f).start c = some b := by
  obtain ⟨left, right, w, hroot⟩ := buildTree_root_internal hk
  rw [codeTable_eq_codesAt (by omega), buildTree_start (by omega)]
  exact (codeSym_iff (buildTree_forest_root (by omega)).arena _ left right w b c hroot).symm

/-- Settles O38: the edges by the node's own fields, the codes by the codes below the root. -/
theorem codeTableAgreesWithWalk : Obligations.CodeTableAgreesWithWalk := by
  refine ⟨fun nodes n left right w h => ?_, fun nodes n sym w bit h => ?_,
    fun f b c _ hk => mem_codeTable_iff_codeSym hk b c⟩
  · simp [treeChild, h]
  · simp [treeChild, leafSym, h]

end Sys2Proof.Machine

/-!
PROOF. The payload (40_huffman.md R115, R116, R119, R120): where a packed bit stands, and that `huf_decompress` undoes
`huf_compress`. The round trip turns on the codes of the tree: each is walked whole from the root, so the walk of the
codes of a list of bytes emits those bytes.
-/

namespace Sys2Proof.Machine

/-! ## Packing (R115) -/

theorem byteBits_getElem? (b : Byte) {t : Nat} (h : t < 8) : (byteBits b)[t]? = some (b.getLsbD (7 - t)) := by
  simp [byteBits, h]

@[simp] theorem byteBits_length (b : Byte) : (byteBits b).length = 8 := by simp [byteBits]

/-- Bit i of a payload is bit 7 − (i mod 8) of byte ⌊i/8⌋ (30_encoding.md R88). -/
theorem flatMap_byteBits_getElem? (payload : List Byte) (i : Nat) :
    (payload.flatMap byteBits)[i]? = (payload[i / 8]?).map fun b => b.getLsbD (7 - i % 8) := by
  induction payload generalizing i with
  | nil => rfl
  | cons b payload ih =>
    rw [List.flatMap_cons]
    by_cases hi : i < 8
    · rw [List.getElem?_append_left (by simpa using hi), byteBits_getElem? b hi, Nat.div_eq_of_lt hi,
        Nat.mod_eq_of_lt hi]
      rfl
    · obtain ⟨j, rfl⟩ := Nat.exists_eq_add_of_le' (Nat.le_of_not_lt hi)
      rw [List.getElem?_append_right (by simp), byteBits_length, Nat.add_sub_cancel, ih, Nat.add_mod_right,
        Nat.add_div_right j (by omega), List.getElem?_cons_succ]

theorem flatMap_byteBits_length (payload : List Byte) : (payload.flatMap byteBits).length = 8 * payload.length := by
  simp [List.length_flatMap, Nat.mul_comm]

theorem payloadBits_length (payload : List Byte) (pad : Nat) :
    (payloadBits payload pad).length = 8 * payload.length - pad := by
  rw [payloadBits, List.length_take, flatMap_byteBits_length]
  omega

theorem payloadBits_getElem? (payload : List Byte) {pad i : Nat} (h : i < 8 * payload.length - pad) :
    (payloadBits payload pad)[i]? = (payload[i / 8]?).map fun b => b.getLsbD (7 - i % 8) := by
  rw [payloadBits, List.getElem?_take_of_lt h, flatMap_byteBits_getElem?]

theorem packedByte_getLsbD (bits : List Bool) (j : Nat) {t : Nat} (h : t < 8) :
    (packedByte bits j).getLsbD (7 - t) = bits.getD (8 * j + t) false := by
  have hbits := byteBits_getElem? (packedByte bits j) h
  rw [packedByte, byteBits_sum fun t => bits.getD (8 * j + t) false] at hbits
  simpa [h, packedByte] using hbits.symm

theorem pack_length (bits : List Bool) : (pack bits).1.length = (bits.length + 7) / 8 := by simp [pack]

/-- Whole bytes hold the bits and the padding, which is shorter than a byte. -/
theorem pack_pad (bits : List Bool) :
    (pack bits).2 ≤ 7 ∧ 8 * (pack bits).1.length = bits.length + (pack bits).2 := by
  rw [pack_length, pack]
  omega

/-- Every bit of a packed payload is the bit packed there, and 0 past the end. -/
theorem pack_bit (bits : List Bool) {i : Nat} (h : i < 8 * (pack bits).1.length) :
    ((pack bits).1[i / 8]?).map (fun b => b.getLsbD (7 - i % 8)) = some (bits.getD i false) := by
  rw [pack_length] at h
  have hbyte : (pack bits).1[i / 8]? = some (packedByte bits (i / 8)) := by
    simp [pack, show i / 8 < (bits.length + 7) / 8 by omega]
  rw [hbyte, Option.map_some, packedByte_getLsbD bits _ (Nat.mod_lt i (by omega)), Nat.div_add_mod]

theorem pack_bit_inside (bits : List Bool) {i : Nat} (h : i < bits.length) :
    ((pack bits).1[i / 8]?).map (fun b => b.getLsbD (7 - i % 8)) = bits[i]? := by
  obtain ⟨-, hlength⟩ := pack_pad bits
  rw [pack_bit bits (by omega), List.getD_eq_getElem?_getD, List.getElem?_eq_getElem h, Option.getD_some]

theorem pack_bit_padding (bits : List Bool) {i : Nat} (h : bits.length ≤ i) (hi : i < 8 * (pack bits).1.length) :
    ((pack bits).1[i / 8]?).map (fun b => b.getLsbD (7 - i % 8)) = some false := by
  rw [pack_bit bits hi, List.getD_eq_getElem?_getD, List.getElem?_eq_none h, Option.getD_none]

theorem payloadBits_pack (bits : List Bool) : payloadBits (pack bits).1 (pack bits).2 = bits := by
  obtain ⟨-, hlength⟩ := pack_pad bits
  have hbits := payloadBits_length (pack bits).1 (pack bits).2
  apply List.ext_getElem?
  intro i
  by_cases hi : i < bits.length
  · rw [payloadBits_getElem? _ (by omega), pack_bit_inside bits hi]
  · rw [List.getElem?_eq_none (by omega), List.getElem?_eq_none (by omega)]

/-- Settles O39: a packed bit stands where unpacking reads it. -/
theorem packThenUnpack : Obligations.PackThenUnpack :=
  ⟨fun bits => ⟨(pack_pad bits).1, (pack_pad bits).2, fun _ hi => pack_bit_inside bits hi,
      fun _ => pack_bit_padding bits, payloadBits_pack bits⟩,
    fun payload pad => ⟨payloadBits_length payload pad, fun _ hi => payloadBits_getElem? payload hi⟩⟩

/-! ## The three paths of huf_decompress (R120) -/

/-- The first node of an arena has no children, so a byte value below it is its own. -/
theorem leafSym_of_mem_symsAt_zero {nodes : List Node} (ho : ArenaOk nodes) {b : Byte} (h : b ∈ symsAt nodes 0) :
    leafSym nodes 0 = some b := by
  unfold symsAt at h
  cases hnode : nodes[0]? with
  | none => simp [codesAt_none hnode] at h
  | some node =>
    cases node with
    | leaf sym w =>
      obtain rfl : b = sym := by simpa [codesAt_leaf hnode] using h
      simp [leafSym, hnode]
    | node left right w => exact absurd (ho 0 left right w hnode).1 (Nat.not_lt_zero _)

/-- The tree of one byte value is the leaf of that value. -/
theorem leafSym_buildTree_present {f : List Nat} (hf : f.length = 256) (hk : distinct f = 1) {b : Byte}
    (hb : 0 < f.getD b.toNat 0) : leafSym (buildTree f).nodes 0 = some b := by
  have hforest := buildTree_forest_root (f := f) (by omega)
  have hvalues := hforest.values
  rw [hk] at hvalues
  refine leafSym_of_mem_symsAt_zero hforest.arena ?_
  simpa using hvalues.mem_iff.mpr ((mem_present hf b).mpr hb)

theorem hufDecompress_none {f : List Nat} (hk : distinct f = 0) (origLen pad : Nat) (payload : List Byte) :
    hufDecompress origLen pad f payload = some [] := by
  rw [hufDecompress, hufDecode, buildTree_k, if_pos hk]

theorem hufDecompress_one {f : List Nat} (hf : f.length = 256) (hk : distinct f = 1) {b : Byte}
    (hb : 0 < f.getD b.toNat 0) (origLen pad : Nat) (payload : List Byte) :
    hufDecompress origLen pad f payload = some (List.replicate origLen b) := by
  rw [hufDecompress, hufDecode, buildTree_k, if_neg (by omega), if_pos hk, leafSym_buildTree_present hf hk hb,
    Option.map_some]

/-- Settles O41: the path is chosen by the number of byte values present. -/
theorem hufDecompressPaths : Obligations.HufDecompressPaths := fun f origLen pad payload hf =>
  ⟨fun hk => hufDecompress_none hk origLen pad payload, fun _ hk hb => hufDecompress_one hf hk hb origLen pad payload,
    fun hk => by rw [hufDecompress_walked hk, buildTree_start (by omega)]⟩

/-! ## The round trip (R111, R116) -/

/-- The byte values present in the frequency table are those of the data. -/
theorem freq_pos_iff {d : List Byte} {b : Byte} : 0 < (freq d).getD b.toNat 0 ↔ b ∈ d := by
  rw [freq_getD, List.count_pos_iff]

/-- The walk of the code of a byte of the data selects that byte. -/
theorem codeSym_codeOf {d : List Byte} (hk : 2 ≤ distinct (freq d)) {b : Byte} (h : b ∈ d) :
    codeSym (buildTree (freq d)).nodes (buildTree (freq d)).start (codeOf (codeTable (buildTree (freq d))) b) =
      some b :=
  (mem_codeTable_iff_codeSym hk b _).mp <|
    codeOf_mem b _ ((mem_codeTable_present (freq_length d) (by omega) b).mpr (freq_pos_iff.mpr h))

/-- The walk of the codes of a list of bytes emits those bytes and ends at the root, if ORIG_LEN is their number. -/
theorem hufWalk_flatMap {nodes : List Node} {root origLen : Nat} {code : Byte → List Bool} (d : List Byte) :
    ∀ out : List Byte, (∀ b ∈ d, codeSym nodes root (code b) = some b) → out.length + d.length = origLen →
      hufWalk nodes root origLen root out (d.flatMap code) = some (out ++ d) := by
  induction d with
  | nil => intro out _ hlength; simpa [hufWalk] using hlength
  | cons b d ih =>
    intro out hcode hlength
    obtain ⟨hb, hd⟩ := List.forall_mem_cons.mp hcode
    rw [List.length_cons] at hlength
    rw [List.flatMap_cons, hufWalk_code out _ b (by omega) _ _ hb, ih (out ++ [b]) hd (by simp; omega)]
    simp

theorem hufCompress_unwalked {d : List Byte} (hk : distinct (freq d) ≤ 1) : hufCompress d = ⟨[], 0, freq d⟩ := by
  rw [hufCompress, hufEncode, buildTree_k, if_pos hk]

theorem hufCompress_walked {d : List Byte} (hk : 2 ≤ distinct (freq d)) :
    ((hufCompress d).payload, (hufCompress d).pad) =
      pack (d.flatMap (codeOf (codeTable (buildTree (freq d))))) := by
  rw [hufCompress, hufEncode, buildTree_k, if_neg (by omega)]

/-- No byte value: no data. -/
theorem eq_nil_of_distinct_freq {d : List Byte} (hk : distinct (freq d) = 0) : d = [] :=
  List.eq_nil_of_length_eq_zero ((freq_sum d).symm.trans (sum_eq_zero_of_distinct hk))

/-- One byte value: copies of it. -/
theorem eq_replicate_of_distinct_freq {d : List Byte} (hk : distinct (freq d) = 1) {b : Byte} (hb : b ∈ d) :
    d = List.replicate d.length b := by
  refine List.eq_replicate_of_mem fun b' hb' => ?_
  have hleaf := leafSym_buildTree_present (freq_length d) hk (freq_pos_iff.mpr hb)
  rw [leafSym_buildTree_present (freq_length d) hk (freq_pos_iff.mpr hb')] at hleaf
  exact Option.some.inj hleaf

/-- `huf_decompress` of what `huf_compress` makes is the data, on each of the three paths. -/
theorem hufDecompress_hufCompress (d : List Byte) :
    hufDecompress d.length (hufCompress d).pad (hufCompress d).freq (hufCompress d).payload = some d := by
  rw [hufCompress_freq]
  rcases Nat.lt_or_ge (distinct (freq d)) 2 with hk | hk
  · rcases Nat.le_one_iff_eq_zero_or_eq_one.mp (Nat.le_of_lt_succ hk) with h0 | h1
    · rw [hufDecompress_none h0, eq_nil_of_distinct_freq h0]
    · obtain ⟨b, hb⟩ := List.exists_mem_of_length_pos (l := present (freq d)) (by rw [present_length] <;> omega)
      have hpresent := (mem_present (freq_length d) b).mp hb
      rw [hufDecompress_one (freq_length d) h1 hpresent,
        ← eq_replicate_of_distinct_freq h1 (freq_pos_iff.mp hpresent)]
  · obtain ⟨hpayload, hpad⟩ : (hufCompress d).payload = _ ∧ (hufCompress d).pad = _ :=
      Prod.ext_iff.mp (hufCompress_walked hk)
    rw [hufDecompress_walked hk, hpayload, hpad, payloadBits_pack]
    exact hufWalk_flatMap d [] (fun _ hb => codeSym_codeOf hk hb) (Nat.zero_add _)

/-- Settles O40: the encoder's results by the number of byte values present, and the round trip on each path. -/
theorem huffmanRoundTrip : Obligations.HuffmanRoundTrip := fun d =>
  ⟨hufCompress_freq d, fun hk => by rw [hufCompress_unwalked hk]; exact ⟨rfl, rfl⟩, hufCompress_walked,
    hufDecompress_hufCompress d⟩

end Sys2Proof.Machine

/-!
PROOF. The Huffman commands and their element (40_huffman.md R117, R119, R121): what a compress and a decompress past
the region check leave is said once for the three algorithms, and the record that is read whole has the fields the checks
of R118 read.
-/

namespace Sys2Proof.Machine

/-! ## The ends of a command past the region check -/

section Ends

variable {s : State} {p : Params} (hr : regionOk s.memOk p = true)

include hr

/-- A payload and a record that fit their regions are stored apart, and nothing else is. -/
theorem compressEnd_completedOk {payload rec : List Byte} (hmeta : rec.length ≤ p.metaCap.toNat)
    (hdst : payload.length ≤ p.dstCap.toNat) :
    CompletedOk s (compressEnd rec.length payload rec s p) payload.length rec.length
      [(p.dstAddr.toNat, payload), (p.metaAddr.toNat, rec)] := by
  obtain ⟨-, hdstFits, hmetaFits, -, -, hapart⟩ := regionOk_places hr
  have hapart := Span.apart hapart
  simp only [Params.dstRegion, Params.metaRegion] at hdstFits hmetaFits hapart
  have hdstCap := p.dstCap.isLt
  have hmetaCap := p.metaCap.isLt
  have hdstAddr : p.dstAddr.toNat < Config.memorySize := p.dstAddr.isLt
  have hmetaAddr : p.metaAddr.toNat < Config.memorySize := p.metaAddr.isLt
  rw [compressEnd, if_neg (by omega), if_neg (by omega)]
  apply completeOk_two <;> omega

/-- The three ends of a compress: no room for the record, none for the payload, or both stored (40_huffman.md R117,
41_lz77.md R145, 42_rle.md R163). -/
theorem compressEnd_result (payload rec : List Byte) {size : Nat} (hsize : rec.length = size) :
    (p.metaCap.toNat < size → CompletedErr s (compressEnd size payload rec s p) 4#4 []) ∧
    (size ≤ p.metaCap.toNat → p.dstCap.toNat < payload.length →
      CompletedErr s (compressEnd size payload rec s p) 4#4 [p.dstRegion, ⟨p.metaAddr.toNat, size⟩]) ∧
    (size ≤ p.metaCap.toNat → payload.length ≤ p.dstCap.toNat →
      CompletedOk s (compressEnd size payload rec s p) payload.length size
        [(p.dstAddr.toNat, payload), (p.metaAddr.toNat, rec)]) := by
  subst hsize
  refine ⟨fun hmeta => ?_, fun hmeta hdst => ?_, compressEnd_completedOk hr⟩
  · rw [compressEnd, if_pos hmeta]
    exact raise_completedErr s .overflow _
  · rw [compressEnd, if_neg (Nat.not_lt.mpr hmeta), if_pos hdst]
    exact raise_completedErr s .overflow _

/-- A decompress that has its output, of ORIG_LEN bytes, stores it at DST and nothing else. -/
theorem deliver_completedOk {n : Nat} (hn : n ≤ p.dstCap.toNat) {out : List Byte} (hlength : out.length = n) :
    CompletedOk s (deliver n (some out) s p) n 0 [(p.dstAddr.toNat, out)] := by
  obtain ⟨-, hfits, -, -, -, -⟩ := regionOk_places hr
  simp only [Params.dstRegion] at hfits
  have hdstCap := p.dstCap.isLt
  have hdstAddr : p.dstAddr.toNat < Config.memorySize := p.dstAddr.isLt
  rw [deliver_eq]
  apply completeOk_one <;> omega

end Ends

/-- A decompress whose payload does not decode is CORRUPT_PAYLOAD. -/
theorem deliver_completedErr (s : State) (p : Params) (n : Nat) :
    CompletedErr s (deliver n none s p) 3#4 [⟨p.dstAddr.toNat, n⟩] :=
  raise_completedErr s .corruptPayload _

/-! ## HUF_COMPRESS (R117) -/

theorem exec_hufCompress {s : State} {l : Latched} (hl : s.latched = some l) (hr : regionOk s.memOk l.snap = true) :
    exec .hufCompress s = .next (compressEnd 1032 (hufCompress (srcData l.snap s.mem)).payload
      (hufRecord l.snap.srcLen.toNat (hufCompress (srcData l.snap s.mem))) s l.snap) := by
  rw [exec, execHufCompress, runCommand_latched hl, if_pos hr, hufCompress_body]

/-- Settles O21: past the region check the engine makes the payload and the record of `huf_compress`. -/
theorem hufCompressResult : Obligations.HufCompressResult := by
  refine ⟨rfl, fun s l hl hr => ?_⟩
  obtain ⟨hmeta, hdst, hok⟩ := compressEnd_result hr (hufCompress (srcData l.snap s.mem)).payload _
    (hufRecord_length l.snap.srcLen.toNat (e := hufCompress (srcData l.snap s.mem)) (by simp))
  have hexec := exec_hufCompress hl hr
  exact ⟨fun h => ⟨_, hexec, hmeta h⟩, fun h h' => ⟨_, hexec, hdst h h'⟩, fun h h' => ⟨_, hexec, hok h h'⟩⟩

/-! ## HUF_DECOMPRESS (R118, R121) -/

/-- A field of the record in memory is that of the record read whole (30_encoding.md R85, R87). -/
theorem metaField_eq_recordField (p : Params) (m : Memory) {offset : Nat} (h : offset + 4 ≤ 1032) :
    metaField p m offset = recordField (memRead m p.metaAddr.toNat 1032) offset := by
  rw [recordField, memRead_slice m _ _ _ _ h, metaField]

theorem metaOrigLen_eq_recordField (p : Params) (m : Memory) :
    metaOrigLen p m = recordField (memRead m p.metaAddr.toNat 1032) 0 := metaField_eq_recordField p m (by omega)

theorem metaPadding_eq_recordField (p : Params) (m : Memory) :
    metaPadding p m = recordField (memRead m p.metaAddr.toNat 1032) 4 := metaField_eq_recordField p m (by omega)

theorem metaFreq_eq_recordFreq (p : Params) (m : Memory) :
    metaFreq p m = recordFreq (memRead m p.metaAddr.toNat 1032) :=
  List.map_congr_left fun b hb => metaField_eq_recordField p m (by rw [List.mem_range] at hb; omega)

/-- The four checks of R118. -/
theorem hufMetaOk_iff (p : Params) (m : Memory) :
    hufMetaOk p m = true ↔ 1032 ≤ p.metaCap.toNat ∧ metaPadding p m ≤ 7 ∧ (metaFreq p m).sum = metaOrigLen p m ∧
      ¬ (2 ≤ distinct (metaFreq p m) ∧ 8 * p.srcLen.toNat < metaPadding p m) := by
  simp only [hufMetaOk, Bool.and_eq_true, Bool.not_eq_true', Bool.and_eq_false_iff, decide_eq_true_eq,
    decide_eq_false_iff_not, and_assoc, not_and_or]
  rfl

theorem exec_hufDecompress {s : State} {l : Latched} (hl : s.latched = some l) (hr : regionOk s.memOk l.snap = true) :
    exec .hufDecompress s = .next
      (if hufMetaOk l.snap s.mem then
        if l.snap.dstCap.toNat < metaOrigLen l.snap s.mem then s.raise .overflow []
        else deliver (metaOrigLen l.snap s.mem) (hufDecompress (metaOrigLen l.snap s.mem) (metaPadding l.snap s.mem)
          (metaFreq l.snap s.mem) (srcData l.snap s.mem)) s l.snap
      else s.raise .malformedMetadata []) := by
  rw [exec, execHufDecompress, runCommand_latched hl, if_pos hr, decompressBody_eq, hufDecode_built]

/-- Settles O22: the checks in their order, then the end of a decompress, whose output has the length the counts sum
to. -/
theorem hufDecompressResult : Obligations.HufDecompressResult := by
  refine ⟨rfl, fun s l hl hr => ?_⟩
  have hexec := exec_hufDecompress hl hr
  have hvalid := hufMetaOk_iff l.snap s.mem
  rw [metaOrigLen_eq_recordField, metaPadding_eq_recordField, metaFreq_eq_recordFreq] at hexec hvalid
  refine ⟨fun h => ?_, fun h hcap => ?_, fun h hcap hnone => ?_, fun out h hcap hsome => ?_⟩
  · rw [if_neg (hvalid.not.mpr h)] at hexec
    exact ⟨_, hexec, raise_completedErr s .malformedMetadata []⟩
  · rw [if_pos (hvalid.mpr h), if_pos hcap] at hexec
    exact ⟨_, hexec, raise_completedErr s .overflow []⟩
  · rw [if_pos (hvalid.mpr h), if_neg (Nat.not_lt.mpr hcap), srcData, hnone] at hexec
    exact ⟨_, hexec, deliver_completedErr s l.snap _⟩
  · have hmetaOk := hvalid.mpr h
    obtain ⟨-, -, hsum, -⟩ := h
    have hlength := hufDecompress_length hsum hsome
    rw [if_pos hmetaOk, if_neg (Nat.not_lt.mpr hcap), srcData, hsome] at hexec
    exact ⟨_, hexec, hlength, deliver_completedOk hr hcap hlength⟩

/-! ## HUF.SYM (R119) -/

theorem exec_hufSym {s : State} {l : Latched} {x : Expansion} (hl : s.latched = some l) (hx : s.expansion = some x)
    {code : List Bool} {b : Byte} (hb : codeSym s.tables.tree.nodes s.tables.tree.start code = some b)
    (hroom : x.out.length ≠ x.origLen) : exec (.hufSym code) s = .next (s.advance x (x.out ++ [b])) := by
  rw [exec_hufSym_runs, runElement_running hl hx, hb, Option.bind_some, hufEmit, if_neg hroom]

/-- Settles O27: the code's byte where there is room for it, no output otherwise. -/
theorem hufSymResult : Obligations.HufSymResult := by
  intro s l x code hl hx
  refine ⟨fun b hb hroom => ⟨_, exec_hufSym hl hx hb (Nat.ne_of_lt hroom), advance_appended s x [b],
    advance_frame s x _⟩, fun h => ?_⟩
  rw [exec_hufSym_runs]
  refine runElement_corrupt hl hx ?_
  rcases h with hcut | hfull
  · rw [hcut, Option.bind_none]
  · cases hb : codeSym s.tables.tree.nodes s.tables.tree.start code with
    | none => rfl
    | some b => exact if_pos hfull

end Sys2Proof.Machine

/-!
PROOF. The LZ77 search and token stream (41_lz77.md R141 to R144, R149): what a match is, that `best_match` is the longest
and nearest one, and that `lz_decompress` undoes `lz_compress`. The round trip turns on one step: the token `lz_step` emits
at a position takes the data before that position to the data before the next one.
-/

namespace Sys2Proof.Machine

/-! ## Matches (R141) -/

/-- A match R141 allows at `pos`: `dist` lies within the window and the input, `len` within the cap, and the bytes `dist`
back agree. -/
structure IsMatch (d : List Byte) (pos window dist len : Nat) : Prop where
  one_le_dist : 1 ≤ dist
  dist_le : dist ≤ min window pos
  len_le : len ≤ min 255 (d.length - pos - 1)
  agree : ∀ j < len, d[pos - dist + j]? = d[pos + j]?

section BestMatch

variable {d : List Byte} {pos window : Nat} (hp : pos < d.length)

/-- The search answers (0, 0) or the match length at one of the candidate distances. -/
theorem bestMatch_candidate (d : List Byte) (pos window : Nat) : bestMatch d pos window = (0, 0) ∨
    (1 ≤ (bestMatch d pos window).2 ∧ (bestMatch d pos window).2 ≤ min window pos ∧
      (bestMatch d pos window).1 = matchLength d pos (bestMatch d pos window).2) := by
  rcases (searchFrom_spec d pos (min window pos) 1 (0, 0)).1 with hnone | ⟨-, hlo, hhi, hlen⟩
  · exact .inl hnone
  · exact .inr ⟨hlo, by unfold bestMatch; omega, hlen⟩

theorem bestMatch_dist_eq_zero (h : (bestMatch d pos window).1 = 0) : (bestMatch d pos window).2 = 0 := by
  rcases (searchFrom_spec d pos (min window pos) 1 (0, 0)).1 with hnone | ⟨hlen, -⟩
  · exact congrArg Prod.snd hnone
  · exact absurd h (Nat.ne_of_gt hlen)

include hp

theorem bestMatch_isMatch (h : 0 < (bestMatch d pos window).1) :
    IsMatch d pos window (bestMatch d pos window).2 (bestMatch d pos window).1 := by
  rcases bestMatch_candidate d pos window with hnone | ⟨hlo, hhi, hlen⟩
  · simp [hnone] at h
  · obtain ⟨hcap, hagree, -⟩ := matchLength_spec d pos (bestMatch d pos window).2 hp
    rw [← hlen] at hcap hagree
    exact ⟨hlo, hhi, hcap, hagree⟩

/-- No match is longer than the best, and no nearer one is as long. -/
theorem IsMatch.le_bestMatch {dist len : Nat} (h : IsMatch d pos window dist len) :
    len ≤ (bestMatch d pos window).1 ∧ (dist < (bestMatch d pos window).2 → len < (bestMatch d pos window).1) := by
  have hlen := (matchLength_spec d pos dist hp).2.2 len h.len_le h.agree
  have hdist := h.dist_le
  obtain ⟨hle, hlt⟩ := (searchFrom_spec d pos (min window pos) 1 (0, 0)).2.2 dist h.one_le_dist (by omega)
  refine ⟨Nat.le_trans hlen hle, fun hnear => Nat.lt_of_le_of_lt hlen (hlt hnear fun hnone => ?_)⟩
  simp [bestMatch, hnone] at hnear

end BestMatch

/-- Settles O42: the best match is a match, and every match is compared with it. -/
theorem bestMatchIsLongestNearest : Obligations.BestMatchIsLongestNearest := by
  intro d pos window hp
  refine ⟨bestMatch_dist_eq_zero, fun h => ?_, fun dist l hlo hhi hagrees => ?_⟩
  · have hmatch := bestMatch_isMatch hp h
    exact ⟨hmatch.one_le_dist, hmatch.dist_le, hmatch.len_le, hmatch.agree⟩
  · exact IsMatch.le_bestMatch hp ⟨hlo, hhi, hagrees.1, hagrees.2⟩

/-! ## The token at a position (R142) -/

/-- The distance bytes of a token, as `lz_step` computes them (R89). -/
theorem tokenBytes_ofNat (dist : Nat) (len lit : Byte) :
    tokenBytes (BitVec.ofNat 16 dist) len lit = [BitVec.ofNat 8 (dist / 256), BitVec.ofNat 8 dist, len, lit] := by
  have hhigh : (BitVec.ofNat 16 dist).extractLsb' 8 8 = BitVec.ofNat 8 (dist / 256) := by
    apply BitVec.eq_of_toNat_eq
    simp only [BitVec.extractLsb'_toNat, Nat.shiftRight_eq_div_pow, BitVec.toNat_ofNat]
    omega
  have hlow : (BitVec.ofNat 16 dist).extractLsb' 0 8 = BitVec.ofNat 8 dist := by
    apply BitVec.eq_of_toNat_eq
    simp only [BitVec.extractLsb'_toNat, Nat.shiftRight_zero, BitVec.toNat_ofNat]
    omega
  rw [tokenBytes, hhigh, hlow]

section Step

variable {d : List Byte} {pos window : Nat}

theorem lzStep_literal (h : (bestMatch d pos window).1 ≤ 3) :
    lzStep d pos window = (tokenBytes 0#16 0#8 (d.getD pos 0#8), pos + 1) :=
  if_neg (Nat.not_lt.mpr h)

theorem lzStep_match (h : 3 < (bestMatch d pos window).1) :
    lzStep d pos window =
      (tokenBytes (BitVec.ofNat 16 (bestMatch d pos window).2) (BitVec.ofNat 8 (bestMatch d pos window).1)
        (d.getD (pos + (bestMatch d pos window).1) 0#8), pos + (bestMatch d pos window).1 + 1) := by
  rw [tokenBytes_ofNat]
  exact if_pos h

/-- The fields of a token hold a match's distance and length exactly (R144). -/
theorem IsMatch.fields_exact {dist len : Nat} (h : IsMatch d pos window dist len) (hw : window ≤ 65535) :
    (BitVec.ofNat 16 dist).toNat = dist ∧ (BitVec.ofNat 8 len).toNat = len := by
  have hdist := h.dist_le
  have hlen := h.len_le
  rw [BitVec.toNat_ofNat, BitVec.toNat_ofNat]
  omega

end Step

theorem decodeLz_token (dist : BitVec 16) (len lit : Byte) :
    decodeLz (tokenBytes dist len lit) = .ok (classifyToken dist len lit, []) := by
  simpa using decodeLz_tokenBytes dist len lit []

/-- A token with a distance and a length is an LZ.MATCH (R90). -/
theorem classifyToken_match {dist : BitVec 16} {len : Byte} (hdist : 1 ≤ dist.toNat) (hlen : 1 ≤ len.toNat)
    (lit : Byte) : classifyToken dist len lit = .lzMatch dist len lit := by
  have hd : dist ≠ 0#16 := by rintro rfl; exact absurd hdist (by decide)
  have hl : len ≠ 0#8 := by rintro rfl; exact absurd hlen (by decide)
  rw [classifyToken, if_neg hl, if_neg hd]

/-- A token with a distance and no length is an LZ.REF0 (R90). -/
theorem classifyToken_ref0 {dist : BitVec 16} (hdist : 0 < dist.toNat) (lit : Byte) :
    classifyToken dist 0#8 lit = .lzRef0 dist lit := by
  have hd : dist ≠ 0#16 := by rintro rfl; exact absurd hdist (by decide)
  rw [classifyToken, if_pos rfl, if_neg hd]

/-- Settles O43: the token of a best match above the threshold has that match's fields, any other is the literal. -/
theorem lzStepEmitsLitOrMatch : Obligations.LzStepEmitsLitOrMatch := by
  intro d pos window hp hw
  refine ⟨fun h => ?_, fun h => ?_⟩
  · rw [lzStep_literal h]
    exact ⟨decodeLz_token 0#16 0#8 _, rfl⟩
  · have hmatch := bestMatch_isMatch hp (window := window) (by omega)
    obtain ⟨hdist, hlen⟩ := hmatch.fields_exact hw
    have hone := hmatch.one_le_dist
    have hcap := hmatch.len_le
    rw [lzStep_match h]
    refine ⟨_, _, ?_, hdist, hlen, ?_, ?_, ?_, ?_, rfl⟩
    · rw [decodeLz_token, classifyToken_match] <;> omega
    · omega
    · rwa [hdist]
    · rw [hdist]; exact hmatch.dist_le
    · omega

/-! ## A token rebuilds the data it covers (R146, R147) -/

section Rebuild

variable {d : List Byte} {pos window : Nat}

/-- The data before a position, followed by the byte there. -/
theorem take_append_getD (h : pos < d.length) : d.take pos ++ [d.getD pos 0#8] = d.take (pos + 1) := by
  rw [List.take_add_one, List.getD_eq_getElem?_getD, List.getElem?_eq_getElem h]
  rfl

theorem lzExpand_literal (hp : pos < d.length) :
    lzExpand window d.length (d.take pos) 0 0 (d.getD pos 0#8) = some (d.take (pos + 1)) := by
  rw [lzExpand_ok, lzCopy, take_append_getD hp]
  rw [lzCorrupt_eq_false, List.length_take_of_le hp.le]
  omega

theorem IsMatch.lzExpand_eq {dist len : Nat} (h : IsMatch d pos window dist len) (hp : pos < d.length) :
    lzExpand window d.length (d.take pos) dist len (d.getD (pos + len) 0#8) = some (d.take (pos + len + 1)) := by
  have hone := h.one_le_dist
  have hdist := h.dist_le
  have hlen := h.len_le
  rw [lzExpand_ok, lzCopy_take d pos dist len hone (by omega) h.agree (by omega), take_append_getD (by omega)]
  rw [lzCorrupt_eq_false, List.length_take_of_le hp.le]
  omega

theorem lzRest_tokenBytes (window origLen : Nat) (dist : BitVec 16) (len lit : Byte) (payload out : List Byte) :
    lzRest window origLen (tokenBytes dist len lit ++ payload) out =
      (lzExpand window origLen out dist.toNat len.toNat lit).bind (lzRest window origLen payload) := by
  have htoken := lzRest_token window origLen (dist.extractLsb' 8 8) (dist.extractLsb' 0 8) len lit payload out
  rwa [tokenDist_eta] at htoken

/-- The token of a position takes the data before it to the data before the next position. -/
theorem lzRest_lzStep (hp : pos < d.length) (hw : window ≤ 65535) (payload : List Byte) :
    lzRest window d.length ((lzStep d pos window).1 ++ payload) (d.take pos) =
      lzRest window d.length payload (d.take (lzStep d pos window).2) := by
  by_cases h : (bestMatch d pos window).1 ≤ 3
  · rw [lzStep_literal h, lzRest_tokenBytes, BitVec.toNat_zero, BitVec.toNat_zero, lzExpand_literal hp,
      Option.bind_some]
  · have hmatch := bestMatch_isMatch hp (window := window) (by omega)
    obtain ⟨hdist, hlen⟩ := hmatch.fields_exact hw
    rw [lzStep_match (by omega), lzRest_tokenBytes, hdist, hlen, hmatch.lzExpand_eq hp, Option.bind_some]

end Rebuild

/-! ## The token stream (R143, R144) -/

/-- A token has four bytes and covers at least one of the data's. -/
theorem lzStep_size (d : List Byte) (pos window : Nat) :
    (lzStep d pos window).1.length = 4 ∧ pos < (lzStep d pos window).2 := by
  by_cases h : (bestMatch d pos window).1 ≤ 3
  · rw [lzStep_literal h]
    exact ⟨rfl, Nat.lt_succ_self pos⟩
  · rw [lzStep_match (by omega)]
    exact ⟨rfl, by omega⟩

/-- Induction over the positions at which `lz_compress` emits a token, from the data's end back. -/
theorem lzStep_induction {d : List Byte} {window : Nat} {motive : Nat → Prop}
    (hend : ∀ pos, d.length ≤ pos → motive pos)
    (hstep : ∀ pos < d.length, motive (lzStep d pos window).2 → motive pos) (pos : Nat) : motive pos := by
  by_cases hp : pos < d.length
  · have hnext := (lzStep_size d pos window).2
    exact hstep pos hp (lzStep_induction hend hstep _)
  · exact hend pos (by omega)
termination_by d.length - pos

/-- The tokens `lz_compress` emits from a position on. -/
def lzTokensAt (d : List Byte) (window pos : Nat) : List Byte := lzTokensFrom d window (d.length - pos) pos

theorem lzTokensFrom_end {d : List Byte} {pos : Nat} (h : d.length ≤ pos) (window fuel : Nat) :
    lzTokensFrom d window fuel pos = [] := by
  cases fuel with
  | zero => rfl
  | succ fuel => exact if_neg (Nat.not_lt.mpr h)

theorem lzTokensFrom_succ {d : List Byte} {pos : Nat} (hp : pos < d.length) (window fuel : Nat) :
    lzTokensFrom d window (fuel + 1) pos =
      (lzStep d pos window).1 ++ lzTokensFrom d window fuel (lzStep d pos window).2 :=
  if_pos hp

/-- Fuel for the bytes left suffices (log 17). -/
theorem lzTokensFrom_eq (d : List Byte) (window pos : Nat) :
    ∀ fuel, d.length - pos ≤ fuel → lzTokensFrom d window fuel pos = lzTokensAt d window pos := by
  induction pos using lzStep_induction (d := d) (window := window) with
  | hend pos hp => intro fuel _; rw [lzTokensAt, lzTokensFrom_end hp, lzTokensFrom_end hp]
  | hstep pos hp ih =>
    intro fuel hfuel
    have hnext := (lzStep_size d pos window).2
    obtain ⟨fuel, rfl⟩ : ∃ n, fuel = n + 1 := ⟨fuel - 1, by omega⟩
    obtain ⟨left, hleft⟩ : ∃ n, d.length - pos = n + 1 := ⟨d.length - pos - 1, by omega⟩
    rw [lzTokensAt, hleft, lzTokensFrom_succ hp, lzTokensFrom_succ hp, ih fuel (by omega), ih left (by omega)]

theorem lzTokensAt_end {d : List Byte} {pos : Nat} (h : d.length ≤ pos) (window : Nat) :
    lzTokensAt d window pos = [] :=
  lzTokensFrom_end h window _

/-- The token at a position is followed by those from the next position on. -/
theorem lzTokensAt_step {d : List Byte} {pos : Nat} (hp : pos < d.length) (window : Nat) :
    lzTokensAt d window pos = (lzStep d pos window).1 ++ lzTokensAt d window (lzStep d pos window).2 := by
  rw [← lzTokensFrom_eq d window pos (d.length - pos + 1) (by omega), lzTokensFrom_succ hp, lzTokensFrom_eq]
  have hnext := (lzStep_size d pos window).2
  omega

/-- The tokens from a position on take the data before it to all of the data. -/
theorem lzRest_lzTokensAt (d : List Byte) {window : Nat} (hw : window ≤ 65535) (pos : Nat) :
    lzRest window d.length (lzTokensAt d window pos) (d.take pos) = some d := by
  induction pos using lzStep_induction (d := d) (window := window) with
  | hend pos hp => simp [lzTokensAt_end hp, List.take_of_length_le hp, lzRest, lzExpandAll, whole]
  | hstep pos hp ih => rw [lzTokensAt_step hp, lzRest_lzStep hp hw, ih]

theorem lzTokensAt_length (d : List Byte) (window pos : Nat) :
    (lzTokensAt d window pos).length ≤ 4 * (d.length - pos) ∧ (lzTokensAt d window pos).length % 4 = 0 := by
  induction pos using lzStep_induction (d := d) (window := window) with
  | hend pos hp => simp [lzTokensAt_end hp]
  | hstep pos hp ih =>
    obtain ⟨hsize, hnext⟩ := lzStep_size d pos window
    rw [lzTokensAt_step hp, List.length_append, hsize]
    omega

/-- Settles O44: the stream is unrolled a token at a time, and each token rebuilds the bytes it covers. -/
theorem lzRoundTrip : Obligations.LzRoundTrip := by
  refine ⟨fun d window => ⟨rfl, lzTokensAt_end (Nat.le_refl _) window, fun pos hp => lzTokensAt_step hp window⟩,
    fun d window hw => ⟨?_, lzTokensAt_length d window 0⟩⟩
  rw [lzDecompress_eq]
  exact lzRest_lzTokensAt d hw 0

end Sys2Proof.Machine

/-!
PROOF. The LZ77 commands and their elements (41_lz77.md R145 to R148, R150): a command past the region check ends as any
compress or decompress does, and a token of any class either fails one of the four checks of R148 or is copied out.
-/

namespace Sys2Proof.Machine

/-! ## LZ_COMPRESS (R145) -/

theorem exec_lzCompress {s : State} {l : Latched} (hl : s.latched = some l) (hr : regionOk s.memOk l.snap = true) :
    exec .lzCompress s = .next (compressEnd 4 (lzCompress l.snap.window.toNat (srcData l.snap s.mem))
      (u32le l.snap.srcLen.toNat) s l.snap) := by
  rw [exec, execLzCompress, runCommand_latched hl, if_pos hr, lzCompress_body]

/-- Settles O23: past the region check the engine makes the tokens of `lz_compress` and a record of ORIG_LEN. -/
theorem lzCompressResult : Obligations.LzCompressResult := by
  refine ⟨rfl, fun s l hl hr => ?_⟩
  obtain ⟨hmeta, hdst, hok⟩ := compressEnd_result hr (lzCompress l.snap.window.toNat (srcData l.snap s.mem)) _
    (u32le_length l.snap.srcLen.toNat)
  have hexec := exec_lzCompress hl hr
  exact ⟨fun h => ⟨_, hexec, hmeta h⟩, fun h h' => ⟨_, hexec, hdst h h'⟩, fun h h' => ⟨_, hexec, hok h h'⟩⟩

/-! ## LZ_DECOMPRESS (R150) -/

theorem exec_lzDecompress {s : State} {l : Latched} (hl : s.latched = some l) (hr : regionOk s.memOk l.snap = true) :
    exec .lzDecompress s = .next
      (if l.snap.metaCap.toNat < 4 then s.raise .malformedMetadata []
      else if l.snap.dstCap.toNat < metaOrigLen l.snap s.mem then s.raise .overflow []
      else deliver (metaOrigLen l.snap s.mem) (lzDecompress l.snap.window.toNat (metaOrigLen l.snap s.mem)
        (srcData l.snap s.mem)) s l.snap) := by
  rw [exec, execLzDecompress, runCommand_latched hl, if_pos hr, decompressBody_eq]
  rfl

/-- Settles O24: the checks in their order, then the end of a decompress, whose output `lz_decompress` gives ORIG_LEN
bytes. -/
theorem lzDecompressResult : Obligations.LzDecompressResult := by
  refine ⟨rfl, fun s l hl hr => ?_⟩
  have hexec := exec_lzDecompress hl hr
  rw [show metaOrigLen l.snap s.mem = fromU32le (memRead s.mem l.snap.metaAddr.toNat 4) from rfl, srcData] at hexec
  refine ⟨fun h => ?_, fun h hcap => ?_, fun h hcap hnone => ?_, fun out h hcap hsome => ?_⟩
  · rw [if_pos h] at hexec
    exact ⟨_, hexec, raise_completedErr s .malformedMetadata []⟩
  · rw [if_neg (Nat.not_lt.mpr h), if_pos hcap] at hexec
    exact ⟨_, hexec, raise_completedErr s .overflow []⟩
  · rw [if_neg (Nat.not_lt.mpr h), if_neg (Nat.not_lt.mpr hcap), hnone] at hexec
    exact ⟨_, hexec, deliver_completedErr s l.snap _⟩
  · have hlength := lzDecompress_length hsome
    rw [if_neg (Nat.not_lt.mpr h), if_neg (Nat.not_lt.mpr hcap), hsome] at hexec
    exact ⟨_, hexec, hlength, deliver_completedOk hr hcap hlength⟩

/-! ## Tokens (R146 to R148) -/

section Token

variable {s : State} {l : Latched} {x : Expansion} (hl : s.latched = some l) (hx : s.expansion = some x)

include hl hx

/-- A token that passes the checks of R148 copies its bytes out and appends its literal. -/
theorem exec_token_appends {dist : BitVec 16} {len : Byte}
    (h : lzCorrupt l.snap.window.toNat x.origLen x.out.length dist.toNat len.toNat = false) (lit : Byte) :
    exec (classifyToken dist len lit) s = .next (s.advance x (lzCopy dist.toNat len.toNat x.out ++ [lit])) := by
  rw [exec_token hl hx, lzExpand_ok h]

/-- One that passes them and has no length appends its literal alone, whatever its distance. -/
theorem exec_token_literal {dist : BitVec 16}
    (h : lzCorrupt l.snap.window.toNat x.origLen x.out.length dist.toNat 0 = false) (lit : Byte) :
    ∃ t, exec (classifyToken dist 0#8 lit) s = .next t ∧ Appended x [lit] t ∧ ElementFrame s t :=
  ⟨_, exec_token_appends hl hx (len := 0#8) h lit, advance_appended s x [lit], advance_frame s x _⟩

/-- One that fails them is CORRUPT_PAYLOAD. -/
theorem exec_token_corrupt {dist : BitVec 16} {len : Byte}
    (h : lzCorrupt l.snap.window.toNat x.origLen x.out.length dist.toNat len.toNat = true) (lit : Byte) :
    ∃ t, exec (classifyToken dist len lit) s = .next t ∧
      CompletedErr s t 3#4 [⟨l.snap.dstAddr.toNat, x.origLen⟩] := by
  rw [exec_token_runs]
  exact runElement_corrupt hl hx (if_pos h)

end Token

/-- Settles O28: without a distance or a length only the room is checked. -/
theorem lzLitResult : Obligations.LzLitResult := fun s l x lit hl hx hroom =>
  exec_token_literal hl hx (dist := 0#16) (lzCorrupt_eq_false.mpr (by simpa using hroom)) lit

/-- Settles O29: the checks pass, and the copy's bytes are those behind it in the output as it grows. -/
theorem lzMatchResult : Obligations.LzMatchResult := by
  intro s l x dist len lit hl hx hlen hdist hcursor hwindow hroom
  obtain ⟨copied, hcopy, hcount, hbytes⟩ := lzCopy_append dist.toNat len.toNat x.out hdist hcursor
  have hexec := exec_token_appends hl hx (dist := dist) (len := len) (lzCorrupt_eq_false.mpr (by omega)) lit
  rw [classifyToken_match hdist hlen, hcopy, List.append_assoc] at hexec
  exact ⟨_, copied, hexec, advance_appended s x (copied ++ [lit]), advance_frame s x _, hcount, hbytes⟩

/-- Settles O30: a token of any class that meets one of the four conditions fails the checks, and an LZ.REF0 that meets
none of them has no byte to copy. -/
theorem lzTokenValidity : Obligations.LzTokenValidity := by
  intro s l x dist len lit hl hx
  refine ⟨fun h => exec_token_corrupt hl hx ?_ lit, fun hdist hcursor hwindow hroom => ?_⟩
  · rw [← Bool.not_eq_false, lzCorrupt_eq_false]
    omega
  · rw [← classifyToken_ref0 hdist]
    exact exec_token_literal hl hx (lzCorrupt_eq_false.mpr (by omega)) lit

end Sys2Proof.Machine

/-!
PROOF. The RLE stream (42_rle.md R160 to R162, R166): what a run is, how the encoder writes one, and that
`rle_decompress` undoes `rle_compress`. The data is its first run before the data after it, and every fact about the
stream is proved by induction over these runs.
-/

namespace Sys2Proof.Machine

/-! ## Runs (R160) -/

/-- The count ends at a byte other than `v` or at the end of the sequence, unless the room ends it. -/
theorem getElem?_repeats_ne (v : Byte) : ∀ (room : Nat) (rest : List Byte), repeats v room rest < room →
    rest[repeats v room rest]? ≠ some v
  | 0, _, h => absurd h (Nat.not_lt_zero _)
  | _ + 1, [], _ => nofun
  | room + 1, b :: rest, h => by
    rw [repeats] at h ⊢
    by_cases hb : b = v
    · rw [if_pos hb] at h ⊢
      rw [List.getElem?_cons_succ]
      exact getElem?_repeats_ne v room rest (Nat.lt_of_succ_lt_succ h)
    · rw [if_neg hb]
      simpa using hb

theorem runAt_le_length (v : Byte) (rest : List Byte) : runAt v rest ≤ rest.length + 1 := by
  obtain ⟨-, hlength, -⟩ := repeats_spec v (Config.rleMaxRun - 1) rest
  exact Nat.succ_le_succ hlength

theorem take_runAt (v : Byte) (rest : List Byte) :
    (v :: rest).take (runAt v rest) = List.replicate (runAt v rest) v := by
  obtain ⟨-, -, htake⟩ := repeats_spec v (Config.rleMaxRun - 1) rest
  rw [runAt, List.take_succ_cons, htake, List.replicate_succ]

/-- A sequence is its first run before what follows the run. -/
theorem replicate_runAt_append_drop (v : Byte) (rest : List Byte) :
    List.replicate (runAt v rest) v ++ (v :: rest).drop (runAt v rest) = v :: rest := by
  rw [← take_runAt, List.take_append_drop]

theorem getElem?_of_lt_runAt {v : Byte} {rest : List Byte} {j : Nat} (h : j < runAt v rest) :
    (v :: rest)[j]? = some v := by
  rw [← List.getElem?_take_of_lt h, take_runAt, List.getElem?_replicate_of_lt h]

theorem getElem?_runAt_ne {v : Byte} {rest : List Byte} (h : runAt v rest < 255) :
    (v :: rest)[runAt v rest]? ≠ some v := by
  rw [runAt, List.getElem?_cons_succ]
  exact getElem?_repeats_ne v _ rest (Nat.lt_of_succ_lt_succ h)

/-- Induction over the runs of a sequence. -/
theorem runAt_induction {motive : List Byte → Prop} (nil : motive [])
    (run : ∀ v rest, motive ((v :: rest).drop (runAt v rest)) → motive (v :: rest)) : ∀ d, motive d
  | [] => nil
  | v :: rest => run v rest (runAt_induction nil run _)
termination_by d => d.length
decreasing_by
  have hpos := (runAt_bounds v rest).1
  rw [List.length_drop, List.length_cons]
  omega

/-! ## The encoding of a run (R161) -/

theorem rleEmit_long {c : Nat} (h : 4 ≤ c) (v : Byte) : rleEmit c v = [Config.rleMarker, BitVec.ofNat 8 c, v] :=
  if_pos h

theorem rleEmit_markers {c : Nat} (h : c < 4) :
    rleEmit c Config.rleMarker = (List.replicate c [Config.rleMarker, 0x01#8, Config.rleMarker]).flatten :=
  (if_neg (Nat.not_le.mpr h)).trans (if_pos rfl)

theorem rleEmit_literals {c : Nat} (h : c < 4) {v : Byte} (hv : v ≠ Config.rleMarker) :
    rleEmit c v = List.replicate c v :=
  (if_neg (Nat.not_le.mpr h)).trans (if_neg hv)

theorem rleEmit_length_le (c : Nat) (v : Byte) : (rleEmit c v).length ≤ 3 * c := by
  rcases Nat.lt_or_ge c 4 with h | h
  · by_cases hv : v = Config.rleMarker
    · subst hv
      rw [rleEmit_markers h, List.length_flatten]
      simp [Nat.mul_comm]
    · rw [rleEmit_literals h hv, List.length_replicate]
      omega
  · rw [rleEmit_long h]
    simp only [List.length_cons, List.length_nil]
    omega

/-! ## The stream (R162) -/

theorem rleElements_nil (fuel : Nat) : rleElements fuel [] = [] := by cases fuel <;> rfl

theorem rleElements_run (fuel : Nat) (v : Byte) (rest : List Byte) :
    rleElements (fuel + 1) (v :: rest) =
      rleEmit (runAt v rest) v ++ rleElements fuel ((v :: rest).drop (runAt v rest)) := rfl

/-- Fuel for the bytes left suffices (log 17). -/
theorem rleElements_eq (d : List Byte) : ∀ fuel, d.length ≤ fuel → rleElements fuel d = rleCompress d := by
  induction d using runAt_induction with
  | nil => exact fun fuel _ => rleElements_nil fuel
  | run v rest ih =>
    intro fuel hfuel
    have hpos := (runAt_bounds v rest).1
    have hless := List.length_drop (i := runAt v rest) (l := v :: rest)
    rw [List.length_cons] at hfuel hless
    obtain ⟨fuel, rfl⟩ : ∃ n, fuel = n + 1 := ⟨fuel - 1, by omega⟩
    rw [rleCompress, List.length_cons, rleElements_run, rleElements_run, ih fuel (by omega), ih rest.length (by omega)]

/-- The first run's encoding before the encoding of what follows the run. -/
theorem rleCompress_run (v : Byte) (rest : List Byte) :
    rleCompress (v :: rest) = rleEmit (runAt v rest) v ++ rleCompress ((v :: rest).drop (runAt v rest)) := by
  rw [← rleElements_eq (v :: rest) (rest.length + 2) (by simp), rleElements_run, rleElements_eq]
  simp only [List.length_drop, List.length_cons]
  omega

theorem rleCompress_length_le (d : List Byte) : (rleCompress d).length ≤ 3 * d.length := by
  induction d using runAt_induction with
  | nil => exact Nat.le_refl 0
  | run v rest ih =>
    have hemit := rleEmit_length_le (runAt v rest) v
    have hrun := runAt_le_length v rest
    rw [List.length_drop, List.length_cons] at ih
    rw [rleCompress_run, List.length_append, List.length_cons]
    omega

/-! ## The round trip (R166) -/

theorem rleExpandAll_nil (origLen fuel : Nat) (out : List Byte) : rleExpandAll origLen fuel out [] = some out := by
  cases fuel <;> rfl

/-- The stream of `d` appends `d` to any output with room for it, with fuel for every byte of the stream. -/
theorem rleExpandAll_rleCompress (origLen : Nat) (d : List Byte) : ∀ (fuel : Nat) (out : List Byte),
    (rleCompress d).length ≤ fuel → out.length + d.length ≤ origLen →
      rleExpandAll origLen fuel out (rleCompress d) = some (out ++ d) := by
  induction d using runAt_induction with
  | nil => intro fuel out _ _; rw [List.append_nil]; exact rleExpandAll_nil origLen fuel out
  | run v rest ih =>
    intro fuel out hfuel hroom
    obtain ⟨hpos, hmax⟩ := runAt_bounds v rest
    have hlength := congrArg List.length (replicate_runAt_append_drop v rest)
    rw [List.length_append, List.length_replicate] at hlength
    rw [rleCompress_run, List.length_append] at hfuel
    obtain ⟨k, -, hk, hstep⟩ := rleEmit_expand origLen (runAt v rest) v out
      (rleCompress ((v :: rest).drop (runAt v rest))) hpos hmax (by omega)
    obtain ⟨fuel, rfl⟩ : ∃ n, fuel = n + k := ⟨fuel - k, by omega⟩
    rw [rleCompress_run, hstep, ih fuel _ (by omega) (by rw [List.length_append, List.length_replicate]; omega),
      List.append_assoc, replicate_runAt_append_drop]

theorem rleDecompress_rleCompress (d : List Byte) : rleDecompress d.length (rleCompress d) = some d := by
  rw [rleDecompress_eq, rleExpandAll_rleCompress d.length d _ [] (Nat.le_refl _) (by simp), Option.bind_some,
    List.nil_append]
  exact if_pos rfl

/-- Settles O45: the stream is unrolled a run at a time, and the encoding of each run decodes to that run. -/
theorem rleRoundTrip : Obligations.RleRoundTrip := by
  refine ⟨fun v rest => ?_, fun c v => ⟨fun h hmax => ?_, fun h hv => ?_, fun h hv => rleEmit_literals h hv⟩,
    ⟨rfl, rleCompress_run⟩, fun d => ⟨rleDecompress_rleCompress d, rleCompress_length_le d⟩⟩
  · obtain ⟨hpos, hmax⟩ := runAt_bounds v rest
    exact ⟨hpos, hmax, runAt_le_length v rest, fun _ hj => getElem?_of_lt_runAt hj, getElem?_runAt_ne⟩
  · exact ⟨BitVec.ofNat 8 c, Nat.mod_eq_of_lt (Nat.lt_succ_of_le hmax), rleEmit_long h v⟩
  · rw [hv]
    exact rleEmit_markers h

end Sys2Proof.Machine

/-!
PROOF. The RLE commands and their elements (42_rle.md R163 to R165, R167): a command past the region check ends as any
compress or decompress does, and a run or a literal is copies of one byte, appended where there is room for them.
-/

namespace Sys2Proof.Machine

/-! ## RLE_COMPRESS (R163) -/

theorem exec_rleCompress {s : State} {l : Latched} (hl : s.latched = some l) (hr : regionOk s.memOk l.snap = true) :
    exec .rleCompress s = .next (compressEnd 4 (rleCompress (srcData l.snap s.mem)) (u32le l.snap.srcLen.toNat) s
      l.snap) := by
  rw [exec, execRleCompress, runCommand_latched hl, if_pos hr, rleCompress_body]

/-- Settles O25: past the region check the engine makes the elements of `rle_compress` and a record of ORIG_LEN. -/
theorem rleCompressResult : Obligations.RleCompressResult := by
  refine ⟨rfl, fun s l hl hr => ?_⟩
  obtain ⟨hmeta, hdst, hok⟩ := compressEnd_result hr (rleCompress (srcData l.snap s.mem)) _
    (u32le_length l.snap.srcLen.toNat)
  have hexec := exec_rleCompress hl hr
  exact ⟨fun h => ⟨_, hexec, hmeta h⟩, fun h h' => ⟨_, hexec, hdst h h'⟩, fun h h' => ⟨_, hexec, hok h h'⟩⟩

/-! ## RLE_DECOMPRESS (R167) -/

/-- The three ends of a decompress whose ORIG_LEN `n` has been read: no room for the output, a payload that does not
decode, or the output stored. -/
theorem decompressBody_result {s : State} {p : Params} (hr : regionOk s.memOk p = true) {n : Nat}
    (build : Tables → Tables) {decode : Tables → List Byte → Option (List Byte)} {decoded : Option (List Byte)}
    (hdecode : decode (build s.tables) (srcData p s.mem) = decoded)
    (hlength : ∀ out, decoded = some out → out.length = n) :
    (p.dstCap.toNat < n → CompletedErr s (decompressBody n build decode s p) 4#4 []) ∧
    (n ≤ p.dstCap.toNat → decoded = none →
      CompletedErr s (decompressBody n build decode s p) 3#4 [⟨p.dstAddr.toNat, n⟩]) ∧
    (∀ out, n ≤ p.dstCap.toNat → decoded = some out →
      CompletedOk s (decompressBody n build decode s p) n 0 [(p.dstAddr.toNat, out)]) := by
  rw [decompressBody_eq, hdecode]
  refine ⟨fun hcap => ?_, fun hcap hnone => ?_, fun out hcap hsome => ?_⟩
  · rw [if_pos hcap]
    exact raise_completedErr s .overflow []
  · rw [if_neg (Nat.not_lt.mpr hcap), hnone]
    exact deliver_completedErr s p n
  · rw [if_neg (Nat.not_lt.mpr hcap), hsome]
    exact deliver_completedOk hr hcap (hlength out hsome)

theorem exec_rleDecompress {s : State} {l : Latched} (hl : s.latched = some l) (hr : regionOk s.memOk l.snap = true) :
    exec .rleDecompress s = .next
      (if l.snap.metaCap.toNat < 4 then s.raise .malformedMetadata []
      else decompressBody (metaOrigLen l.snap s.mem) id (fun _ => rleDecompress (metaOrigLen l.snap s.mem)) s
        l.snap) := by
  rw [exec, execRleDecompress, runCommand_latched hl, if_pos hr]
  rfl

/-- Settles O26: the record's size, then the ends of a decompress, whose output `rle_decompress` gives ORIG_LEN
bytes. -/
theorem rleDecompressResult : Obligations.RleDecompressResult := by
  refine ⟨rfl, fun s l hl hr => ?_⟩
  have hexec := exec_rleDecompress hl hr
  obtain ⟨hoverflow, hcorrupt, hok⟩ := decompressBody_result hr id
    (decode := fun _ => rleDecompress (metaOrigLen l.snap s.mem)) rfl fun _ h => rleDecompress_length h
  refine ⟨fun h => ?_, fun h hcap => ?_, fun h hcap hnone => ?_, fun out h hcap hsome => ?_⟩
  · rw [if_pos h] at hexec
    exact ⟨_, hexec, raise_completedErr s .malformedMetadata []⟩
  · rw [if_neg (Nat.not_lt.mpr h)] at hexec
    exact ⟨_, hexec, hoverflow hcap⟩
  · rw [if_neg (Nat.not_lt.mpr h)] at hexec
    exact ⟨_, hexec, hcorrupt hcap hnone⟩
  · rw [if_neg (Nat.not_lt.mpr h)] at hexec
    exact ⟨_, hexec, rleDecompress_length hsome, hok out hcap hsome⟩

/-! ## Elements (R164, R165) -/

section Element

variable {s : State} {l : Latched} {x : Expansion} (hl : s.latched = some l) (hx : s.expansion = some x)

include hl hx

/-- An element that stands for copies of a byte appends them where they fit ORIG_LEN. -/
theorem runElement_rleExpand_appends {c : Nat} (h : x.out.length + c ≤ x.origLen) (v : Byte) :
    ∃ t, runElement s (fun _ x => rleExpand x.origLen x.out c v) = .next t ∧ Appended x (List.replicate c v) t ∧
      ElementFrame s t := by
  have hout : rleExpand x.origLen x.out c v = some (x.out ++ List.replicate c v) := if_neg (Nat.not_lt.mpr h)
  rw [runElement_running hl hx, hout]
  exact ⟨_, rfl, advance_appended s x _, advance_frame s x _⟩

/-- Where they do not fit, it is CORRUPT_PAYLOAD. -/
theorem runElement_rleExpand_corrupt {c : Nat} (h : x.origLen < x.out.length + c) (v : Byte) :
    ∃ t, runElement s (fun _ x => rleExpand x.origLen x.out c v) = .next t ∧
      CompletedErr s t 3#4 [⟨l.snap.dstAddr.toNat, x.origLen⟩] :=
  runElement_corrupt hl hx (if_pos h)

end Element

/-- Settles O32: a run is COUNT copies of VALUE, and a dangling marker is one of the corrupt rows. -/
theorem rleRunResult : Obligations.RleRunResult :=
  ⟨fun count value rest => ⟨decodeRle_run count value rest, rfl, rfl⟩, fun s l x _ value hl hx =>
    ⟨fun h => runElement_rleExpand_appends hl hx h value, fun h => runElement_rleExpand_corrupt hl hx h value,
      fun last => illegalElementsCorrupt s l x (.rleDangling last) rfl (.inr (.inr ⟨last, rfl⟩)) hl hx⟩⟩

/-- Settles O33: a literal is one copy of its byte. -/
theorem rleLitResult : Obligations.RleLitResult :=
  ⟨fun _ rest hb => decodeRle_lit hb rest, fun _ _ _ b hl hx =>
    ⟨fun h => runElement_rleExpand_appends hl hx h b, fun h => runElement_rleExpand_corrupt hl hx h b⟩⟩

end Sys2Proof.Machine

/-!
PROOF. The register window (43_dispatch.md R180 to R184): STATUS bit by bit (10_state.md R26), what an aligned 32-bit
access to each offset does, and every other form of access.
-/

namespace Sys2Proof.Machine

/-! ## STATUS as a word -/

/-- The four flags in the low bits of STATUS. -/
theorem testBit_flags : ∀ (busy doneBit err ovr : Bool), ∀ i < 8,
    (busy.toNat + 2 * doneBit.toNat + 4 * err.toNat + 8 * ovr.toNat).testBit i =
      if i = 0 then busy else if i = 1 then doneBit else if i = 2 then err else if i = 3 then ovr else false := by
  decide

/-- STATUS bit by bit: the flags in bits 3:0, ERR_CODE from bit 8 on (10_state.md R26). -/
theorem Status.toWord_bit (st : Status) (i : Nat) :
    st.toWord.getLsbD i =
      if i = 0 then st.busy else if i = 1 then st.doneBit else if i = 2 then st.err else if i = 3 then st.ovr
      else decide (8 ≤ i) && st.errCode.getLsbD (i - 8) := by
  have hflags : st.busy.toNat + 2 * st.doneBit.toNat + 4 * st.err.toNat + 8 * st.ovr.toNat < 2 ^ 8 := by
    have hbusy := st.busy.toNat_le
    have hdone := st.doneBit.toNat_le
    have herr := st.err.toNat_le
    have hovr := st.ovr.toNat_le
    omega
  rw [Status.toWord, BitVec.getLsbD_ofNat, Nat.add_comm _ (256 * _), show 256 = 2 ^ 8 from rfl,
    Nat.testBit_two_pow_mul_add _ hflags]
  by_cases hi : i < 8
  · rw [if_pos hi, testBit_flags _ _ _ _ i hi]
    have hlt : i < 32 := by omega
    have hlow : ¬ 8 ≤ i := by omega
    simp [hlt, hlow]
  · have hcodeBit : st.errCode.toNat.testBit (i - 8) = st.errCode.getLsbD (i - 8) := rfl
    have hhigh : 32 ≤ i → st.errCode.getLsbD (i - 8) = false := fun h => BitVec.getLsbD_of_ge _ _ (by omega)
    rw [if_neg hi, hcodeBit, if_neg (by omega), if_neg (by omega), if_neg (by omega), if_neg (by omega)]
    by_cases hlt : i < 32
    · simp [hlt, Nat.le_of_not_lt hi]
    · simp [hlt, hhigh (Nat.le_of_not_lt hlt)]

/-- Above the flags STATUS holds ERR_CODE in bits 11:8 and nothing else. -/
theorem Status.toWord_bit_high (st : Status) {i : Nat} (h : 4 ≤ i) :
    st.toWord.getLsbD i = (decide (8 ≤ i) && st.errCode.getLsbD (i - 8)) := by
  rw [Status.toWord_bit, if_neg (by omega), if_neg (by omega), if_neg (by omega), if_neg (by omega)]

theorem Status.toWord_errCode (st : Status) : st.toWord.extractLsb' 8 4 = st.errCode := by
  refine BitVec.eq_of_getLsbD_eq fun i hi => ?_
  simp [st.toWord_bit_high (show 4 ≤ 8 + i by omega), hi]

/-- Bits 7:4 and 31:12 are reserved and read 0. -/
theorem Status.toWord_reserved (st : Status) : st.toWord &&& 0xFFFFF0F0#32 = 0#32 := by
  have hmask : ∀ i < 32, (0xFFFFF0F0#32).getLsbD i = decide (4 ≤ i ∧ (i < 8 ∨ 12 ≤ i)) := by decide
  refine BitVec.eq_of_getLsbD_eq fun i hi => ?_
  rw [BitVec.getLsbD_and, hmask i hi, BitVec.getLsbD_zero]
  by_cases h : 4 ≤ i ∧ (i < 8 ∨ 12 ≤ i)
  · rw [st.toWord_bit_high h.1]
    rcases h.2 with hlow | hhigh
    · simp [hlow]
    · simp [BitVec.getLsbD_of_ge st.errCode (i - 8) (by omega)]
  · simp [h]

/-- Settles O4: bit by bit, only bits 1, 2 and 3 of the write can clear one. -/
theorem statusWriteClearsNamedBits : Obligations.StatusWriteClearsNamedBits := by
  intro s v
  have hmask : ∀ i < 32, (0x0000000E#32).getLsbD i = decide (1 ≤ i ∧ i ≤ 3) := by decide
  refine BitVec.eq_of_getLsbD_eq fun i hi => ?_
  simp only [writeReg, BitVec.getLsbD_and, BitVec.getLsbD_not, Status.toWord_bit, Status.clear, hmask i hi, hi]
  by_cases h : 1 ≤ i ∧ i ≤ 3
  · obtain rfl | rfl | rfl : i = 1 ∨ i = 2 ∨ i = 3 := by omega
    all_goals simp
  · have h1 : i ≠ 1 := by omega
    have h2 : i ≠ 2 := by omega
    have h3 : i ≠ 3 := by omega
    simp [h, h1, h2, h3]

/-! ## Reads (R181) -/

/-- LZ_WINDOW reads WINDOW in bits 15:0 and 0 above (10_state.md R34). -/
theorem window_read (w : BitVec 16) :
    (w.setWidth 32).extractLsb' 0 16 = w ∧ (w.setWidth 32).extractLsb' 16 16 = 0#16 := by
  constructor
  · refine BitVec.eq_of_getLsbD_eq fun i hi => ?_
    simp [hi, Nat.lt_of_lt_of_le hi]
  · refine BitVec.eq_of_getLsbD_eq fun i hi => ?_
    simp

/-- Settles O5: the answer is the register at the offset, and only the host's side records it. -/
theorem mmioReadReturnsRegister : Obligations.MmioReadReturnsRegister := by
  intro s rest o hp hw ha
  refine ⟨mmioRead o s, step_mmioRead hp hw ha, ?_⟩
  refine ⟨?_, ?ctrl, ?status, ?_, ?_, ?_, ?_, ?_, ?_, ?_, ?window, ?_, ?_, fun h => mmioRead_unmapped h s⟩
  case ctrl =>
    rintro rfl
    show BitVec.ofNat 32 s.ctrlIE.toNat = _
    cases s.ctrlIE <;> rfl
  case status =>
    rintro rfl
    exact ⟨s.status.toWord_bit 0, s.status.toWord_bit 1, s.status.toWord_bit 2, s.status.toWord_bit 3,
      s.status.toWord_errCode, s.status.toWord_reserved⟩
  case window =>
    rintro rfl
    exact window_read s.params.window
  all_goals
    rintro rfl
    rfl

/-! ## Writes (R180, R183, R184) -/

/-- A STATUS write clears a W1C flag where its bit is 1. -/
theorem Status.clear_eq (v : Word) (st : Status) :
    st.clear v = { st with
      doneBit := if v.getLsbD 1 then false else st.doneBit
      err := if v.getLsbD 2 then false else st.err
      ovr := if v.getLsbD 3 then false else st.ovr } := by
  have hclear : ∀ flag bit : Bool, (flag && !bit) = if bit then false else flag := by decide
  simp only [Status.clear, hclear]

theorem mmioWrite_cmd_idle {s : State} (h : s.phase = .idle) (w : Word) : mmioWrite 0x0C w s = s.accept w := by
  simp [mmioWrite, regAt, writeReg, writeCmd, h]

theorem mmioWrite_cmd_busy {s : State} (h : s.phase = .busy) (w : Word) :
    mmioWrite 0x0C w s = { s with status := s.status.overrun } := by
  simp [mmioWrite, regAt, writeReg, writeCmd, h]

/-- CAPS, OUT_LEN, META_LEN and the unmapped offsets ignore a write. -/
theorem mmioWrite_ignored {o : Nat} (h : o = 0x00 ∨ 0x2C ≤ o) (ha : o % 4 = 0) (v : Word) (s : State) :
    mmioWrite o v s = s := by
  obtain rfl | rfl | rfl | hunmapped : o = 0x00 ∨ o = 0x2C ∨ o = 0x30 ∨ 0x34 ≤ o := by omega
  · exact mmioWrite_regOffset .caps v s
  · exact mmioWrite_regOffset .outLen v s
  · exact mmioWrite_regOffset .metaLen v s
  · exact mmioWrite_unmapped hunmapped v s

/-- Settles O7: the write is an accept, which leaves DONE clear. -/
theorem commandAccept : Obligations.CommandAccept := by
  intro s rest w hp hidle
  refine ⟨State.accept w { s with pending := rest }, ?_, rfl, rfl, rfl, rfl, rfl, Bool.and_false _, rfl, rfl, rfl, rfl,
    rfl, rfl, rfl, rfl, rfl⟩
  exact (step_mmioWrite hp (by decide) (by decide)).trans
    (congrArg _ (mmioWrite_cmd_idle (s := { s with pending := rest }) hidle w))

/-- Settles O8: the write sets OVR alone. -/
theorem commandWriteWhileBusyIsDropped : Obligations.CommandWriteWhileBusyIsDropped := by
  intro s rest w hp hbusy
  exact (step_mmioWrite hp (by decide) (by decide)).trans
    (congrArg _ (mmioWrite_cmd_busy (s := { s with pending := rest }) hbusy w))

/-- Settles O3: register by register, the write at its offset. -/
theorem mmioWriteEffects : Obligations.MmioWriteEffects := by
  intro s rest o v hp hw ha
  refine ⟨_, step_mmioWrite hp hw ha, ?_⟩
  refine ⟨?_, ?status, ?cmd, ?_, ?_, ?_, ?_, ?_, ?_, ?window, fun h => mmioWrite_ignored h ha v _⟩
  case status =>
    rintro rfl
    rw [← Status.clear_eq]
    rfl
  case cmd =>
    rintro rfl
    refine ⟨fun hidle => ?_, fun hbusy => mmioWrite_cmd_busy (s := { s with pending := rest }) hbusy v⟩
    rw [mmioWrite_cmd_idle (s := { s with pending := rest }) hidle]
    rfl
  case window =>
    rintro rfl
    rw [← BitVec.setWidth_eq_extractLsb' (by decide)]
    rfl
  all_goals
    rintro rfl
    rfl

/-! ## Other forms of access (R182) -/

theorem hostMmio_outside {o : Nat} (h : 256 ≤ o) (width : AccessWidth) (v : Word) (s : State) :
    hostMmioRead width o s = .next s ∧ hostMmioWrite width o v s = .next s := by
  have hout : inWindow o = false := decide_eq_false (Nat.not_lt.mpr h)
  simp [hostMmioRead, hostMmioWrite, hout]

theorem hostMmio_otherForm {o : Nat} {width : AccessWidth} (hw : o < 256) (h : width ≠ .word ∨ o % 4 ≠ 0) (v : Word)
    (s : State) : hostMmioRead width o s = .refused .mmioForm ∧ hostMmioWrite width o v s = .refused .mmioForm := by
  have hin : inWindow o = true := decide_eq_true hw
  have hform : definedForm width o = false := by
    rcases h with hwidth | halign
    · simp [definedForm, hwidth]
    · simp [definedForm, halign]
  simp [hostMmioRead, hostMmioWrite, hin, hform]

/-- Settles O6: reads and writes test the window, then the form. -/
theorem otherMmioFormsRefused : Obligations.OtherMmioFormsRefused := by
  intro s rest width o v hp
  refine ⟨fun hw h => ?_, fun h => ?_⟩
  · obtain ⟨hread, hwrite⟩ := hostMmio_otherForm hw h v { s with pending := rest }
    rcases hp with hp | hp <;> simp only [step, hp, hostEvent, hread, hwrite]
  · obtain ⟨hread, hwrite⟩ := hostMmio_outside h width v { s with pending := rest }
    rcases hp with hp | hp <;> simp only [step, hp, hostEvent, hread, hwrite]

end Sys2Proof.Machine

/-!
PROOF. Decode and completion (43_dispatch.md R185 to R191): the engine's turn executes what it decodes, a command ends
in one turn within its regions, the elements fetched from a payload are its bytes or bits in order, and no step changes
the platform.
-/

namespace Sys2Proof.Machine

/-! ## Dispatch (R185, R191) -/

/-- The engine's turn between two elements takes the next one off the payload and executes it. -/
theorem engineTurn_element {s : State} {x : Expansion} {i : Instr} {feed : Feed} (hp : s.phase = .busy)
    (hx : s.expansion = some x) (hf : fetchElement s.tables.tree x.feed = .ok (i, feed)) :
    engineTurn s = exec i (s.consume x feed) := by
  simp only [engineTurn, hp, hx, hf]

/-- Settles O13: the step is the engine's turn, in either form of execution. -/
theorem stepRunsTheDecodedInstruction : Obligations.StepRunsTheDecodedInstruction := by
  intro s rest hp hpend
  rw [step_engine hpend]
  exact ⟨fun l hx hl => engineTurn_command (s := { s with pending := rest }) hp hx hl,
    fun x i feed hx hf => engineTurn_element (s := { s with pending := rest }) hp hx hf⟩

/-! ## Completion (R187 to R189) -/

theorem Params.writes_iff (p : Params) (a : Nat) :
    p.writes a = true ↔ p.dstRegion.has a = true ∨ p.metaRegion.has a = true := by
  simp only [Params.writes, Bool.or_eq_true]

/-- Settles O14: the turn executes the latched word, and every end of a command is one of the two completions. -/
theorem engineCompletesCommandInOneStep : Obligations.EngineCompletesCommandInOneStep := by
  intro s l hp hx hl
  obtain ⟨t, ht, hend⟩ := exec_command_ends hl
  refine ⟨t, (engineTurn_command hp hx hl).trans ht, ?_⟩
  simp only [← Params.writes_iff]
  rcases hend with ⟨e, zs, rfl, hregion, hdamage⟩ | ⟨ws, n, q, -, hok, hregion, -, hwrites⟩
  · obtain ⟨hne, hle⟩ := e.code_bounds
    exact .inr ⟨e.code, zs, hne, hle, raise_completedErr s e zs, hregion, hdamage⟩
  · exact .inl ⟨n, q, ws, hok, hregion, hwrites⟩

/-! ## Elements of a payload (R191) -/

theorem tokenBytes_tokenDist (byte0 byte1 len lit : Byte) :
    tokenBytes (tokenDist byte0 byte1) len lit = [byte0, byte1, len, lit] := by
  rw [tokenBytes, tokenDist_high, tokenDist_low]

/-- A token is classed by its fields (30_encoding.md R90), so it is well formed and is encoded by them. -/
theorem classifyToken_encode (dist : BitVec 16) (len lit : Byte) :
    WellFormed (classifyToken dist len lit) ∧
      encode (classifyToken dist len lit) = .bytes (tokenBytes dist len lit) := by
  unfold classifyToken
  split_ifs with hlen hdist hdist
  · subst hlen hdist; exact ⟨rfl, rfl⟩
  · subst hlen; exact ⟨bne_iff_ne.mpr hdist, rfl⟩
  · subst hdist; exact ⟨bne_iff_ne.mpr hlen, rfl⟩
  · exact ⟨by simp [WellFormed, Instr.wf, hlen, hdist], rfl⟩

/-- The payload `payload` is the bytes of the element `i`, at least one, and then `rest`. -/
def StartsWith (i : Instr) (payload rest : List Byte) : Prop :=
  WellFormed i ∧ ∃ bytes, encode i = .bytes bytes ∧ bytes ≠ [] ∧ payload = bytes ++ rest

theorem decodeLz_startsWith {payload rest : List Byte} {i : Instr} (h : decodeLz payload = .ok (i, rest)) :
    StartsWith i payload rest := by
  match payload with
  | [] => cases h
  | [_] | [_, _] | [_, _, _] =>
    cases h
    exact ⟨rfl, _, rfl, List.cons_ne_nil _ _, (List.append_nil _).symm⟩
  | byte0 :: byte1 :: len :: lit :: payload =>
    cases h
    obtain ⟨hwf, hencode⟩ := classifyToken_encode (tokenDist byte0 byte1) len lit
    rw [tokenBytes_tokenDist] at hencode
    exact ⟨hwf, _, hencode, List.cons_ne_nil _ _, rfl⟩

theorem decodeRle_startsWith {payload rest : List Byte} {i : Instr} (h : decodeRle payload = .ok (i, rest)) :
    StartsWith i payload rest := by
  match payload with
  | [] => cases h
  | b :: payload =>
    by_cases hb : b = Config.rleMarker
    · subst hb
      match payload with
      | [] | [_] | _ :: _ :: _ =>
        cases h
        exact ⟨rfl, _, rfl, List.cons_ne_nil _ _, rfl⟩
    · rw [decodeRle_lit hb] at h
      cases h
      exact ⟨bne_iff_ne.mpr hb, _, rfl, List.cons_ne_nil _ _, rfl⟩

theorem decodeHuf_startsWith {t : Tree} {payload rest : List Bool} {i : Instr}
    (h : decodeHuf t payload = .ok (i, rest)) : ∃ bits, i = .hufSym bits ∧ bits ≠ [] ∧ payload = bits ++ rest := by
  by_cases hne : payload = []
  · subst hne; cases h
  · rw [decodeHuf_of_ne_nil t hne] at h
    cases h
    obtain ⟨happend, hcode⟩ := takeCode_append t.nodes payload t.start
    exact ⟨_, rfl, hcode hne, happend.symm⟩

/-- Settles O48: each decoder, case by case of the payload's first bytes or bits. -/
theorem elementsPartitionPayload : Obligations.ElementsPartitionPayload :=
  ⟨fun _ _ _ => decodeLz_startsWith, fun _ _ _ => decodeRle_startsWith, fun _ _ _ _ => decodeHuf_startsWith⟩

/-! ## The platform (R190) -/

theorem engineTurn_memOk {s t : State} (h : engineTurn s = .next t) : t.memOk = s.memOk := by
  rcases engineTurn_cases h with ⟨-, rfl⟩ | ⟨-, -, l, -, hend⟩ | ⟨-, x, l, -, -, ⟨rest, hend⟩ | hend⟩
  · rfl
  · obtain ⟨-, -, -, -, hmemOk, -⟩ := hend.leaves_idle
    exact hmemOk
  · rcases hend with rfl | ⟨out, rfl, -⟩
    · rfl
    · rfl
  · rw [hend, deliver_eq]
    split_ifs <;> rfl

theorem mmioWrite_memOk (o : Nat) (v : Word) (s : State) : (mmioWrite o v s).memOk = s.memOk := by
  unfold mmioWrite
  split
  · rfl
  · next r _ =>
    cases r with
    | cmd => simp only [writeReg, writeCmd]; cases s.phase <;> rfl
    | _ => rfl

theorem hostReset_memOk (s : State) : (hostReset s).memOk = s.memOk := by
  simp only [hostReset, State.abort]
  cases s.latched <;> rfl

theorem hostEvent_memOk {s t : State} {e : Event} (h : hostEvent e s = .next t) : t.memOk = s.memOk := by
  cases e with
  | engine => exact engineTurn_memOk h
  | mmioWrite width o v =>
    simp only [hostEvent, hostMmioWrite] at h
    split_ifs at h <;> cases h
    · exact mmioWrite_memOk o v s
    · rfl
  | mmioRead width o =>
    simp only [hostEvent, hostMmioRead] at h
    split_ifs at h <;> cases h <;> rfl
  | memWrite addr bytes =>
    simp only [hostEvent, hostMemWrite] at h
    split_ifs at h
    cases h
    rfl
  | memRead addr n =>
    simp only [hostEvent, hostMemRead] at h
    split_ifs at h
    cases h
    rfl
  | waitIdle =>
    simp only [hostEvent, hostWaitIdle] at h
    split at h
    · cases h
      rfl
    · exact engineTurn_memOk (s := { s with pending := .waitIdle :: s.pending }) h
  | reset =>
    cases h
    exact hostReset_memOk s

/-- Settles O60: CAPS is no part of the state, and a step is the engine's turn or an event. -/
theorem platformIsConstant : Obligations.PlatformIsConstant := by
  refine ⟨rfl, fun s t h => ⟨?_, rfl⟩⟩
  unfold step at h
  split at h
  · exact engineTurn_memOk h
  · next e rest _ => exact hostEvent_memOk (s := { s with pending := rest }) h

end Sys2Proof.Machine

/-!
PROOF. The bytes of a damage set take any value (43_dispatch.md R188; 70_reset_and_hazards.md R231). A supply that lists
the wanted byte of every address to be damaged, in the order of the draws, gives them. Which completion a command ends
in, and with what damage, is the same with any supply, so the supply can be chosen for that damage.
-/

namespace Sys2Proof.Machine

/-! ## Draws from a supply -/

/-- As many draws as the supply holds are the supply. -/
theorem freeBytes_supply (s : State) (supply : List Byte) :
    State.freeBytes { s with draws := supply } supply.length = supply := by
  refine List.ext_getElem (by simp) fun k hk hk' => ?_
  simp [State.freeBytes, State.draw, List.getElem?_eq_getElem hk']

/-- Cells that give every address the byte `v` has for it, in any order and any number of times. -/
theorem read_writeCells_assigned (v : Nat → Byte) {a : Nat} (ha : a < Config.memorySize) (addrs : List Nat)
    (m : Memory) (h : a ∈ addrs) : Memory.read (writeCells m (addrs.map fun b => (b, v b))) a = v a := by
  induction addrs generalizing m with
  | nil => exact absurd h List.not_mem_nil
  | cons b addrs ih =>
    rw [List.map_cons, writeCells, List.foldl_cons]
    by_cases hmem : a ∈ addrs
    · exact ih _ hmem
    · obtain rfl : a = b := (List.mem_cons.mp h).resolve_right hmem
      refine (read_writeCells_outside _ _ a ?_).trans (Memory.read_write_same m (v a) ha)
      rintro _ hc rfl
      obtain ⟨b, hb, rfl⟩ := List.mem_map.mp hc
      exact hmem hb

/-- The supply that damages a set of ranges to an assignment of bytes. -/
def supplyFor (zs : List Span) (v : Nat → Byte) : List Byte := (rangeAddrs zs).map v

theorem read_damage_supplyFor (s : State) {zs : List Span} (v : Nat → Byte) {z : Span} (hz : z ∈ zs) {a : Nat}
    (hza : z.has a = true) (ha : a < Config.memorySize) :
    Memory.read (State.damage zs { s with draws := supplyFor zs v }).mem a = v a := by
  have hdraws : State.freeBytes { s with draws := supplyFor zs v } (rangeAddrs zs).length = supplyFor zs v := by
    simpa [supplyFor] using freeBytes_supply s (supplyFor zs v)
  rw [State.damage_mem, hdraws, supplyFor, ← List.map_prod_left_eq_zip]
  exact read_writeCells_assigned v ha _ _ ((mem_rangeAddrs zs a).mpr ⟨z, hz, hza⟩)

/-! ## The ends of a command and the supply -/

/-- A compress with room for its record that ends in an error has found no room for its payload (40_huffman.md R117,
41_lz77.md R145, 42_rle.md R163). -/
theorem compressEnd_err {size : Nat} {payload rec : List Byte} {s : State} {p : Params}
    (hmeta : size ≤ p.metaCap.toNat) (herr : (compressEnd size payload rec s p).status.err = true)
    (supply : List Byte) :
    compressEnd size payload rec { s with draws := supply } p =
      State.raise .overflow [p.dstRegion, ⟨p.metaAddr.toNat, size⟩] { s with draws := supply } := by
  unfold compressEnd at herr ⊢
  rw [if_neg (Nat.not_lt.mpr hmeta)] at herr ⊢
  split_ifs at herr ⊢ with hdst
  · rfl
  · exact absurd herr Bool.false_ne_true

/-- The end of a decompress past the region check: its record is not `valid`, ORIG_LEN `n` exceeds DST_CAP, or its
payload decodes to `out`. -/
def decompressEnd (valid : Bool) (n : Nat) (out : Option (List Byte)) (s : State) (p : Params) : State :=
  if valid then if p.dstCap.toNat < n then s.raise .overflow [] else deliver n out s p
  else s.raise .malformedMetadata []

/-- One that ends in CORRUPT_PAYLOAD has room for ORIG_LEN bytes and no output (40_huffman.md R121, 41_lz77.md R150,
42_rle.md R167). -/
theorem decompressEnd_corrupt {valid : Bool} {n : Nat} {out : Option (List Byte)} {s : State} {p : Params}
    (hcode : (decompressEnd valid n out s p).status.errCode = 3#4) :
    n ≤ p.dstCap.toNat ∧ ∀ supply, decompressEnd valid n out { s with draws := supply } p =
      State.raise .corruptPayload [⟨p.dstAddr.toNat, n⟩] { s with draws := supply } := by
  unfold decompressEnd at hcode ⊢
  split_ifs at hcode ⊢ with hvalid hcap
  · exact absurd hcode (show CodecError.code .overflow ≠ 3#4 by decide)
  · cases out with
    | none => exact ⟨Nat.le_of_not_lt hcap, fun _ => rfl⟩
    | some bytes => exact absurd hcode (show 0#4 ≠ 3#4 by decide)
  · exact absurd hcode (show CodecError.code .malformedMetadata ≠ 3#4 by decide)

section Supply

variable {s : State} {l : Latched} {i : Instr} (hl : s.latched = some l) (hr : regionOk s.memOk l.snap = true)

include hl hr

/-- What a compress makes does not depend on the supply. -/
theorem exec_compress_supply {size : Nat}
    (hi : (i = .hufCompress ∧ size = 1032) ∨ (i = .lzCompress ∧ size = 4) ∨ (i = .rleCompress ∧ size = 4)) :
    ∃ payload rec, ∀ supply, exec i { s with draws := supply } =
      .next (compressEnd size payload rec { s with draws := supply } l.snap) := by
  rcases hi with ⟨rfl, rfl⟩ | ⟨rfl, rfl⟩ | ⟨rfl, rfl⟩
  · exact ⟨(hufCompress (srcData l.snap s.mem)).payload,
      hufRecord l.snap.srcLen.toNat (hufCompress (srcData l.snap s.mem)),
      fun supply => exec_hufCompress (s := { s with draws := supply }) hl hr⟩
  · exact ⟨lzCompress l.snap.window.toNat (srcData l.snap s.mem), u32le l.snap.srcLen.toNat,
      fun supply => exec_lzCompress (s := { s with draws := supply }) hl hr⟩
  · exact ⟨rleCompress (srcData l.snap s.mem), u32le l.snap.srcLen.toNat,
      fun supply => exec_rleCompress (s := { s with draws := supply }) hl hr⟩

/-- Nor does what a decompress makes. -/
theorem exec_decompress_supply (hi : i = .hufDecompress ∨ i = .lzDecompress ∨ i = .rleDecompress) :
    ∃ valid out, ∀ supply, exec i { s with draws := supply } =
      .next (decompressEnd valid (metaOrigLen l.snap s.mem) out { s with draws := supply } l.snap) := by
  rcases hi with rfl | rfl | rfl
  · exact ⟨hufMetaOk l.snap s.mem, hufDecompress (metaOrigLen l.snap s.mem) (metaPadding l.snap s.mem)
      (metaFreq l.snap s.mem) (srcData l.snap s.mem),
      fun supply => exec_hufDecompress (s := { s with draws := supply }) hl hr⟩
  · refine ⟨decide (4 ≤ l.snap.metaCap.toNat), lzDecompress l.snap.window.toNat (metaOrigLen l.snap s.mem)
      (srcData l.snap s.mem), fun supply => (exec_lzDecompress (s := { s with draws := supply }) hl hr).trans ?_⟩
    simp only [decompressEnd, decide_eq_true_eq, ← Nat.not_lt, ite_not]
  · refine ⟨decide (4 ≤ l.snap.metaCap.toNat), rleDecompress (metaOrigLen l.snap s.mem) (srcData l.snap s.mem),
      fun supply => (exec_rleDecompress (s := { s with draws := supply }) hl hr).trans ?_⟩
    simp only [decompressEnd, decide_eq_true_eq, ← Nat.not_lt, ite_not, decompressBody_eq]

end Supply

/-- Every address of a region that ends within memory, as the region check has it, is one of memory. -/
theorem lt_memorySize_of_region {r : Span} (h : r.len = 0 ∨ r.base + r.len ≤ Config.memorySize) {a : Nat}
    (ha : r.has a = true) : a < Config.memorySize := by
  rw [Span.has_iff] at ha
  omega

/-- An error completion damages its ranges to any bytes. -/
theorem raise_takesAnyValue (s : State) (e : CodecError) (zs : List Span) (v : Nat → Byte) :
    ∃ supply, ∀ z ∈ zs, ∀ a, z.has a = true → a < 4294967296 →
      Memory.read (State.raise e zs { s with draws := supply }).mem a = v a :=
  ⟨supplyFor zs v, fun _ hz _ hza ha => read_damage_supplyFor s v hz hza ha⟩

/-- So does an instruction that ends in one whatever the supply. -/
theorem exec_raise_takesAnyValue {s u : State} {i : Instr} {e : CodecError} {zs : List Span} (v : Nat → Byte)
    (h : ∀ supply, exec i { s with draws := supply } = .next (State.raise e zs { s with draws := supply }))
    (hu : exec i s = .next u) :
    ∃ supply t, exec i { s with draws := supply } = .next t ∧ t.status = u.status ∧
      ∀ z ∈ zs, ∀ a, z.has a = true → a < 4294967296 → Memory.read t.mem a = v a := by
  obtain ⟨supply, hv⟩ := raise_takesAnyValue s e zs v
  cases hu.symm.trans (h s.draws)
  exact ⟨supply, _, h supply, rfl, hv⟩

/-! ## Aborted commands, compresses and decompresses -/

theorem step_reset {s : State} {rest : List Event} (h : s.pending = .reset :: rest) :
    step s = .next (hostReset { s with pending := rest }) := by
  simp only [step, h, hostEvent]

/-- A reset that aborts a command damages its DST and META regions (70_reset_and_hazards.md R231). -/
theorem hostReset_mem_latched {s : State} {l : Latched} (hl : s.latched = some l) :
    (hostReset s).mem = (s.damage [l.snap.dstRegion, l.snap.metaRegion]).mem := by
  simp only [hostReset, State.abort, hl]

theorem reset_takesAnyValue {s : State} {l : Latched} {rest : List Event} (v : Nat → Byte)
    (hp : s.pending = .reset :: rest) (hl : s.latched = some l) :
    ∃ supply t, step { s with draws := supply } = .next t ∧
      ∀ a < 4294967296, l.snap.dstRegion.has a = true ∨ l.snap.metaRegion.has a = true → Memory.read t.mem a = v a := by
  refine ⟨supplyFor [l.snap.dstRegion, l.snap.metaRegion] v, _, step_reset (s := { s with draws := _ }) hp,
    fun a ha hin => ?_⟩
  rw [hostReset_mem_latched (s := { s with pending := rest, draws := _ }) hl]
  rcases hin with hdst | hmeta
  · exact read_damage_supplyFor { s with pending := rest } v (List.mem_cons_self ..) hdst ha
  · exact read_damage_supplyFor { s with pending := rest } v (List.mem_cons_of_mem _ (List.mem_cons_self ..)) hmeta ha

theorem compress_takesAnyValue {s u : State} {l : Latched} {i : Instr} {size : Nat} (v : Nat → Byte)
    (hi : (i = .hufCompress ∧ size = 1032) ∨ (i = .lzCompress ∧ size = 4) ∨ (i = .rleCompress ∧ size = 4))
    (hl : s.latched = some l) (hr : regionOk s.memOk l.snap = true) (hmeta : size ≤ l.snap.metaCap.toNat)
    (hu : exec i s = .next u) (herr : u.status.err = true) :
    ∃ supply t, exec i { s with draws := supply } = .next t ∧ t.status = u.status ∧
      ∀ a, l.snap.dstRegion.has a = true ∨ (l.snap.metaAddr.toNat ≤ a ∧ a < l.snap.metaAddr.toNat + size) →
        Memory.read t.mem a = v a := by
  obtain ⟨payload, rec, hexec⟩ := exec_compress_supply hl hr hi
  cases hu.symm.trans (hexec s.draws)
  obtain ⟨supply, t, ht, hstatus, hv⟩ := exec_raise_takesAnyValue v
    (fun supply => (hexec supply).trans (congrArg _ (compressEnd_err hmeta herr supply))) hu
  obtain ⟨-, hdstFits, hmetaFits, -, -, -⟩ := regionOk_places hr
  refine ⟨supply, t, ht, hstatus, fun a ha => ?_⟩
  rcases ha with hdst | hrec
  · exact hv _ (List.mem_cons_self ..) a hdst (lt_memorySize_of_region hdstFits hdst)
  · have hin : l.snap.metaRegion.has a = true :=
      (Span.has_iff _ a).mpr ⟨hrec.1, by simp only [Params.metaRegion]; omega⟩
    exact hv _ (List.mem_cons_of_mem _ (List.mem_cons_self ..)) a ((Span.has_iff _ a).mpr hrec)
      (lt_memorySize_of_region hmetaFits hin)

theorem decompress_takesAnyValue {s u : State} {l : Latched} {i : Instr} (v : Nat → Byte)
    (hi : i = .hufDecompress ∨ i = .lzDecompress ∨ i = .rleDecompress) (hl : s.latched = some l)
    (hu : exec i s = .next u) (hcode : u.status.errCode = 3#4) :
    ∃ supply t, exec i { s with draws := supply } = .next t ∧ t.status = u.status ∧
      ∀ a, l.snap.dstAddr.toNat ≤ a → a < l.snap.dstAddr.toNat + metaOrigLen l.snap s.mem →
        Memory.read t.mem a = v a := by
  by_cases hr : regionOk s.memOk l.snap = true
  · obtain ⟨valid, out, hexec⟩ := exec_decompress_supply hl hr hi
    cases hu.symm.trans (hexec s.draws)
    obtain ⟨hcap, hend⟩ := decompressEnd_corrupt hcode
    obtain ⟨supply, t, ht, hstatus, hv⟩ := exec_raise_takesAnyValue v
      (fun supply => (hexec supply).trans (congrArg _ (hend supply))) hu
    obtain ⟨-, hdstFits, -, -, -, -⟩ := regionOk_places hr
    refine ⟨supply, t, ht, hstatus, fun a hlo hhi => ?_⟩
    have hin : l.snap.dstRegion.has a = true := (Span.has_iff _ a).mpr ⟨hlo, by simp only [Params.dstRegion]; omega⟩
    exact hv _ (List.mem_cons_self ..) a ((Span.has_iff _ a).mpr ⟨hlo, hhi⟩) (lt_memorySize_of_region hdstFits hin)
  · rw [exec_regionError (by tauto) hl (Bool.not_eq_true _ ▸ hr)] at hu
    cases hu
    exact absurd hcode (show CodecError.code .regionError ≠ 3#4 by decide)

/-- Settles O18: the supply is chosen for the ranges damaged, which do not depend on it. -/
theorem damageTakesAnyValue : Obligations.DamageTakesAnyValue :=
  ⟨raise_takesAnyValue, fun _ _ _ v hp hl => reset_takesAnyValue v hp hl,
    fun _ _ _ _ _ v hi hl hr hmeta hu herr => compress_takesAnyValue v hi hl hr hmeta hu herr,
    fun _ _ _ _ v hi hl hu hcode => decompress_takesAnyValue v hi hl hu hcode⟩

end Sys2Proof.Machine

/-!
PROOF. Errors and the interrupt (60_exceptions.md): the numbers of the error kinds (R200), the level of irq and what moves
it (R203), the IDLE engine (R214), and that a command's error is a completion, never a fault (R206).
-/

namespace Sys2Proof.Machine

/-- Settles O20: the numbers of the table in R200. -/
theorem errorCodeNumbers : Obligations.ErrorCodeNumbers := ⟨rfl, rfl, rfl, rfl, rfl⟩

/-! ## The IDLE engine (R214) -/

theorem engineTurn_idle {s : State} (hp : s.phase = .idle) : engineTurn s = .next s := by
  simp only [engineTurn, hp]

/-- Settles O15: with nothing pending the step is the engine's turn. -/
theorem idleEngineWaits : Obligations.IdleEngineWaits := by
  intro s hidle hpend
  simp only [step, hpend]
  exact engineTurn_idle hidle

/-! ## The interrupt level (R203) -/

/-- However a command ends, DONE is set and CTRL stands. -/
theorem CommandEnd.sets_done {s t : State} {p : Params} (h : CommandEnd s p t) :
    t.status.doneBit = true ∧ t.ctrlIE = s.ctrlIE := by
  rcases h with ⟨e, zs, rfl, -, -⟩ | ⟨ws, n, q, rfl, -, -, -, -⟩
  · exact ⟨rfl, rfl⟩
  · exact ⟨rfl, rfl⟩

/-- So it is at the end of a decompress, with its output or without. -/
theorem deliver_sets_done (n : Nat) (out : Option (List Byte)) (s : State) (p : Params) :
    (deliver n out s p).status.doneBit = true ∧ (deliver n out s p).ctrlIE = s.ctrlIE := by
  cases out with
  | none => exact ⟨rfl, rfl⟩
  | some bytes => exact ⟨rfl, rfl⟩

/-- A turn that takes the engine from BUSY to IDLE is a completion: an element that appends its output leaves it BUSY. -/
theorem engineTurn_sets_done {s t : State} (hbusy : s.phase = .busy) (ht : engineTurn s = .next t)
    (hidle : t.phase = .idle) : t.status.doneBit = true ∧ t.ctrlIE = s.ctrlIE := by
  rcases engineTurn_cases ht with ⟨hp, -⟩ | ⟨-, -, l, -, hend⟩ | ⟨-, x, l, -, -, ⟨rest, hend⟩ | hend⟩
  · exact absurd (hbusy.symm.trans hp) (by decide)
  · exact hend.sets_done
  · rcases hend with rfl | ⟨out, rfl, -⟩
    · exact ⟨rfl, rfl⟩
    · exact absurd (hbusy.symm.trans hidle) (by decide)
  · exact hend ▸ deliver_sets_done ..

/-- Settles O10: a completion sets DONE; accept and a write of 1 to its bit clear it, and reset clears IE with it. -/
theorem interruptLevel : Obligations.InterruptLevel := by
  refine ⟨fun _ => rfl, fun s t hbusy ht hidle => ?completion, fun s w hidle => ?accept, fun s v hv => ?clear,
    fun _ => rfl⟩
  case completion =>
    obtain ⟨hdone, hie⟩ := engineTurn_sets_done hbusy ht hidle
    exact ⟨hdone, by rw [State.irq, hdone, hie, Bool.and_true]⟩
  case accept =>
    simp [writeReg, writeCmd, hidle, State.irq, Status.accepted]
  case clear =>
    simp [writeReg, State.irq, Status.clear, hv]

/-! ## Faults (R206) -/

/-- A coherent engine's turn answers a next state: while BUSY it has a command latched. -/
theorem State.Coherent.engineTurn_answers {s : State} (h : s.Coherent) : ∃ t, engineTurn s = .next t := by
  cases hp : s.phase with
  | idle => exact ⟨s, engineTurn_idle hp⟩
  | busy =>
    obtain ⟨l, hl⟩ := Option.isSome_iff_exists.mp (h.latchedIsBusy.mpr hp)
    exact engineTurn_latched hl

theorem State.Coherent.engineTurn_ne_fault {s : State} (h : s.Coherent) (r : Fault) : engineTurn s ≠ .fault r := by
  obtain ⟨t, ht⟩ := h.engineTurn_answers
  simp [ht]

/-- Data memory ends at 2^32 (10_state.md R41). -/
theorem inMemory_iff {a n : Nat} : inMemory a n = true ↔ a + n ≤ 4294967296 := decide_eq_true_iff

theorem hostMemWrite_fault {addr : Word} {bytes : List Byte} {s : State} {r : Fault}
    (h : hostMemWrite addr bytes s = .fault r) :
    r = .outsideMemory ∧ 4294967296 < addr.toNat + bytes.length := by
  unfold hostMemWrite at h
  split_ifs at h with hin
  cases h
  exact ⟨rfl, Nat.lt_of_not_le (mt inMemory_iff.mpr hin)⟩

theorem hostMemRead_fault {addr : Word} {n : Nat} {s : State} {r : Fault} (h : hostMemRead addr n s = .fault r) :
    r = .outsideMemory ∧ 4294967296 < addr.toNat + n := by
  unfold hostMemRead at h
  split_ifs at h with hin
  cases h
  exact ⟨rfl, Nat.lt_of_not_le (mt inMemory_iff.mpr hin)⟩

/-- Of the events in a coherent state only a host memory access can fault; register accesses are at worst refused. -/
theorem hostEvent_fault {s : State} (hs : s.Coherent) {e : Event} {r : Fault} (h : hostEvent e s = .fault r) :
    r = .outsideMemory ∧ ∃ addr, (∃ bytes, e = .memWrite addr bytes ∧ 4294967296 < addr.toNat + bytes.length) ∨
      (∃ n, e = .memRead addr n ∧ 4294967296 < addr.toNat + n) := by
  cases e with
  | engine => exact absurd h (hs.engineTurn_ne_fault r)
  | mmioWrite width offset v =>
    simp only [hostEvent, hostMmioWrite] at h
    split_ifs at h
  | mmioRead width offset =>
    simp only [hostEvent, hostMmioRead] at h
    split_ifs at h
  | memWrite addr bytes =>
    obtain ⟨hr, hpast⟩ := hostMemWrite_fault h
    exact ⟨hr, addr, .inl ⟨bytes, rfl, hpast⟩⟩
  | memRead addr n =>
    obtain ⟨hr, hpast⟩ := hostMemRead_fault h
    exact ⟨hr, addr, .inr ⟨n, rfl, hpast⟩⟩
  | waitIdle =>
    simp only [hostEvent, hostWaitIdle] at h
    split at h
    · cases h
    · exact absurd h
        (State.Coherent.engineTurn_ne_fault (s := { s with pending := .waitIdle :: s.pending }) { hs with } r)
  | reset => cases h

/-- Settles O57: a step is the engine's turn, which does not fault, or an event. -/
theorem onlyOutsideAccessFaults : Obligations.OnlyOutsideAccessFaults := by
  intro s r hs h
  unfold step at h
  split at h
  · exact absurd h (hs.engineTurn_ne_fault r)
  · next e rest hpend =>
    obtain ⟨hr, addr, hpast⟩ := hostEvent_fault (s := { s with pending := rest }) { hs with } h
    refine ⟨hr, rest, addr, ?_⟩
    rcases hpast with ⟨bytes, rfl, hpast⟩ | ⟨n, rfl, hpast⟩
    · exact .inl ⟨bytes, hpend, hpast⟩
    · exact .inr ⟨n, hpend, hpast⟩

end Sys2Proof.Machine

/-!
PROOF. Reset and hazards (70_reset_and_hazards.md): what the reset input leaves (R230 to R232), the host's memory
accesses while a command runs (R235, R236), and parameter writes while BUSY (R237). No part of the engine's turn looks
at the parameter registers: a change of them passes through every operation it is made of.
-/

namespace Sys2Proof.Machine

/-! ## Reset (R230, R232) -/

/-- The fields that a register read, irq and the engine's idleness look at. -/
theorem atResetValues_of_fields {t : State} (hctrl : t.ctrlIE = false) (hstatus : t.status = State.reset.status)
    (hparams : t.params = State.reset.params) (hout : t.outLen = 0#32) (hmeta : t.metaLen = 0#32)
    (hidle : EngineIdle t) : AtResetValues t := by
  refine ⟨rfl, ?_, ?_, rfl, ?_, ?_, ?_, ?_, ?_, ?_, ?_, hout, hmeta, hidle, ?_⟩ <;>
    simp only [readReg, State.irq, hctrl, hstatus, hparams] <;> rfl

theorem reset_atResetValues : AtResetValues State.reset :=
  atResetValues_of_fields rfl rfl rfl rfl rfl ⟨rfl, rfl, rfl⟩

theorem hostReset_atResetValues (s : State) : AtResetValues (hostReset s) :=
  atResetValues_of_fields rfl rfl rfl rfl rfl ⟨rfl, rfl, rfl⟩

/-- The events behind a reset are still to come (log 11). -/
theorem hostReset_pending (s : State) : (hostReset s).pending = s.pending := by
  simp only [hostReset, State.abort]
  cases s.latched <;> rfl

/-- Settles O1: the registers after a reset are constants, and the IDLE engine waits. -/
theorem resetGivesResetValues : Obligations.ResetGivesResetValues := by
  refine ⟨reset_atResetValues, idleEngineWaits _ rfl rfl, fun s rest hpend => ?_⟩
  have hrest := hostReset_pending { s with pending := rest }
  exact ⟨_, step_reset hpend, hostReset_atResetValues _, hrest, fun hnil => idleEngineWaits _ rfl (hrest.trans hnil)⟩

theorem hostReset_mem_idle {s : State} (hl : s.latched = none) : (hostReset s).mem = s.mem := by
  simp only [hostReset, State.abort, hl]

/-- With a command latched, the volatile bytes are those it may write. -/
theorem State.volatileAt_latched {s : State} {l : Latched} (hl : s.latched = some l) (a : Nat) :
    s.volatileAt a = l.snap.writes a := by
  simp only [State.volatileAt, hl]

theorem hostReset_read {s : State} {a : Nat} (ha : s.volatileAt a = false) :
    Memory.read (hostReset s).mem a = Memory.read s.mem a := by
  cases hl : s.latched with
  | none => rw [hostReset_mem_idle hl]
  | some l =>
    rw [State.volatileAt_latched hl, Params.writes, Bool.or_eq_false_iff] at ha
    rw [hostReset_mem_latched hl]
    exact read_damage_outside s _ a (by simpa using ha)

/-- Settles O2: reset damages DST and META of the command it aborts, and nothing else. -/
theorem resetSparesMemory : Obligations.ResetSparesMemory := fun s rest hpend =>
  ⟨_, step_reset hpend, fun _ ha => hostReset_read (s := { s with pending := rest }) ha⟩

/-! ## Host writes (R235) -/

theorem inUnobserved_iff {s : State} {a n : Nat} :
    inUnobserved s a n = true ↔ ∃ b, a ≤ b ∧ b < a + n ∧ ∃ p ∈ s.unobserved,
      (p.srcRegion.has b = true ∨ p.dstRegion.has b = true ∨ p.metaRegion.has b = true) := by
  simp only [inUnobserved, Params.uses, Params.writes, List.any_eq_true, List.mem_range'_1, Bool.or_eq_true, and_assoc]

theorem hostMemWrite_refused {s : State} {addr : Word} {bytes : List Byte}
    (hmem : addr.toNat + bytes.length ≤ 4294967296) (hduty : inUnobserved s addr.toNat bytes.length = true) :
    hostMemWrite addr bytes s = .refused .regionQuiescence := by
  rw [hostMemWrite, if_pos (inMemory_iff.mpr hmem), if_pos hduty]

theorem hostMemWrite_lands {s : State} {addr : Word} {bytes : List Byte}
    (hmem : addr.toNat + bytes.length ≤ 4294967296) (hduty : ¬ inUnobserved s addr.toNat bytes.length = true) :
    hostMemWrite addr bytes s = .next { s with mem := memWrite s.mem addr.toNat bytes } := by
  rw [hostMemWrite, if_pos (inMemory_iff.mpr hmem), if_neg hduty]

theorem step_memWrite {s : State} {rest : List Event} {addr : Word} {bytes : List Byte}
    (h : s.pending = .memWrite addr bytes :: rest) :
    step s = hostMemWrite addr bytes { s with pending := rest } := by
  simp only [step, h, hostEvent]

/-- Settles O11: the two clauses are the two sides of the check of the host's duty. -/
theorem hostWriteLandsOrIsRefused : Obligations.HostWriteLandsOrIsRefused := by
  intro s rest addr bytes hpend hmem
  rw [step_memWrite hpend]
  refine ⟨fun hmeets => hostMemWrite_refused hmem (inUnobserved_iff.mpr hmeets), fun hapart => ?_⟩
  refine ⟨_, hostMemWrite_lands hmem fun hduty => ?_, read_memWrite s.mem addr.toNat bytes hmem⟩
  obtain ⟨a, hlo, hhi, p, hp, huses⟩ := inUnobserved_iff.mp hduty
  obtain ⟨hsrc, hdst, hmeta⟩ := hapart a hlo hhi p hp
  simp [hsrc, hdst, hmeta] at huses

/-! ## Host reads (R236) -/

@[simp] theorem hostBytes_length (s : State) (a n : Nat) : (hostBytes s a n).length = n := by simp [hostBytes]

theorem hostBytes_getElem? (s : State) (a : Nat) {n k : Nat} (hk : k < n) :
    (hostBytes s a n)[k]? = some (hostByte s (a + k) k) := by
  simp [hostBytes, hk]

theorem hostByte_memory {s : State} {a : Nat} (h : s.volatileAt a = false) (k : Nat) :
    hostByte s a k = Memory.read s.mem a := by
  simp [hostByte, h]

/-- A free byte is taken from the supply as far as that reaches (log 3). -/
theorem hostByte_supply {s : State} {a : Nat} (h : s.volatileAt a = true) {k : Nat} {b : Byte}
    (hb : s.draws[k]? = some b) : hostByte s a k = b := by
  simp [hostByte, h, State.draw, hb]

theorem State.volatileAt_eq_false {s : State} {a : Nat}
    (h : ∀ l, s.latched = some l → l.snap.dstRegion.has a = false ∧ l.snap.metaRegion.has a = false) :
    s.volatileAt a = false := by
  cases hl : s.latched with
  | none => simp only [State.volatileAt, hl]
  | some l => rw [State.volatileAt_latched hl, Params.writes, Bool.or_eq_false_iff]; exact h l hl

theorem step_memRead {s : State} {rest : List Event} {addr : Word} {n : Nat} (h : s.pending = .memRead addr n :: rest)
    (hmem : addr.toNat + n ≤ 4294967296) :
    step s = .next { s with
      pending := rest, responses := s.responses ++ [.mem addr (hostBytes s addr.toNat n)]
      draws := s.draws.drop n, drawCount := s.drawCount + n } := by
  simp only [step, h, hostEvent, hostMemRead, inMemory_iff.mpr hmem, if_true]
  rfl

/-- The supply from which a read of `[a, a + n)` answers `v` wherever its bytes are free. -/
def readSupply (v : Nat → Byte) (a n : Nat) : List Byte := (List.range' a n).map v

theorem readSupply_getElem? (v : Nat → Byte) (a : Nat) {n k : Nat} (hk : k < n) :
    (readSupply v a n)[k]? = some (v (a + k)) := by
  simp [readSupply, hk]

/-- Settles O12: byte k of the answer is memory's or draw k, which a supply can give any value. -/
theorem hostReadReturnsMemory : Obligations.HostReadReturnsMemory := by
  intro s rest addr n hpend hmem
  refine ⟨⟨_, step_memRead hpend hmem, hostBytes_length .., fun k hk hout => ?_⟩, fun l v hl => ?_⟩
  · rw [hostBytes_getElem? s _ hk, hostByte_memory (State.volatileAt_eq_false hout)]
  · refine ⟨readSupply v addr.toNat n, _, _, step_memRead (s := { s with draws := _ }) hpend hmem, rfl,
      hostBytes_length .., fun k hk hin => ?_⟩
    have hfree : State.volatileAt { s with draws := readSupply v addr.toNat n } (addr.toNat + k) = true :=
      (State.volatileAt_latched hl _).trans ((Params.writes_iff ..).mpr hin)
    rw [hostBytes_getElem? _ _ hk, hostByte_supply hfree (readSupply_getElem? v _ hk)]

/-! ## Parameter writes while BUSY (R237) -/

/-- A state with its parameter registers changed. -/
def State.mapParams (f : Params → Params) (s : State) : State := { s with params := f s.params }

/-- What a result becomes when the state it goes on with is changed. -/
def onNext (g : State → State) : Result → Result
  | .next t => .next (g t)
  | .fault r => .fault r
  | .refused r => .refused r

/-- A write to one of the seven registers changes the parameters alone. -/
theorem writeReg_eq_mapParams {r : Reg}
    (hr : r = .srcAddr ∨ r = .srcLen ∨ r = .dstAddr ∨ r = .dstCap ∨ r = .metaAddr ∨ r = .metaCap ∨ r = .lzWindow)
    (v : Word) : ∃ f, ∀ s, writeReg r v s = s.mapParams f := by
  rcases hr with rfl | rfl | rfl | rfl | rfl | rfl | rfl
  · exact ⟨fun p => { p with srcAddr := v }, fun _ => rfl⟩
  · exact ⟨fun p => { p with srcLen := v }, fun _ => rfl⟩
  · exact ⟨fun p => { p with dstAddr := v }, fun _ => rfl⟩
  · exact ⟨fun p => { p with dstCap := v }, fun _ => rfl⟩
  · exact ⟨fun p => { p with metaAddr := v }, fun _ => rfl⟩
  · exact ⟨fun p => { p with metaCap := v }, fun _ => rfl⟩
  · exact ⟨fun p => { p with window := v.setWidth 16 }, fun _ => rfl⟩

section MapParams

variable (f : Params → Params) (s : State)

@[simp] theorem State.mapParams_mem : (s.mapParams f).mem = s.mem := rfl
@[simp] theorem State.mapParams_memOk : (s.mapParams f).memOk = s.memOk := rfl
@[simp] theorem State.mapParams_phase : (s.mapParams f).phase = s.phase := rfl
@[simp] theorem State.mapParams_latched : (s.mapParams f).latched = s.latched := rfl
@[simp] theorem State.mapParams_expansion : (s.mapParams f).expansion = s.expansion := rfl
@[simp] theorem State.mapParams_tables : (s.mapParams f).tables = s.tables := rfl

theorem raise_mapParams (e : CodecError) (zs : List Span) :
    (s.mapParams f).raise e zs = (s.raise e zs).mapParams f := rfl

theorem completeOk_mapParams (ws : List (Nat × List Byte)) (n q : Nat) :
    (s.mapParams f).completeOk ws n q = (s.completeOk ws n q).mapParams f := rfl

theorem compressEnd_mapParams (size : Nat) (payload rec : List Byte) (p : Params) :
    compressEnd size payload rec (s.mapParams f) p = (compressEnd size payload rec s p).mapParams f := by
  simp only [compressEnd, raise_mapParams, completeOk_mapParams, apply_ite (State.mapParams f)]

theorem compressBody_mapParams (size : Nat) (make : List Byte → Tables → Tables × List Byte)
    (record : List Byte → Tables → List Byte) (p : Params) :
    compressBody size make record (s.mapParams f) p = (compressBody size make record s p).mapParams f :=
  compressEnd_mapParams ..

theorem deliver_mapParams (n : Nat) (out : Option (List Byte)) (p : Params) :
    deliver n out (s.mapParams f) p = (deliver n out s p).mapParams f := by
  cases out <;> rfl

theorem decompressBody_mapParams (n : Nat) (build : Tables → Tables)
    (decode : Tables → List Byte → Option (List Byte)) (p : Params) :
    decompressBody n build decode (s.mapParams f) p = (decompressBody n build decode s p).mapParams f := by
  simp only [decompressBody_eq, deliver_mapParams, State.mapParams_mem, State.mapParams_tables, raise_mapParams,
    apply_ite (State.mapParams f)]

theorem withSnapshot_mapParams {body body' : Params → State} (h : ∀ p, body' p = (body p).mapParams f) :
    withSnapshot (s.mapParams f) body' = onNext (State.mapParams f) (withSnapshot s body) := by
  cases hl : s.latched with
  | none => simp only [withSnapshot, State.mapParams_latched, hl, onNext]
  | some l => simp only [withSnapshot, State.mapParams_latched, hl, onNext, h]

theorem runCommand_mapParams {body body' : Params → State} (h : ∀ p, body' p = (body p).mapParams f) :
    runCommand (s.mapParams f) body' = onNext (State.mapParams f) (runCommand s body) := by
  refine withSnapshot_mapParams f s fun p => ?_
  rw [State.mapParams_memOk, h, raise_mapParams, apply_ite (State.mapParams f)]

theorem runElement_mapParams (effect : Params → Expansion → Option (List Byte)) :
    runElement (s.mapParams f) effect = onNext (State.mapParams f) (runElement s effect) := by
  unfold runElement
  rw [State.mapParams_latched, State.mapParams_expansion]
  cases s.latched with
  | none => rfl
  | some l =>
    cases s.expansion with
    | none => rfl
    | some x => dsimp only; cases effect l.snap x <;> rfl

theorem finishExpansion_mapParams :
    finishExpansion (s.mapParams f) = onNext (State.mapParams f) (finishExpansion s) := by
  unfold finishExpansion
  rw [State.mapParams_latched, State.mapParams_expansion]
  cases s.latched with
  | none => rfl
  | some l =>
    cases s.expansion with
    | none => rfl
    | some x => exact congrArg _ (deliver_mapParams ..)

/-- Every command and element takes its parameters from the snapshot. -/
theorem exec_mapParams (i : Instr) : exec i (s.mapParams f) = onNext (State.mapParams f) (exec i s) := by
  cases i with
  | hufCompress | lzCompress | rleCompress =>
    simp only [exec, execHufCompress, execLzCompress, execRleCompress]
    exact runCommand_mapParams f s fun _ => compressBody_mapParams ..
  | hufDecompress | lzDecompress | rleDecompress =>
    simp only [exec, execHufDecompress, execLzDecompress, execRleDecompress]
    refine runCommand_mapParams f s fun p => ?_
    rw [decompressBody_mapParams, raise_mapParams, State.mapParams_mem, apply_ite (State.mapParams f)]
  | illegalCmd w =>
    simp only [exec, execIllegalCmd]
    exact withSnapshot_mapParams f s fun _ => raise_mapParams ..
  | hufSym | lzLit | lzMatch | lzRef0 | lzIllegal | lzTruncated | rleRun | rleLit | rleDangling =>
    simp only [exec, execHufSym, execLzLit, execLzMatch, execLzRef0, execLzIllegal, execLzTruncated, execRleRun,
      execRleLit, execRleDangling, State.mapParams_tables]
    exact runElement_mapParams ..

theorem engineTurn_mapParams : engineTurn (s.mapParams f) = onNext (State.mapParams f) (engineTurn s) := by
  unfold engineTurn
  rw [State.mapParams_phase, State.mapParams_expansion, State.mapParams_tables, State.mapParams_latched]
  cases s.phase with
  | idle => rfl
  | busy =>
    cases s.expansion with
    | none =>
      cases s.latched with
      | none => rfl
      | some l => exact exec_mapParams f s _
    | some x =>
      dsimp only
      cases fetchElement s.tables.tree x.feed with
      | error e => exact finishExpansion_mapParams f s
      | ok r => exact exec_mapParams f (s.consume x r.2) r.1

end MapParams

/-- Settles O9: the write is a change of the parameter registers, which the turn does not look at. -/
theorem parameterWriteSparesRunningCommand : Obligations.ParameterWriteSparesRunningCommand := by
  intro s t r v hr _ ht
  obtain ⟨f, hf⟩ := writeReg_eq_mapParams hr v
  rw [hf, hf, engineTurn_mapParams, ht, onNext]

end Sys2Proof.Machine
